-- ==== Sys2Proof/Word.lean ====
section
/-! DEFINITION. The widths the spec treats as bits at the block's interface: a byte of the stream or an
`OPSEL` (30_encoding.md R73), and the 2-bit mode code (10_state.md R23). Every other integer of the spec
is a natural number (00_scope.md R10), presented as an integer so that a negative one can be refused (D3). -/

namespace Sys2Proof

/-- A byte: an operation selector (R73) or one byte of the stream (R54). -/
abbrev Byte := BitVec 8

/-- The 2-bit code that carries a mode as an operand (R23). -/
abbrev ModeCode := BitVec 2

end Sys2Proof
end

