-- ==== Sys2Proof/Machine/Bits.lean ====
section
/-! DEFINITION. Bit fields of naturals (00_scope.md R11) and the big-endian byte image of a word
(20_memory.md R55). -/

namespace Sys2Proof.Machine

/-- `v[i]`: bit `i` of `v`, as 0 or 1 (R11). -/
def bitAt (v i : Nat) : Nat := (v >>> i) &&& 1

/-- `v[hi:lo]`: the field of bits `hi` down to `lo` (R11). -/
def slice (v hi lo : Nat) : Nat := (v >>> lo) &&& (2 ^ (hi - lo + 1) - 1)

/-- The `n`-byte big-endian image of `v`: the byte at offset `j` holds `v[8(n-j)-1 : 8(n-j)-8]`
(R55 with n = 6; R14 `MemWrite`). -/
def beBytes : Nat → Nat → List Byte
  | 0, _ => []
  | n + 1, v => BitVec.ofNat 8 (slice v (8 * n + 7) (8 * n)) :: beBytes n v

/-- The word whose big-endian bytes these are: `b0, b1, …` concatenated, `b0` in the high bits (R55, R205). -/
def beNat (bs : List Nat) : Nat := bs.foldl (fun acc b => (acc <<< 8) ||| b) 0

end Sys2Proof.Machine
end

