-- ==== Sys2Proof/Config.lean ====
section
/-! DEFINITION. What the spec leaves to an instance of the block: the parameters of 00_scope.md R8 and the
shape that 10_state.md R29 asks of the OPEN counter kinds. The values are fixed for the life of the block;
`State.par` holds them, and no operation writes them. -/

namespace Sys2Proof

/-- `FTOA_COUNT`: how the fine-tick count is rounded (R8, D10). -/
inductive FineRounding where
  | floor
  | ceil
  deriving DecidableEq, Repr

/-- `HEADER_CHECK`: whether disassembly checks the packet header (R8, D13). -/
inductive HeaderCheck where
  | strict
  | ignore
  deriving DecidableEq, Repr

/-- The parameters an instance supplies for an OPEN LFSR kind of width `w` (R27, R29): four tap offsets
below the width (R29, 1), the overflow flag, and an overflow value of that width (R29, 4). That the taps
are maximal-length and iToT's four (R29, 2 and 3) is `legalParams` of Machine/Instance.lean. -/
structure LfsrParams (w : Nat) where
  t1 : Fin w
  t2 : Fin w
  t3 : Fin w
  t4 : Fin w
  ovf : Bool
  ovv : BitVec w
  deriving DecidableEq, Repr

/-- The parameters of R8. `itot` and `pc4b` are OPEN: `none` until an instance supplies them (R262, 2). -/
structure Params where
  itot : Option (LfsrParams 14)
  pc4b : Option (LfsrParams 4)
  dummySecondary : BitVec 10
  ftoaCount : FineRounding
  headerCheck : HeaderCheck
  deriving DecidableEq, Repr

/-- The spec's own choices (R8: D7, D10, D13) and no OPEN parameter supplied (D4, D5). -/
def Params.specChoice : Params :=
  { itot := none, pc4b := none, dummySecondary := 0, ftoaCount := .floor, headerCheck := .strict }

end Sys2Proof
end

