-- ==== Sys2Proof/Syntax.lean ====
section
/-! DEFINITION. The operations of opcode_table.json, one constructor per row, with their typed operands
(30_encoding.md R70, R75, R76), and what the host presents: a selector and its operands (R70).
Integer operands are `Int`, because the spec refuses a negative one (R10, D3) rather than excluding it. -/

namespace Sys2Proof

/-- A pulse of one pixel: start and stop in seconds (R17). -/
structure Pulse where
  start : Rat
  stop : Rat
  deriving DecidableEq, Repr

/-- A hit of `ENC_STREAM`: pixel coordinates and the pulse's times (R220). -/
structure Hit where
  x : Int
  y : Int
  start : Rat
  stop : Rat
  deriving DecidableEq, Repr

/-- One constructor per row of opcode_table.json, in the table's order. -/
inductive Instr where
  | addrEnc (x y : Int)
  | addrDec (address : Int)
  | lfsrStep (register width t1 t2 t3 t4 : Int)
  | encToa (count : Int)
  | decToa (value : Int)
  | encFtoa (count : Int)
  | decFtoa (value : Int)
  | encTot (count : Int)
  | decTot (value : Int)
  | encItot (count : Int)
  | decItot (value : Int)
  | encPc10 (count : Int)
  | decPc10 (value : Int)
  | encPc4 (count : Int)
  | decPc4 (value : Int)
  | t2toa (t : Rat)
  | toa2t (toa : Int)
  | t2ftoa (t : Rat)
  | ftoa2t (ftoa toa : Int)
  | t2tot (start stop : Rat)
  | tot2t (tot toa : Int) (ftoa : Option Int)
  | t2val (start stop : Rat) (mode : ModeCode)
  | deadtime (previousTot : Int) (mode : ModeCode) (clock : Rat)
  | acqStart (mode : ModeCode) (fSys fFine epoch : Option Rat)
  | accept (address : Int) (start stop : Rat)
  | acceptSeq (mode : ModeCode) (pulses : List Pulse)
  | pktAsm (address toa secondary ftoa : Int)
  | pktDis (word : Int)
  | hitEnc (address : Int) (start stop : Rat) (mode : ModeCode)
  | hitDec (word : Int) (mode : ModeCode) (wantTime wantDecoded : Bool)
  | pktSer (word : Int)
  | pktDes (b0 b1 b2 b3 b4 b5 : Int)
  | streamSplit (bytes : List Int)
  | encStream (hits : List Hit) (mode : ModeCode)
  | decStream (bytes : List Int) (mode : ModeCode) (wantTime wantDecoded : Bool)
  | pkt48 (address : BitVec 16) (toa : BitVec 14) (secondary : BitVec 10) (ftoa : BitVec 4)
  deriving DecidableEq, Repr

/-- A typed operand value, as the host presents it (R70, R76). -/
inductive Operand where
  | int (v : Int)
  | optInt (v : Option Int)
  | taps (t1 t2 t3 t4 : Int)
  | rat (q : Rat)
  | optRat (q : Option Rat)
  | mode (c : ModeCode)
  | bool (b : Bool)
  | pulses (ps : List Pulse)
  | hits (hs : List Hit)
  | bytes (bs : List Int)
  deriving DecidableEq, Repr

/-- What the host presents: the encoded bits as bytes (one byte of `OPSEL`, R73, or the six bytes of a
48-bit packet, most significant first, R55, R71) and the operands that go with a selector (R70). -/
structure Request where
  code : List Byte
  operands : List Operand
  deriving DecidableEq, Repr

end Sys2Proof
end

