-- ==== Sys2Proof/WellFormed.lean ====
section
/-! DEFINITION. Well-formed operations: every operand in the part of its domain in 30_encoding.md R76 that
does not depend on the state (the bound `≥ CFG.epoch` on times, the order of starts and the presence of an
acquisition are checked by the machine alone). The machine does not rely on this predicate: an operation
that is not well formed is still executed, and raises the error R76 names. -/

namespace Sys2Proof

/-- An integer operand in `0 .. hi` (R76). -/
def intUpTo (hi : Nat) (v : Int) : Bool := decide (0 ≤ v) && decide (v ≤ hi)

/-- A natural-number operand with no upper bound (R76). -/
def intNat (v : Int) : Bool := decide (0 ≤ v)

/-- `stop ≥ start` (R76, D11). -/
def orderedPair (start stop : Rat) : Bool := decide (start ≤ stop)

/-- The codes of the three modes (R24: `DEADTIME`, `ACQ_START`, `ACCEPT_SEQ`). -/
def codeOfAnyMode (c : ModeCode) : Bool := c != 3#2

/-- The codes of the two modes with a packet layout (R24: `T2VAL`, `HIT_ENC`, `HIT_DEC`, the streams). -/
def codeOfPacketMode (c : ModeCode) : Bool := c == 0#2 || c == 1#2

/-- A clock operand, positive (R76, D22, D29); an omitted one takes a positive default (R181). -/
def clockOk : Option Rat → Bool
  | none => true
  | some q => decide (0 < q)

/-- The taps of `LFSR_STEP`: four naturals, every tap used below the width (R28, R76, D28). -/
def tapsOk (width t1 t2 t3 t4 : Int) : Bool :=
  intNat t1 && intNat t2 && intNat t3 && intNat t4
    && decide (t1 < width) && decide (t2 < width)
    && (decide (t3 = 0) || decide (t4 = 0) || (decide (t3 < width) && decide (t4 < width)))

/-- A hit of `ENC_STREAM`: both coordinates on the grid and `stop ≥ start` (R76, R220). -/
def Hit.ok (h : Hit) : Bool := intUpTo 255 h.x && intUpTo 255 h.y && orderedPair h.start h.stop

/-- The static operand domains of R76, operation by operation. -/
def Instr.wf : Instr → Bool
  | .addrEnc x y => intUpTo 255 x && intUpTo 255 y
  | .addrDec a => intUpTo 65535 a
  | .lfsrStep r w t1 t2 t3 t4 =>
      decide (1 ≤ w) && decide (w ≤ 16) && tapsOk w t1 t2 t3 t4 && intUpTo (2 ^ w.toNat - 1) r
  | .encToa c => intUpTo 16383 c
  | .decToa v => intUpTo 16383 v
  | .encFtoa c => intNat c
  | .decFtoa v => intUpTo 15 v
  | .encTot c => intNat c
  | .decTot v => intUpTo 1023 v
  | .encItot c => intNat c
  | .decItot v => intUpTo 16383 v
  | .encPc10 c => intNat c
  | .decPc10 v => intUpTo 1023 v
  | .encPc4 c => intNat c
  | .decPc4 v => intUpTo 15 v
  | .t2toa _ => true
  | .toa2t toa => intUpTo 16383 toa
  | .t2ftoa _ => true
  | .ftoa2t ftoa toa => intUpTo 15 ftoa && intUpTo 16383 toa
  | .t2tot start stop => orderedPair start stop
  | .tot2t tot toa ftoa =>
      intUpTo 1023 tot && intUpTo 16383 toa && (match ftoa with | none => true | some f => intUpTo 15 f)
  | .t2val start stop mode => codeOfPacketMode mode && orderedPair start stop
  | .deadtime p mode clock => codeOfAnyMode mode && intNat p && clockOk (some clock)
  | .acqStart mode fSys fFine _ => codeOfAnyMode mode && clockOk fSys && clockOk fFine
  | .accept a start stop => intUpTo 65535 a && orderedPair start stop
  | .acceptSeq mode ps => codeOfAnyMode mode && ps.all fun p => orderedPair p.start p.stop
  | .pktAsm a toa sec ftoa =>
      intUpTo 65535 a && intUpTo 16383 toa && intUpTo 1023 sec && intUpTo 15 ftoa
  | .pktDis w => intUpTo (2 ^ 48 - 1) w
  | .hitEnc a start stop mode => codeOfPacketMode mode && intUpTo 65535 a && orderedPair start stop
  | .hitDec w mode _ _ => codeOfPacketMode mode && intUpTo (2 ^ 48 - 1) w
  | .pktSer w => intUpTo (2 ^ 48 - 1) w
  | .pktDes b0 b1 b2 b3 b4 b5 => [b0, b1, b2, b3, b4, b5].all (intUpTo 255)
  | .streamSplit bs => bs.all (intUpTo 255) && bs.length % 6 == 0
  | .encStream hs mode => codeOfPacketMode mode && hs.all Hit.ok
  | .decStream bs mode _ _ => codeOfPacketMode mode && bs.all (intUpTo 255) && bs.length % 6 == 0
  | .pkt48 _ _ _ _ => true

end Sys2Proof
end

