-- ==== Sys2Proof/Decode.lean ====
section
/-! DEFINITION. The decoder of what the host presents, total on any bytes and any operands, and the encoder
written from the same table (30_encoding.md R71 to R78, opcode_table.json). -/

namespace Sys2Proof

/-- Why a presentation is no operation. -/
inductive DecodeError where
  /-- A one-byte selector that R75 does not list (R78). -/
  | illegalOpsel (opsel : Byte)
  /-- Six bytes whose bits 47:44 are not `1010` (R71). -/
  | badHeader (header : Nat)
  /-- A code that is neither one byte (R73) nor six (R71, R80). -/
  | codeLength (bytes : Nat)
  /-- A legal selector whose operands have not the number and types of R75 and R76. -/
  | operandTypes (opsel : Byte)
  deriving DecidableEq, Repr

/-- The operation map of R75: the selector first, then its operands. -/
def decodeOp (opsel : Byte) (ops : List Operand) : Except DecodeError Instr :=
  match opsel.toNat with
  | 0x01 => match ops with
    | [.int x, .int y] => .ok (.addrEnc x y)
    | _ => .error (.operandTypes opsel)
  | 0x02 => match ops with
    | [.int a] => .ok (.addrDec a)
    | _ => .error (.operandTypes opsel)
  | 0x08 => match ops with
    | [.int r, .int w, .taps t1 t2 t3 t4] => .ok (.lfsrStep r w t1 t2 t3 t4)
    | _ => .error (.operandTypes opsel)
  | 0x10 => match ops with
    | [.int c] => .ok (.encToa c)
    | _ => .error (.operandTypes opsel)
  | 0x11 => match ops with
    | [.int v] => .ok (.decToa v)
    | _ => .error (.operandTypes opsel)
  | 0x12 => match ops with
    | [.int c] => .ok (.encFtoa c)
    | _ => .error (.operandTypes opsel)
  | 0x13 => match ops with
    | [.int v] => .ok (.decFtoa v)
    | _ => .error (.operandTypes opsel)
  | 0x14 => match ops with
    | [.int c] => .ok (.encTot c)
    | _ => .error (.operandTypes opsel)
  | 0x15 => match ops with
    | [.int v] => .ok (.decTot v)
    | _ => .error (.operandTypes opsel)
  | 0x16 => match ops with
    | [.int c] => .ok (.encItot c)
    | _ => .error (.operandTypes opsel)
  | 0x17 => match ops with
    | [.int v] => .ok (.decItot v)
    | _ => .error (.operandTypes opsel)
  | 0x18 => match ops with
    | [.int c] => .ok (.encPc10 c)
    | _ => .error (.operandTypes opsel)
  | 0x19 => match ops with
    | [.int v] => .ok (.decPc10 v)
    | _ => .error (.operandTypes opsel)
  | 0x1A => match ops with
    | [.int c] => .ok (.encPc4 c)
    | _ => .error (.operandTypes opsel)
  | 0x1B => match ops with
    | [.int v] => .ok (.decPc4 v)
    | _ => .error (.operandTypes opsel)
  | 0x20 => match ops with
    | [.rat t] => .ok (.t2toa t)
    | _ => .error (.operandTypes opsel)
  | 0x21 => match ops with
    | [.int toa] => .ok (.toa2t toa)
    | _ => .error (.operandTypes opsel)
  | 0x22 => match ops with
    | [.rat t] => .ok (.t2ftoa t)
    | _ => .error (.operandTypes opsel)
  | 0x23 => match ops with
    | [.int ftoa, .int toa] => .ok (.ftoa2t ftoa toa)
    | _ => .error (.operandTypes opsel)
  | 0x24 => match ops with
    | [.rat start, .rat stop] => .ok (.t2tot start stop)
    | _ => .error (.operandTypes opsel)
  | 0x25 => match ops with
    | [.int tot, .int toa, .optInt ftoa] => .ok (.tot2t tot toa ftoa)
    | _ => .error (.operandTypes opsel)
  | 0x26 => match ops with
    | [.rat start, .rat stop, .mode m] => .ok (.t2val start stop m)
    | _ => .error (.operandTypes opsel)
  | 0x30 => match ops with
    | [.int p, .mode m, .rat clock] => .ok (.deadtime p m clock)
    | _ => .error (.operandTypes opsel)
  | 0x31 => match ops with
    | [.mode m, .optRat fSys, .optRat fFine, .optRat epoch] => .ok (.acqStart m fSys fFine epoch)
    | _ => .error (.operandTypes opsel)
  | 0x32 => match ops with
    | [.int a, .rat start, .rat stop] => .ok (.accept a start stop)
    | _ => .error (.operandTypes opsel)
  | 0x33 => match ops with
    | [.mode m, .pulses ps] => .ok (.acceptSeq m ps)
    | _ => .error (.operandTypes opsel)
  | 0x40 => match ops with
    | [.int a, .int toa, .int sec, .int ftoa] => .ok (.pktAsm a toa sec ftoa)
    | _ => .error (.operandTypes opsel)
  | 0x41 => match ops with
    | [.int w] => .ok (.pktDis w)
    | _ => .error (.operandTypes opsel)
  | 0x42 => match ops with
    | [.int a, .rat start, .rat stop, .mode m] => .ok (.hitEnc a start stop m)
    | _ => .error (.operandTypes opsel)
  | 0x43 => match ops with
    | [.int w, .mode m, .bool wt, .bool wd] => .ok (.hitDec w m wt wd)
    | _ => .error (.operandTypes opsel)
  | 0x44 => match ops with
    | [.int w] => .ok (.pktSer w)
    | _ => .error (.operandTypes opsel)
  | 0x45 => match ops with
    | [.int b0, .int b1, .int b2, .int b3, .int b4, .int b5] => .ok (.pktDes b0 b1 b2 b3 b4 b5)
    | _ => .error (.operandTypes opsel)
  | 0x46 => match ops with
    | [.bytes bs] => .ok (.streamSplit bs)
    | _ => .error (.operandTypes opsel)
  | 0x50 => match ops with
    | [.hits hs, .mode m] => .ok (.encStream hs m)
    | _ => .error (.operandTypes opsel)
  | 0x51 => match ops with
    | [.bytes bs, .mode m, .bool wt, .bool wd] => .ok (.decStream bs m wt wd)
    | _ => .error (.operandTypes opsel)
  | _ => .error (.illegalOpsel opsel)

/-- A 48-bit packet (R71): the match pattern is `word[47:44] = 1010`; the fields are the slices of R72.
It has no operands beside its own bits. -/
def decodePacket (word : Nat) (ops : List Operand) : Except DecodeError Instr :=
  match ops with
  | [] =>
    if Machine.slice word 47 44 = 0b1010 then
      .ok (.pkt48 (BitVec.ofNat 16 (Machine.slice word 43 28)) (BitVec.ofNat 14 (Machine.slice word 27 14))
        (BitVec.ofNat 10 (Machine.slice word 13 4)) (BitVec.ofNat 4 (Machine.slice word 3 0)))
    else .error (.badHeader (Machine.slice word 47 44))
  | _ :: _ => .error (.operandTypes (BitVec.ofNat 8 (Machine.slice word 47 40)))

/-- The decoder: one byte is a selector, six bytes are a packet, big-endian (R55, R73, R80). -/
def decode (r : Request) : Except DecodeError Instr :=
  match r.code with
  | [b] => decodeOp b r.operands
  | [b0, b1, b2, b3, b4, b5] =>
      decodePacket (Machine.beNat [b0.toNat, b1.toNat, b2.toNat, b3.toNat, b4.toNat, b5.toNat]) r.operands
  | code => .error (.codeLength code.length)

/-- The 48 bits of a packet (R71): header, address, toa, secondary, ftoa from the most significant bit. -/
def packetWord (address toa secondary ftoa : Nat) : Nat :=
  (0b1010 <<< 44) ||| (address <<< 28) ||| (toa <<< 14) ||| (secondary <<< 4) ||| ftoa

/-- The encoder: the selector of R75 and the operands in R75's order; for PKT48 its six bytes (R55, R71). -/
def encode : Instr → Request
  | .addrEnc x y => ⟨[0x01#8], [.int x, .int y]⟩
  | .addrDec a => ⟨[0x02#8], [.int a]⟩
  | .lfsrStep r w t1 t2 t3 t4 => ⟨[0x08#8], [.int r, .int w, .taps t1 t2 t3 t4]⟩
  | .encToa c => ⟨[0x10#8], [.int c]⟩
  | .decToa v => ⟨[0x11#8], [.int v]⟩
  | .encFtoa c => ⟨[0x12#8], [.int c]⟩
  | .decFtoa v => ⟨[0x13#8], [.int v]⟩
  | .encTot c => ⟨[0x14#8], [.int c]⟩
  | .decTot v => ⟨[0x15#8], [.int v]⟩
  | .encItot c => ⟨[0x16#8], [.int c]⟩
  | .decItot v => ⟨[0x17#8], [.int v]⟩
  | .encPc10 c => ⟨[0x18#8], [.int c]⟩
  | .decPc10 v => ⟨[0x19#8], [.int v]⟩
  | .encPc4 c => ⟨[0x1A#8], [.int c]⟩
  | .decPc4 v => ⟨[0x1B#8], [.int v]⟩
  | .t2toa t => ⟨[0x20#8], [.rat t]⟩
  | .toa2t toa => ⟨[0x21#8], [.int toa]⟩
  | .t2ftoa t => ⟨[0x22#8], [.rat t]⟩
  | .ftoa2t ftoa toa => ⟨[0x23#8], [.int ftoa, .int toa]⟩
  | .t2tot start stop => ⟨[0x24#8], [.rat start, .rat stop]⟩
  | .tot2t tot toa ftoa => ⟨[0x25#8], [.int tot, .int toa, .optInt ftoa]⟩
  | .t2val start stop m => ⟨[0x26#8], [.rat start, .rat stop, .mode m]⟩
  | .deadtime p m clock => ⟨[0x30#8], [.int p, .mode m, .rat clock]⟩
  | .acqStart m fSys fFine epoch => ⟨[0x31#8], [.mode m, .optRat fSys, .optRat fFine, .optRat epoch]⟩
  | .accept a start stop => ⟨[0x32#8], [.int a, .rat start, .rat stop]⟩
  | .acceptSeq m ps => ⟨[0x33#8], [.mode m, .pulses ps]⟩
  | .pktAsm a toa sec ftoa => ⟨[0x40#8], [.int a, .int toa, .int sec, .int ftoa]⟩
  | .pktDis w => ⟨[0x41#8], [.int w]⟩
  | .hitEnc a start stop m => ⟨[0x42#8], [.int a, .rat start, .rat stop, .mode m]⟩
  | .hitDec w m wt wd => ⟨[0x43#8], [.int w, .mode m, .bool wt, .bool wd]⟩
  | .pktSer w => ⟨[0x44#8], [.int w]⟩
  | .pktDes b0 b1 b2 b3 b4 b5 => ⟨[0x45#8], [.int b0, .int b1, .int b2, .int b3, .int b4, .int b5]⟩
  | .streamSplit bs => ⟨[0x46#8], [.bytes bs]⟩
  | .encStream hs m => ⟨[0x50#8], [.hits hs, .mode m]⟩
  | .decStream bs m wt wd => ⟨[0x51#8], [.bytes bs, .mode m, .bool wt, .bool wd]⟩
  | .pkt48 a toa sec ftoa =>
      ⟨Machine.beBytes 6 (packetWord a.toNat toa.toNat sec.toNat ftoa.toNat), []⟩

/-- The operands of a selector when every one is zero: 0, 0 s, mode code `00`, false, the empty list, an
optional operand left out. A row of opcode_table.json gives operands no bits (log 12). -/
def zeroOperands (opsel : Byte) : List Operand :=
  match opsel.toNat with
  | 0x01 | 0x23 => [.int 0, .int 0]
  | 0x08 => [.int 0, .int 0, .taps 0 0 0 0]
  | 0x20 | 0x22 => [.rat 0]
  | 0x24 => [.rat 0, .rat 0]
  | 0x25 => [.int 0, .int 0, .optInt none]
  | 0x26 => [.rat 0, .rat 0, .mode 0]
  | 0x30 => [.int 0, .mode 0, .rat 0]
  | 0x31 => [.mode 0, .optRat none, .optRat none, .optRat none]
  | 0x32 => [.int 0, .rat 0, .rat 0]
  | 0x33 => [.mode 0, .pulses []]
  | 0x40 => [.int 0, .int 0, .int 0, .int 0]
  | 0x42 => [.int 0, .rat 0, .rat 0, .mode 0]
  | 0x43 => [.int 0, .mode 0, .bool false, .bool false]
  | 0x45 => [.int 0, .int 0, .int 0, .int 0, .int 0, .int 0]
  | 0x46 => [.bytes []]
  | 0x50 => [.hits [], .mode 0]
  | 0x51 => [.bytes [], .mode 0, .bool false, .bool false]
  | _ => [.int 0]

/-- The presentation of `nbits` bits `w` of opcode_table.json: the word as whole bytes, most significant
first (R55: a selector is one byte, a packet six), with zero operands where the code is a selector. -/
def requestOfWord (nbits w : Nat) : Request :=
  let code := Machine.beBytes ((nbits + 7) / 8) w
  match code with
  | [b] => ⟨code, zeroOperands b⟩
  | _ => ⟨code, []⟩

/-- The operation the decoder reads from an instruction whose bits are `w`. -/
def decodeTableWord (nbits w : Nat) : Option Instr :=
  (decode (requestOfWord nbits w)).toOption

end Sys2Proof
end

