-- ==== Sys2Proof/Machine/State.lean ====
section
/-! DEFINITION. The state of the block as plain data: `CFG` (10_state.md R22), `PIX` (R30), the open
parameters of `KIND` and of 00_scope.md R8, the output byte stream (20_memory.md R50), and the model's own
host port (what is presented, what was returned). Also the results and errors an operation gives back, the
faults and refusals, and the state after reset (70_reset_and_hazards.md R260). -/

namespace Sys2Proof.Machine

/-- The operating modes (R23). -/
inductive Mode where
  | toaAndTot
  | toaOnly
  | tick3
  deriving DecidableEq, Repr

/-- The outcome of a pulse (R31, R183, D33). -/
inductive Verdict where
  | accept
  | rejectWidth
  | rejectDead
  deriving DecidableEq, Repr

/-- The three error kinds of R240. -/
inductive ErrorKind where
  | rangeError
  | malformedFileError
  | ambiguousDecodeError
  deriving DecidableEq, Repr

/-- The operand a `RangeError` names (R240, R241; log 11). -/
inductive OperandName where
  | opsel | x | y | address | register | width | taps | count | value
  | t | start | stop | toa | ftoa | secondary | tot | word | header
  | byte (j : Nat)
  | mode | previousTot | clock | fSys | fFine
  | itotParams | pc4bParams
  deriving DecidableEq, Repr

/-- The value a `RangeError` records (R240). -/
inductive InfoValue where
  | int (v : Int)
  | rat (q : Rat)
  | code (c : ModeCode)
  | opsel (b : Byte)
  | taps (t1 t2 t3 t4 : Int)
  | unset
  deriving DecidableEq, Repr

/-- A hard error, with the record R240 gives it. -/
inductive HardError where
  | range (operand : OperandName) (value : InfoValue)
  | malformedFile (length : Nat)
  deriving DecidableEq, Repr

/-- A record of `HIT_DEC` and `DEC_STREAM` (R203): `start` and `stop` are `none` unless asked for, and `stop`
is `none` in `ToaOnly`. -/
structure HitRecord where
  x : Nat
  y : Nat
  toa : Nat
  secondary : Nat
  ftoa : Nat
  start : Option Rat
  stop : Option Rat
  ambiguous : Bool
  deriving DecidableEq, Repr

/-- What an operation returns to the host (R75's result column), or its hard error (R244). `nothing` is what
the host reads before any operation has run. -/
inductive Result where
  | nothing
  | done
  | address (a : Nat)
  | coordinate (x y : Nat)
  | value (v : Nat)
  | counted (count : Nat) (ambiguous : Bool)
  | seconds (t : Rat)
  | interval (start stop : Rat) (ambiguous : Bool)
  | timeFields (toa ftoa tot : Nat)
  | verdict (v : Verdict)
  | verdicts (vs : List Verdict)
  | packet (address toa secondary ftoa : Nat)
  | word (w : Nat)
  | words (ws : List Nat)
  | bytes (bs : List Byte)
  | hit (r : HitRecord)
  | hits (rs : List HitRecord)
  | error (e : HardError)
  deriving DecidableEq, Repr

/-- `CFG` (R22). -/
structure Cfg where
  mode : Option Mode
  fSys : Rat
  fFine : Rat
  epoch : Rat
  deriving DecidableEq, Repr

/-- `PIX[a]` (R30). -/
structure PixRec where
  prevTot : Nat
  prevEnd : Rat
  hasPrev : Bool
  lastStart : Option Rat
  deriving DecidableEq, Repr

/-- The initial record of a pixel (R30, R260). -/
def PixRec.init : PixRec := { prevTot := 0, prevEnd := 0, hasPrev := false, lastStart := none }

/-- The configuration after reset (R22, R260). -/
def Cfg.init : Cfg := { mode := none, fSys := 40000000, fFine := 640000000, epoch := 0 }

/-- A byte space: (offset, byte) pairs, offsets strictly rising; an unlisted offset holds no byte. -/
abbrev Memory := List Host.Cell

/-- `PIX`: (address, record) pairs, addresses strictly rising, no record equal to the initial one, which is
what an unlisted address reads as (log 13). -/
abbrev PixSpace := List (Nat × PixRec)

/-- The state of the block. `cfg`, `pix` and `par` are the spec's (R20, R22, R27, R30, R8); `stream` is the
output byte stream (R50; log 4); `pending` and `result` are the model's own host port (log 1, log 2). -/
structure State where
  cfg : Cfg
  pix : PixSpace
  par : Params
  stream : Memory
  pending : List Request
  result : Result
  deriving DecidableEq, Repr

/-- The state after reset (R260), with the spec's choices and no OPEN parameter supplied (R262). An instance
that is given parameters starts from `State.resetWith` of Instance.lean. -/
def State.reset : State :=
  { cfg := Cfg.init, pix := [], par := Params.specChoice, stream := [], pending := [], result := .nothing }

/-- Why the machine stops with a fault (log 7). Both name a presentation that is no operation of the spec: the host
presents `OPSEL` and typed operands (R70), or a 48-bit packet (R71). Safe: the spec gives neither a meaning. -/
inductive Fault where
  /-- Raised by `step` for a code that is neither one byte (R73) nor six (R80). Safe: no such code exists. -/
  | codeLength (bytes : Nat)
  /-- Raised by `step` for a legal selector presented with operands of the wrong number or types (R76).
  Safe: the spec's operands are typed. -/
  | operandTypes (opsel : Byte)
  deriving DecidableEq, Repr

/-- Why the machine refuses an instruction. -/
inductive Refusal where
  /-- Raised by an arm of `exec` for an instruction that has no meaning yet. Safe. No arm raises it. -/
  | notModelled (mnemonic : String)
  deriving DecidableEq, Repr

end Sys2Proof.Machine
end

