-- ==== Sys2Proof/Machine/Flags.lean ====
section
/-! DEFINITION. The indications a result carries (10_state.md R31): the soft ambiguity mark of an LFSR decode
(60_exceptions.md R242) and the labels of the error kinds (R240). None of them is stored state. -/

namespace Sys2Proof.Machine

/-- A decoded count with its ambiguity mark (R114). -/
structure Decoded where
  count : Nat
  ambiguous : Bool
  deriving DecidableEq, Repr

/-- A decode search that found its value at step index `i` (R114). -/
def Decoded.found (i : Nat) : Decoded := { count := i, ambiguous := false }

/-- `flag Ambiguous`: count 0, marked (R114, R242). -/
def Decoded.unmatched : Decoded := { count := 0, ambiguous := true }

/-- The label of an error kind (R240, D30). -/
def ErrorKind.label : ErrorKind → Nat
  | .rangeError => 1
  | .malformedFileError => 2
  | .ambiguousDecodeError => 3

/-- The kind of a hard error (R240). -/
def HardError.kind : HardError → ErrorKind
  | .range _ _ => .rangeError
  | .malformedFile _ => .malformedFileError

/-- Whether a result carries the `Ambiguous` mark (R242): the LFSR decodes, `TOT2T`, `HIT_DEC`, and any record
of `DEC_STREAM`. -/
def Result.ambiguous : Result → Bool
  | .counted _ a => a
  | .interval _ _ a => a
  | .hit r => r.ambiguous
  | .hits rs => rs.any (·.ambiguous)
  | _ => false

/-- The error kind the host sees with a result, hard or soft (R240). -/
def Result.errorKind (r : Result) : Option ErrorKind :=
  match r with
  | .error e => some e.kind
  | r => if r.ambiguous then some .ambiguousDecodeError else none

end Sys2Proof.Machine
end

