-- ==== Sys2Proof/Machine/Ops.lean ====
section
/-! DEFINITION. The named operations over the state: reading and writing the pixel space and the byte stream
(20_memory.md R50, 00_scope.md R14), completing an operation with a result, and raising a hard error, which
is this block's one exception (60_exceptions.md R244; there is no return from it, R246). -/

namespace Sys2Proof.Machine

/-- The entry at `a` of a list of (address, value) pairs. -/
def lookupAt {α : Type} (a : Nat) : List (Nat × α) → Option α
  | [] => none
  | (b, v) :: rest => if a = b then some v else lookupAt a rest

/-- The entry that `v` makes at `a`: none for `none`. -/
def entryAt {α : Type} (a : Nat) : Option α → List (Nat × α)
  | none => []
  | some y => [(a, y)]

/-- The list with the entry at `a` set to `v`, or removed for `none`, addresses kept rising. -/
def putAt {α : Type} (a : Nat) (v : Option α) : List (Nat × α) → List (Nat × α)
  | [] => entryAt a v
  | (b, w) :: rest =>
    if a < b then entryAt a v ++ (b, w) :: rest
    else if a = b then entryAt a v ++ rest
    else (b, w) :: putAt a v rest

/-- Addresses strictly rising: the canonical order of a sparse space. -/
abbrev Rising {α : Type} (l : List (Nat × α)) : Prop := l.Pairwise fun p q => p.1 < q.1

/-- The canonical form of a byte space. -/
abbrev Memory.wf (m : Memory) : Prop := Rising m

/-- The byte at an offset of a byte space: `none` past the end of the stream, where there is no byte. -/
def Memory.read (m : Memory) (off : Nat) : Option Byte := lookupAt off m

/-- One byte written. -/
def Memory.write (m : Memory) (off : Nat) (b : Byte) : Memory := putAt off (some b) m

/-- Bytes written at rising offsets. -/
def Memory.writeBytes (m : Memory) (off : Nat) : List Byte → Memory
  | [] => m
  | b :: bs => Memory.writeBytes (m.write off b) (off + 1) bs

/-- `MemWrite(off, n, v)`: the `n`-byte big-endian image of `v` at offset `off` (R14, R55). -/
def memWrite (m : Memory) (off n v : Nat) : Memory := m.writeBytes off (beBytes n v)

/-- `MemRead(off, n)` on an input stream (R14). -/
def memRead (bs : List Int) (off n : Nat) : List Int := (bs.drop off).take n

/-- The stream whose record `i` is the `i`-th word, from record `i` on (R54, R55). -/
def writeRecords (m : Memory) (i : Nat) : List Nat → Memory
  | [] => m
  | w :: ws => writeRecords (memWrite m (6 * i) 6 w) (i + 1) ws

/-- The canonical form of the pixel space: addresses rising and below 65536 (R51), no initial record. -/
abbrev PixSpace.wf (p : PixSpace) : Prop :=
  Rising p ∧ ∀ e ∈ p, e.1 < 65536 ∧ e.2 ≠ PixRec.init

/-- `PIX[a]`: an unlisted pixel reads as the initial record (R30). -/
def PixSpace.read (p : PixSpace) (a : Nat) : PixRec := (lookupAt a p).getD PixRec.init

/-- `PIX[a] <- r`. -/
def PixSpace.write (p : PixSpace) (a : Nat) (r : PixRec) : PixSpace :=
  putAt a (if r = PixRec.init then none else some r) p

/-- The end of an operation that returns `r` (R15 `return`). -/
def State.give (r : Result) (s : State) : State := { s with result := r }

/-- Taking a hard error (R15 `raise`, R244): the error goes back to the host and nothing else is written. The
host may present any operation next (R246). -/
def State.raise (e : HardError) (s : State) : State := { s with result := .error e }

/-- The end of an operation that writes no state: its result, or its hard error (R244). -/
def complete (r : Except HardError Result) (s : State) : Host.Outcome State Fault Refusal :=
  match r with
  | .ok v => .next (s.give v)
  | .error e => .next (s.raise e)

/-- The end of an operation that emits a byte stream (R204, R220): the words are returned as bytes and become
the output stream, record `i` at offset `6i` (R54, R55; log 4). -/
def State.emit (words : List Nat) (s : State) : State :=
  { s with stream := writeRecords [] 0 words, result := .bytes (words.flatMap (beBytes 6)) }

/-- The end of an operation that emits a byte stream, or its hard error, with no bytes emitted (R244). -/
def completeEmit (r : Except HardError (List Nat)) (s : State) : Host.Outcome State Fault Refusal :=
  match r with
  | .ok ws => .next (s.emit ws)
  | .error e => .next (s.raise e)

/-- `CFG` written whole and every pixel reset (R181). -/
def State.startAcquisition (c : Cfg) (s : State) : State := { s with cfg := c, pix := [], result := .done }

/-- `PIX[a] <- r` and the outcome returned (R184). -/
def State.recordPulse (a : Nat) (r : PixRec) (v : Verdict) (s : State) : State :=
  { s with pix := s.pix.write a r, result := .verdict v }

/-- A function over a list that stops at the first error, in list order (R245). -/
def mapUntilError {α β : Type} (f : α → Except HardError β) : List α → Except HardError (List β)
  | [] => .ok []
  | a :: as =>
    match f a with
    | .error e => .error e
    | .ok b =>
      match mapUntilError f as with
      | .error e => .error e
      | .ok bs => .ok (b :: bs)

end Sys2Proof.Machine
end

