-- ==== Sys2Proof/Machine/Operands.lean ====
section
/-! DEFINITION. The operand domains of 30_encoding.md R76 as checks that raise `RangeError` with the operand's
name and value (R240, R241, D3), and the mode codes of 10_state.md R23 and R24. -/

namespace Sys2Proof.Machine

/-- A natural-number operand with no upper bound (R76); a negative integer is refused (D3). -/
def checkNat (n : OperandName) (v : Int) : Except HardError Nat :=
  if v < 0 then .error (.range n (.int v)) else .ok v.toNat

/-- A natural-number operand of at most `hi` (R76). -/
def checkMax (n : OperandName) (hi : Nat) (v : Int) : Except HardError Nat :=
  if v < 0 ∨ (hi : Int) < v then .error (.range n (.int v)) else .ok v.toNat

/-- The mode of a 2-bit code; `0b11` is reserved (R23, D9). -/
def modeOfCode (c : ModeCode) : Option Mode :=
  match c.toNat with
  | 0 => some .toaAndTot
  | 1 => some .toaOnly
  | 2 => some .tick3
  | _ => none

/-- Modes that `DEADTIME`, `ACQ_START`, `ACCEPT` and `ACCEPT_SEQ` admit (R24). -/
def admitsAny : Mode → Bool
  | .toaAndTot => true
  | .toaOnly => true
  | .tick3 => true

/-- Modes that `T2VAL`, `HIT_ENC`, `HIT_DEC`, `ENC_STREAM` and `DEC_STREAM` admit (R24). -/
def admitsPacket : Mode → Bool
  | .toaAndTot => true
  | .toaOnly => true
  | .tick3 => false

/-- The mode operand, checked against the operation's admitted set (R24, R77). -/
def checkMode (admits : Mode → Bool) (c : ModeCode) : Except HardError Mode :=
  match modeOfCode c with
  | some m => if admits m then .ok m else .error (.range .mode (.code c))
  | none => .error (.range .mode (.code c))

/-- A time operand is not before the epoch (R150, D11). -/
def checkTime (cfg : Cfg) (n : OperandName) (t : Rat) : Except HardError Unit :=
  if t < cfg.epoch then .error (.range n (.rat t)) else .ok ()

/-- A pulse: `start` not before the epoch, then `stop` not before `start` (R150, D11). -/
def checkPulse (cfg : Cfg) (start stop : Rat) : Except HardError Unit :=
  match checkTime cfg .start start with
  | .error e => .error e
  | .ok _ => if stop < start then .error (.range .stop (.rat stop)) else .ok ()

/-- A clock operand is positive (R76, D22, D29). -/
def checkClock (n : OperandName) (q : Rat) : Except HardError Unit :=
  if q ≤ 0 then .error (.range n (.rat q)) else .ok ()

end Sys2Proof.Machine
end

