-- ==== Sys2Proof/Machine/Codec.lean ====
section
/-! DEFINITION. The codec functions of 41_counters.md section 1 and the counter-kind table of 10_state.md R27. -/

namespace Sys2Proof.Machine

/-- A tap tuple (R28). -/
structure Taps where
  t1 : Nat
  t2 : Nat
  t3 : Nat
  t4 : Nat
  deriving DecidableEq, Repr

/-- The taps used: four when the third and fourth are both non-zero, else the first two (R28, R110). -/
def Taps.used (t : Taps) : List Nat :=
  if t.t3 ≠ 0 ∧ t.t4 ≠ 0 then [t.t1, t.t2, t.t3, t.t4] else [t.t1, t.t2]

/-- The feedback bit: the XOR of the used tap bits, read before the shift (R110). -/
def feedback (r : Nat) (t : Taps) : Nat := (t.used.map (bitAt r)).foldl (· ^^^ ·) 0

/-- `step(r, w, taps)` of R110: shift left by one within `w` bits and insert the feedback bit. -/
def lfsrNext (w : Nat) (t : Taps) (r : Nat) : Nat := ((r <<< 1) &&& (2 ^ w - 1)) ||| feedback r t

/-- The parameters of an LFSR kind (R27). -/
structure LfsrSpec where
  width : Nat
  taps : Taps
  ovf : Bool
  ovv : Nat
  deriving DecidableEq, Repr

/-- `seed = 2^w - 1` (R27). -/
def LfsrSpec.seed (k : LfsrSpec) : Nat := 2 ^ k.width - 1

/-- `lfsr_enc(count, k)` (R112). -/
def lfsrEnc (k : LfsrSpec) (count : Nat) : Nat :=
  if k.ovf ∧ k.seed - 1 ≤ count then k.ovv
  else (lfsrNext k.width k.taps)^[count] k.seed

/-- The search of R114: compare the register at step index `i`, then step, at most `fuel` times. -/
def lfsrSearch (k : LfsrSpec) (value : Nat) : (fuel i r : Nat) → Decoded
  | 0, _, _ => Decoded.unmatched
  | fuel + 1, i, r =>
    if r = value then Decoded.found i else lfsrSearch k value fuel (i + 1) (lfsrNext k.width k.taps r)

/-- `lfsr_dec(value, k)` for a value of `k`'s width (R114): the overflow test first, then the search. -/
def lfsrDec (k : LfsrSpec) (value : Nat) : Decoded :=
  if k.ovf ∧ value = k.ovv then Decoded.found (k.seed - 1) else lfsrSearch k value k.seed 0 k.seed

/-- `bin2gray` (R116). -/
def bin2gray (n : Nat) : Nat := n ^^^ (n >>> 1)

/-- The loop of R117: XOR each right shift of `g` into the result until nothing is left to shift. -/
def grayLoop : (fuel b s : Nat) → Nat
  | 0, b, _ => b
  | fuel + 1, b, s => if s = 0 then b else grayLoop fuel (b ^^^ s) (s >>> 1)

/-- `gray2bin` on 14 bits (R117); 14 rounds empty any 14-bit shift. -/
def gray2bin (g : Nat) : Nat := grayLoop 14 g (g >>> 1)

/-- `sat_enc` (R118). -/
def satEnc (n : Nat) : Nat := min n 15

/-- `sat_dec` (R118). -/
def satDec (v : Nat) : Nat := v

/-- The counter kinds (R27). -/
inductive Kind where
  | toa
  | ftoa
  | tot
  | itot
  | pc10b
  | pc4b
  deriving DecidableEq, Repr

/-- The 3-bit code of a kind (R27, D9). -/
def Kind.code : Kind → Nat
  | .toa => 0b000
  | .ftoa => 0b001
  | .tot => 0b010
  | .itot => 0b011
  | .pc10b => 0b100
  | .pc4b => 0b101

/-- The codec classes (R27). -/
inductive Codec where
  | gray
  | saturating
  | lfsr (k : LfsrSpec)
  deriving DecidableEq, Repr

/-- The ToT parameters: width 10, taps 6 and 9, overflow on, value `0b0111111111` (R27). -/
def totSpec : LfsrSpec := { width := 10, taps := ⟨6, 9, 0, 0⟩, ovf := true, ovv := 0b0111111111 }

/-- PC10b shares all of ToT's LFSR parameters (R27, D6). -/
def pc10Spec : LfsrSpec := totSpec

/-- The parameters an instance supplied for an OPEN kind (R27, R29). -/
def openSpec {w : Nat} (p : LfsrParams w) : LfsrSpec :=
  { width := w, taps := ⟨p.t1.val, p.t2.val, p.t3.val, p.t4.val⟩, ovf := p.ovf, ovv := p.ovv.toNat }

/-- `KIND[k].width` (R27). -/
def kindWidth : Kind → Nat
  | .toa => 14
  | .ftoa => 4
  | .tot => 10
  | .itot => 14
  | .pc10b => 10
  | .pc4b => 4

/-- The table `KIND` (R27): the codec of a kind. An OPEN kind whose parameters were not supplied raises
`RangeError` (R262, D4, D5), naming the missing parameters (log 9, log 11). -/
def kindTable (p : Params) : Kind → Except HardError Codec
  | .toa => .ok .gray
  | .ftoa => .ok .saturating
  | .tot => .ok (.lfsr totSpec)
  | .itot => match p.itot with
    | some q => .ok (.lfsr (openSpec q))
    | none => .error (.range .itotParams .unset)
  | .pc10b => .ok (.lfsr pc10Spec)
  | .pc4b => match p.pc4b with
    | some q => .ok (.lfsr (openSpec q))
    | none => .error (.range .pc4bParams .unset)

/-- The encode function of a class (R119). -/
def Codec.encode : Codec → Nat → Nat
  | .gray, n => bin2gray n
  | .saturating, n => satEnc n
  | .lfsr k, n => lfsrEnc k n

/-- The decode function of a class, of a value of the kind's width (R119). -/
def Codec.decode : Codec → Nat → Decoded
  | .gray, v => Decoded.found (gray2bin v)
  | .saturating, v => Decoded.found (satDec v)
  | .lfsr k, v => lfsrDec k v

/-- The domain of `count` (R76): 14 bits for ToA (D31), any natural for the other kinds. -/
def checkCount (k : Kind) (count : Int) : Except HardError Nat :=
  match k with
  | .toa => checkMax .count (2 ^ kindWidth .toa - 1) count
  | .ftoa => checkNat .count count
  | .tot => checkNat .count count
  | .itot => checkNat .count count
  | .pc10b => checkNat .count count
  | .pc4b => checkNat .count count

/-- The domain of `value` (R76): below `2^w` for a kind of width `w`, whatever its parameters (R27, D3). -/
def checkValue (k : Kind) (value : Int) : Except HardError Nat := checkMax .value (2 ^ kindWidth k - 1) value

/-- `encode(value, kind)` (R119): the operand's domain (R76) before the parameters of an OPEN kind (log 19). -/
def encodeKind (p : Params) (k : Kind) (count : Int) : Except HardError Nat := do
  let n ← checkCount k count
  let c ← kindTable p k
  return c.encode n

/-- `decode(value, kind)` (R119): the operand's domain (R76, R114) before the parameters of an OPEN kind
(log 19). -/
def decodeKind (p : Params) (k : Kind) (value : Int) : Except HardError Decoded := do
  let v ← checkValue k value
  let c ← kindTable p k
  return c.decode v

end Sys2Proof.Machine
end

