-- ==== Sys2Proof/Machine/Time.lean ====
section
/-! DEFINITION. The time quantiser (42_time.md): conversions between seconds and the three encoded timing
fields, under the clocks and epoch of `CFG`. Times are exact rationals (D2). -/

namespace Sys2Proof.Machine

/-- `T_sys` (R25, R150). -/
def Cfg.tSys (cfg : Cfg) : Rat := 1 / cfg.fSys

/-- `T_fine` (R25, R150). -/
def Cfg.tFine (cfg : Cfg) : Rat := 1 / cfg.fFine

/-- `q(t) = (t - epoch) * f_sys`: the position of `t` in ticks (R150). -/
def Cfg.ticks (cfg : Cfg) (t : Rat) : Rat := (t - cfg.epoch) * cfg.fSys

/-- The ToA tick count of a time: `ceil(q)` (R151; log 18). -/
def toaTicks (cfg : Cfg) (t : Rat) : Nat := ⌈cfg.ticks t⌉₊

/-- The ToT tick count of a pulse: the difference of the floors (R155; log 18). -/
def totTicks (cfg : Cfg) (start stop : Rat) : Nat := ⌊cfg.ticks stop⌋₊ - ⌊cfg.ticks start⌋₊

/-- The system edge that follows the latest edge at or before `t` (R153). -/
def nextEdge (cfg : Cfg) (t : Rat) : Rat := cfg.epoch + ((⌊cfg.ticks t⌋₊ : Rat) + 1) * cfg.tSys

/-- The fine ticks from `t` to the next system edge, rounded by `FTOA_COUNT` (R153, D10). -/
def fineTicks (cfg : Cfg) (r : FineRounding) (t : Rat) : Nat :=
  let d := (nextEdge cfg t - t) * cfg.fFine
  match r with
  | .floor => ⌊d⌋₊
  | .ceil => ⌈d⌉₊

/-- `time_to_toa` with its checks (R151): the epoch first, then the 14-bit span (D31). -/
def timeToToa (cfg : Cfg) (n : OperandName) (t : Rat) : Except HardError Nat := do
  checkTime cfg n t
  let ticks := toaTicks cfg t
  if 16383 < ticks then .error (.range .t (.rat t)) else .ok (bin2gray ticks)

/-- `time_to_ftoa` of a time not before the epoch (R153). -/
def ftoaOf (cfg : Cfg) (r : FineRounding) (t : Rat) : Nat := satEnc (fineTicks cfg r t)

/-- `time_to_tot` of a pulse in the time domain (R155). -/
def totOf (cfg : Cfg) (start stop : Rat) : Nat := lfsrEnc totSpec (totTicks cfg start stop)

/-- `toa_to_time` of a 14-bit Gray value (R152). -/
def toaTime (cfg : Cfg) (toa : Nat) : Rat := (gray2bin toa : Rat) * cfg.tSys + cfg.epoch

/-- `ftoa_and_toa_to_time` of field values (R154). -/
def ftoaTime (cfg : Cfg) (ftoa toa : Nat) : Rat := toaTime cfg toa - (satDec ftoa : Rat) * cfg.tFine

/-- The secondary field a time conversion computes: ToT in `ToaAndTot`, 0 otherwise (R157). -/
def totInMode (cfg : Cfg) (mode : Mode) (start stop : Rat) : Nat :=
  if mode = .toaAndTot then totOf cfg start stop else 0

/-- `time_to_values` after the mode check (R157): the pulse's checks, then the ToA span. -/
def timeToValues (cfg : Cfg) (r : FineRounding) (mode : Mode) (start stop : Rat) :
    Except HardError (Nat × Nat × Nat) := do
  checkPulse cfg start stop
  let toa ← timeToToa cfg .start start
  return (toa, ftoaOf cfg r start, totInMode cfg mode start stop)

/-- T2TOA (R151). -/
def execT2toa (t : Rat) (s : State) : Host.Outcome State Fault Refusal :=
  complete (do return .value (← timeToToa s.cfg .t t)) s

/-- TOA2T (R152). -/
def execToa2t (toa : Int) (s : State) : Host.Outcome State Fault Refusal :=
  complete (do
    let g ← checkMax .toa 16383 toa
    return .seconds (toaTime s.cfg g)) s

/-- T2FTOA (R153). -/
def execT2ftoa (t : Rat) (s : State) : Host.Outcome State Fault Refusal :=
  complete (do
    checkTime s.cfg .t t
    return .value (ftoaOf s.cfg s.par.ftoaCount t)) s

/-- FTOA2T (R154). -/
def execFtoa2t (ftoa toa : Int) (s : State) : Host.Outcome State Fault Refusal :=
  complete (do
    let f ← checkMax .ftoa 15 ftoa
    let g ← checkMax .toa 16383 toa
    return .seconds (ftoaTime s.cfg f g)) s

/-- T2TOT (R155). -/
def execT2tot (start stop : Rat) (s : State) : Host.Outcome State Fault Refusal :=
  complete (do
    checkPulse s.cfg start stop
    return .value (totOf s.cfg start stop)) s

/-- An optional 4-bit fToA operand (R156). -/
def checkFtoaOpt : Option Int → Except HardError (Option Nat)
  | none => .ok none
  | some f => (checkMax .ftoa 15 f).map some

/-- The start a ToA and an optional fToA give back: the fToA counts only if supplied and non-zero (R156). -/
def startOf (cfg : Cfg) (ftoa : Option Nat) (toa : Nat) : Rat :=
  match ftoa with
  | none => toaTime cfg toa
  | some f => if f ≠ 0 then ftoaTime cfg f toa else toaTime cfg toa

/-- TOT2T (R156). -/
def execTot2t (tot toa : Int) (ftoa : Option Int) (s : State) : Host.Outcome State Fault Refusal :=
  complete (do
    let v ← checkMax .tot 1023 tot
    let g ← checkMax .toa 16383 toa
    let f ← checkFtoaOpt ftoa
    let d := lfsrDec totSpec v
    let start := startOf s.cfg f g
    return .interval start (start + (d.count : Rat) / s.cfg.fSys) d.ambiguous) s

/-- T2VAL (R157). -/
def execT2val (start stop : Rat) (mode : ModeCode) (s : State) : Host.Outcome State Fault Refusal :=
  complete (do
    let m ← checkMode admitsPacket mode
    let v ← timeToValues s.cfg s.par.ftoaCount m start stop
    return .timeFields v.1 v.2.1 v.2.2) s

end Sys2Proof.Machine
end

