-- ==== Sys2Proof/Machine/Acceptor.lean ====
section
/-! DEFINITION. The hit dead-time acceptor (43_acceptor.md): the dead-time formula, the acceptor step, and the
operations `DEADTIME`, `ACQ_START`, `ACCEPT` and `ACCEPT_SEQ`. -/

namespace Sys2Proof.Machine

/-- The dead time in seconds after a pulse of `prevTot` ticks (R180). -/
def deadTime (prevTot : Nat) (mode : Mode) (clock : Rat) : Rat :=
  match mode with
  | .toaAndTot => (19 + (prevTot : Rat)) / clock
  | .toaOnly => 19 / clock
  | .tick3 => (3 + (prevTot : Rat)) / clock

/-- `acc_tot(start, stop)`: the tick count after its ToT round trip (R182). -/
def accTot (cfg : Cfg) (start stop : Rat) : Nat := (lfsrDec totSpec (totOf cfg start stop)).count

/-- `accept_step(s, mode, start, stop)` (R183): the width test, the dead-time test, then acceptance. -/
def acceptStep (cfg : Cfg) (mode : Mode) (p : PixRec) (start stop : Rat) : PixRec × Verdict :=
  let tot := accTot cfg start stop
  if tot < 1 then ({ p with lastStart := some start }, .rejectWidth)
  else if p.hasPrev ∧ start - p.prevEnd < deadTime p.prevTot mode cfg.fSys then
    ({ p with lastStart := some start }, .rejectDead)
  else ({ prevTot := tot, prevEnd := stop, hasPrev := true, lastStart := some start }, .accept)

/-- A start is not earlier than the last start presented to the pixel (R184, R185, D12). -/
def checkOrder (p : PixRec) (start : Rat) : Except HardError Unit :=
  match p.lastStart with
  | none => .ok ()
  | some ls => if start < ls then .error (.range .start (.rat start)) else .ok ()

/-- One pulse presented to a pixel: its time domain, its order, then the acceptor step (R184, R185). -/
def presentPulse (cfg : Cfg) (mode : Mode) (p : PixRec) (start stop : Rat) :
    Except HardError (PixRec × Verdict) := do
  checkPulse cfg start stop
  checkOrder p start
  return acceptStep cfg mode p start stop

/-- The fold of the acceptor over one pixel's pulses, from the record `p` (R185). -/
def acceptFold (cfg : Cfg) (mode : Mode) : PixRec → List Pulse → Except HardError (List Verdict)
  | _, [] => .ok []
  | p, q :: qs =>
    match presentPulse cfg mode p q.start q.stop with
    | .error e => .error e
    | .ok (p', v) =>
      match acceptFold cfg mode p' qs with
      | .error e => .error e
      | .ok vs => .ok (v :: vs)

/-- DEADTIME (R180): the mode, then `previous_tot`, then the clock (log 20). -/
def execDeadtime (previousTot : Int) (mode : ModeCode) (clock : Rat) (s : State) :
    Host.Outcome State Fault Refusal :=
  complete (do
    let m ← checkMode admitsAny mode
    let p ← checkNat .previousTot previousTot
    checkClock .clock clock
    return .seconds (deadTime p m clock)) s

/-- The configuration an `ACQ_START` writes (R181): an omitted operand takes its default (D22). -/
def acqConfig (mode : ModeCode) (fSys fFine epoch : Option Rat) : Except HardError Cfg := do
  let m ← checkMode admitsAny mode
  checkClock .fSys (fSys.getD 40000000)
  checkClock .fFine (fFine.getD 640000000)
  return { mode := some m, fSys := fSys.getD 40000000, fFine := fFine.getD 640000000, epoch := epoch.getD 0 }

/-- ACQ_START (R181): `CFG` is written and every pixel reset, or nothing is written. -/
def execAcqStart (mode : ModeCode) (fSys fFine epoch : Option Rat) (s : State) :
    Host.Outcome State Fault Refusal :=
  match acqConfig mode fSys fFine epoch with
  | .error e => .next (s.raise e)
  | .ok c => .next (s.startAcquisition c)

/-- The mode of the acquisition in progress (R184, D21). -/
def acqMode (cfg : Cfg) : Except HardError Mode :=
  match cfg.mode with
  | none => .error (.range .mode .unset)
  | some m => .ok m

/-- What an `ACCEPT` computes: the pixel, its new record and the outcome (R184). -/
def acceptPulse (cfg : Cfg) (pix : PixSpace) (address : Int) (start stop : Rat) :
    Except HardError (Nat × PixRec × Verdict) := do
  let m ← acqMode cfg
  let a ← checkMax .address 65535 address
  let r ← presentPulse cfg m (pix.read a) start stop
  return (a, r.1, r.2)

/-- ACCEPT (R184). -/
def execAccept (address : Int) (start stop : Rat) (s : State) : Host.Outcome State Fault Refusal :=
  match acceptPulse s.cfg s.pix address start stop with
  | .error e => .next (s.raise e)
  | .ok (a, r, v) => .next (s.recordPulse a r v)

/-- ACCEPT_SEQ (R185): a fold on private state. -/
def execAcceptSeq (mode : ModeCode) (pulses : List Pulse) (s : State) : Host.Outcome State Fault Refusal :=
  complete (do
    let m ← checkMode admitsAny mode
    return .verdicts (← acceptFold s.cfg m PixRec.init pulses)) s

end Sys2Proof.Machine
end

