-- ==== Sys2Proof/Machine/Address.lean ====
section
/-! DEFINITION. The pixel-address bijection encoder (40_address.md): `ADDR_ENC` and `ADDR_DEC`. -/

namespace Sys2Proof.Machine

/-- The address of an on-grid coordinate (R52, R100). -/
def addressOf (x y : Nat) : Nat :=
  let eoc := x / 2
  let supr := y / 4
  let pix := y % 4 + 4 * (x % 2)
  (eoc <<< 9) ||| (supr <<< 3) ||| pix

/-- The coordinate of a 16-bit address (R52, R101). -/
def coordinateOf (a : Nat) : Nat × Nat :=
  let eoc := slice a 15 9
  let supr := slice a 8 3
  let pix := slice a 2 0
  (2 * eoc + pix / 4, 4 * supr + pix % 4)

/-- `to_address(x, y)` with its checks, `x` before `y` (R100, D18). -/
def toAddress (x y : Int) : Except HardError Nat := do
  let x ← checkMax .x 255 x
  let y ← checkMax .y 255 y
  return addressOf x y

/-- ADDR_ENC (R100). -/
def execAddrEnc (x y : Int) (s : State) : Host.Outcome State Fault Refusal :=
  complete (do return .address (← toAddress x y)) s

/-- ADDR_DEC (R101). -/
def execAddrDec (address : Int) (s : State) : Host.Outcome State Fault Refusal :=
  complete (do
    let a ← checkMax .address 65535 address
    return .coordinate (coordinateOf a).1 (coordinateOf a).2) s

end Sys2Proof.Machine
end

