-- ==== Sys2Proof/Machine/Counter.lean ====
section
/-! DEFINITION. The counter operations (41_counters.md): `LFSR_STEP` and one encode and one decode per kind. -/

namespace Sys2Proof.Machine

/-- The tap operand: four naturals, every tap used below the width (R28, R76, D28; log 8). -/
def checkTaps (width : Nat) (t1 t2 t3 t4 : Int) : Except HardError Taps :=
  let t : Taps := ⟨t1.toNat, t2.toNat, t3.toNat, t4.toNat⟩
  if t1 < 0 ∨ t2 < 0 ∨ t3 < 0 ∨ t4 < 0 ∨ ∃ i ∈ t.used, width ≤ i then
    .error (.range .taps (.taps t1 t2 t3 t4))
  else .ok t

/-- The width operand: 1 to 16 (R76, D28). -/
def checkWidth (width : Int) : Except HardError Nat :=
  if width < 1 ∨ 16 < width then .error (.range .width (.int width)) else .ok width.toNat

/-- LFSR_STEP (R110): width, then taps, then register are checked. -/
def execLfsrStep (register width t1 t2 t3 t4 : Int) (s : State) : Host.Outcome State Fault Refusal :=
  complete (do
    let w ← checkWidth width
    let t ← checkTaps w t1 t2 t3 t4
    let r ← checkMax .register (2 ^ w - 1) register
    return .value (lfsrNext w t r)) s

/-- A counter encode of kind `k` as an operation (R119). -/
def encodeOp (k : Kind) (count : Int) (s : State) : Host.Outcome State Fault Refusal :=
  complete (do return .value (← encodeKind s.par k count)) s

/-- A counter decode that carries no ambiguity mark: the Gray and saturating kinds (R121, R123). -/
def decodeOpPlain (k : Kind) (value : Int) (s : State) : Host.Outcome State Fault Refusal :=
  complete (do return .value (← decodeKind s.par k value).count) s

/-- A counter decode with its ambiguity mark: the LFSR kinds (R114, R242). -/
def decodeOpMarked (k : Kind) (value : Int) (s : State) : Host.Outcome State Fault Refusal :=
  complete (do
    let d ← decodeKind s.par k value
    return .counted d.count d.ambiguous) s

/-- ENC_TOA (R120). -/
def execEncToa (count : Int) (s : State) : Host.Outcome State Fault Refusal := encodeOp .toa count s

/-- DEC_TOA (R121). -/
def execDecToa (value : Int) (s : State) : Host.Outcome State Fault Refusal := decodeOpPlain .toa value s

/-- ENC_FTOA (R122). -/
def execEncFtoa (count : Int) (s : State) : Host.Outcome State Fault Refusal := encodeOp .ftoa count s

/-- DEC_FTOA (R123). -/
def execDecFtoa (value : Int) (s : State) : Host.Outcome State Fault Refusal := decodeOpPlain .ftoa value s

/-- ENC_TOT (R124). -/
def execEncTot (count : Int) (s : State) : Host.Outcome State Fault Refusal := encodeOp .tot count s

/-- DEC_TOT (R125). -/
def execDecTot (value : Int) (s : State) : Host.Outcome State Fault Refusal := decodeOpMarked .tot value s

/-- ENC_ITOT (R126). -/
def execEncItot (count : Int) (s : State) : Host.Outcome State Fault Refusal := encodeOp .itot count s

/-- DEC_ITOT (R127). -/
def execDecItot (value : Int) (s : State) : Host.Outcome State Fault Refusal := decodeOpMarked .itot value s

/-- ENC_PC10 (R128). -/
def execEncPc10 (count : Int) (s : State) : Host.Outcome State Fault Refusal := encodeOp .pc10b count s

/-- DEC_PC10 (R129). -/
def execDecPc10 (value : Int) (s : State) : Host.Outcome State Fault Refusal := decodeOpMarked .pc10b value s

/-- ENC_PC4 (R130). -/
def execEncPc4 (count : Int) (s : State) : Host.Outcome State Fault Refusal := encodeOp .pc4b count s

/-- DEC_PC4 (R131). -/
def execDecPc4 (value : Int) (s : State) : Host.Outcome State Fault Refusal := decodeOpMarked .pc4b value s

end Sys2Proof.Machine
end

