-- ==== Sys2Proof/Machine/Packet.lean ====
section
/-! DEFINITION. The 48-bit packet assembler and disassembler and the byte port (44_packet.md sections 1, 2). -/

namespace Sys2Proof.Machine

/-- The four fields of a packet (R71). -/
structure Fields where
  address : Nat
  toa : Nat
  secondary : Nat
  ftoa : Nat
  deriving DecidableEq, Repr

/-- `PKT_ASM` with its width checks (R200). -/
def assemble (address toa secondary ftoa : Int) : Except HardError Nat := do
  let a ← checkMax .address 65535 address
  let g ← checkMax .toa 16383 toa
  let sec ← checkMax .secondary 1023 secondary
  let f ← checkMax .ftoa 15 ftoa
  return packetWord a g sec f

/-- The slices of R72. -/
def fieldsOf (word : Nat) : Fields :=
  { address := slice word 43 28, toa := slice word 27 14, secondary := slice word 13 4, ftoa := slice word 3 0 }

/-- The header test of R201 (D13). -/
def checkHeader (h : HeaderCheck) (word : Nat) : Except HardError Unit :=
  if h = .strict ∧ slice word 47 44 ≠ 0b1010 then .error (.range .header (.int (slice word 47 44))) else .ok ()

/-- `PKT_DIS` with its checks: the width, then the header (R201). -/
def disassemble (h : HeaderCheck) (word : Int) : Except HardError Fields := do
  let w ← checkMax .word (2 ^ 48 - 1) word
  checkHeader h w
  return fieldsOf w

/-- The secondary field of a hit: ToT in `ToaAndTot`, the dummy value otherwise (R202, D7). -/
def secondaryOf (p : Params) (mode : Mode) (tot : Nat) : Nat :=
  if mode = .toaAndTot then tot else p.dummySecondary.toNat

/-- `HIT_ENC` after its mode check (R202). -/
def encodeHit (cfg : Cfg) (p : Params) (mode : Mode) (address : Int) (start stop : Rat) :
    Except HardError Nat := do
  let a ← checkMax .address 65535 address
  let v ← timeToValues cfg p.ftoaCount mode start stop
  assemble a v.1 (secondaryOf p mode v.2.2) v.2.1

/-- The record of a packet's fields (R203, D16). -/
def recordOf (cfg : Cfg) (mode : Mode) (wantTime wantDecoded : Bool) (f : Fields) : HitRecord :=
  let xy := coordinateOf f.address
  let d := if mode = .toaAndTot then lfsrDec totSpec f.secondary else Decoded.found 0
  let start := ftoaTime cfg f.ftoa f.toa
  { x := xy.1
    y := xy.2
    toa := if wantDecoded then gray2bin f.toa else f.toa
    secondary := if wantDecoded ∧ mode = .toaAndTot then d.count else f.secondary
    ftoa := if wantDecoded then satDec f.ftoa else f.ftoa
    start := if wantTime then some start else none
    stop := if wantTime ∧ mode = .toaAndTot then some (start + (d.count : Rat) / cfg.fSys) else none
    ambiguous := d.ambiguous }

/-- `HIT_DEC` after its mode check (R203). -/
def decodeHit (cfg : Cfg) (p : Params) (mode : Mode) (wantTime wantDecoded : Bool) (word : Int) :
    Except HardError HitRecord := do
  let f ← disassemble p.headerCheck word
  return recordOf cfg mode wantTime wantDecoded f

/-- The bytes of a record checked in order, the `j`-th named `b_j` (R205). -/
def checkBytes (j : Nat) : List Int → Except HardError (List Nat)
  | [] => .ok []
  | b :: bs =>
    match checkMax (.byte j) 255 b with
    | .error e => .error e
    | .ok v =>
      match checkBytes (j + 1) bs with
      | .error e => .error e
      | .ok vs => .ok (v :: vs)

/-- `PKT_DES` of six bytes (R205). -/
def deserialise (bs : List Int) : Except HardError Nat := (checkBytes 0 bs).map beNat

/-- `STREAM_SPLIT` (R206): the length of the whole stream first, then its records in order. -/
def splitStream (bytes : List Int) : Except HardError (List Nat) :=
  if bytes.length % 6 ≠ 0 then .error (.malformedFile bytes.length)
  else mapUntilError (fun i => deserialise (memRead bytes (6 * i) 6)) (List.range (bytes.length / 6))

/-- PKT_ASM (R200). -/
def execPktAsm (address toa secondary ftoa : Int) (s : State) : Host.Outcome State Fault Refusal :=
  complete (do return .word (← assemble address toa secondary ftoa)) s

/-- PKT_DIS (R201). -/
def execPktDis (word : Int) (s : State) : Host.Outcome State Fault Refusal :=
  complete (do
    let f ← disassemble s.par.headerCheck word
    return .packet f.address f.toa f.secondary f.ftoa) s

/-- HIT_ENC (R202). -/
def execHitEnc (address : Int) (start stop : Rat) (mode : ModeCode) (s : State) :
    Host.Outcome State Fault Refusal :=
  complete (do
    let m ← checkMode admitsPacket mode
    return .word (← encodeHit s.cfg s.par m address start stop)) s

/-- HIT_DEC (R203). -/
def execHitDec (word : Int) (mode : ModeCode) (wantTime wantDecoded : Bool) (s : State) :
    Host.Outcome State Fault Refusal :=
  complete (do
    let m ← checkMode admitsPacket mode
    return .hit (← decodeHit s.cfg s.par m wantTime wantDecoded word)) s

/-- PKT_SER (R204): any 48-bit word, its header unchecked (D13). -/
def execPktSer (word : Int) (s : State) : Host.Outcome State Fault Refusal :=
  completeEmit (do return [← checkMax .word (2 ^ 48 - 1) word]) s

/-- PKT_DES (R205). -/
def execPktDes (b0 b1 b2 b3 b4 b5 : Int) (s : State) : Host.Outcome State Fault Refusal :=
  complete (do return .word (← deserialise [b0, b1, b2, b3, b4, b5])) s

/-- STREAM_SPLIT (R206). -/
def execStreamSplit (bytes : List Int) (s : State) : Host.Outcome State Fault Refusal :=
  complete (do return .words (← splitStream bytes)) s

/-- PKT48 (R71): a packet presented by itself gives back its fields, the slices R72 names (log 5). -/
def execPkt48 (address : BitVec 16) (toa : BitVec 14) (secondary : BitVec 10) (ftoa : BitVec 4) (s : State) :
    Host.Outcome State Fault Refusal :=
  complete (.ok (.packet address.toNat toa.toNat secondary.toNat ftoa.toNat)) s

end Sys2Proof.Machine
end

