-- ==== Sys2Proof/Machine/Stream.lean ====
section
/-! DEFINITION. The stream operations (44_packet.md section 3): `ENC_STREAM` and `DEC_STREAM`. -/

namespace Sys2Proof.Machine

/-- A hit with its index in the input and its pixel address (R220, step 2). -/
structure AddressedHit where
  idx : Nat
  addr : Nat
  start : Rat
  stop : Rat
  deriving DecidableEq, Repr

/-- A packet with the sort key of R220: decoded ToA, address, input index. -/
structure KeyedWord where
  toa : Nat
  addr : Nat
  idx : Nat
  word : Nat
  deriving DecidableEq, Repr

/-- Step 2 of R220, hit by hit in input order: the address, then the times. -/
def addressHits (cfg : Cfg) : Nat → List Hit → Except HardError (List AddressedHit)
  | _, [] => .ok []
  | i, h :: hs => do
    let a ← toAddress h.x h.y
    checkPulse cfg h.start h.stop
    let rest ← addressHits cfg (i + 1) hs
    return { idx := i, addr := a, start := h.start, stop := h.stop } :: rest

/-- An address added to a strictly rising list. -/
def insertAddress (a : Nat) : List Nat → List Nat
  | [] => [a]
  | b :: bs => if a < b then a :: b :: bs else if a = b then b :: bs else b :: insertAddress a bs

/-- The pixels that have a hit, in ascending address order (R245). The others have an empty sequence, which
accepts nothing and raises nothing (R185). -/
def pixelsOf (hs : List AddressedHit) : List Nat := hs.foldr (fun h l => insertAddress h.addr l) []

/-- `P_a`: the hits of pixel `a` in input order (R220, step 2). -/
def hitsOf (a : Nat) (hs : List AddressedHit) : List AddressedHit := hs.filter fun h => h.addr = a

/-- The packet of an accepted hit with its sort key (R220, step 3). -/
def keyedPacket (cfg : Cfg) (p : Params) (mode : Mode) (h : AddressedHit) : Except HardError KeyedWord := do
  let w ← encodeHit cfg p mode h.addr h.start h.stop
  return { toa := gray2bin (slice w 27 14), addr := h.addr, idx := h.idx, word := w }

/-- The hits whose outcome is `Accept` (R220, step 3). -/
def acceptedOf (hs : List AddressedHit) (vs : List Verdict) : List AddressedHit :=
  ((hs.zip vs).filter fun p => p.2 = .accept).map Prod.fst

/-- Step 3 of R220 for one pixel: the acceptor over all its pulses, then a packet per accepted hit. -/
def encodePixel (cfg : Cfg) (p : Params) (mode : Mode) (hs : List AddressedHit) :
    Except HardError (List KeyedWord) := do
  let vs ← acceptFold cfg mode PixRec.init (hs.map fun h => ⟨h.start, h.stop⟩)
  mapUntilError (keyedPacket cfg p mode) (acceptedOf hs vs)

/-- Step 3 of R220 for every pixel, in ascending address order (R245; log 16). -/
def encodePixels (cfg : Cfg) (p : Params) (mode : Mode) (hs : List AddressedHit) :
    Except HardError (List KeyedWord) := do
  let ws ← mapUntilError (fun a => encodePixel cfg p mode (hitsOf a hs)) (pixelsOf hs)
  return ws.flatten

/-- The lexicographic order of the keys (R220, step 4). -/
def KeyedWord.le (u v : KeyedWord) : Bool :=
  decide (u.toa < v.toa) || (decide (u.toa = v.toa) && (decide (u.addr < v.addr)
    || (decide (u.addr = v.addr) && decide (u.idx ≤ v.idx))))

/-- A packet inserted before the first one whose key is not smaller. -/
def insertKeyed (w : KeyedWord) : List KeyedWord → List KeyedWord
  | [] => [w]
  | v :: vs => if w.le v then w :: v :: vs else v :: insertKeyed w vs

/-- Step 4 of R220: the merge by ascending decoded ToA, ties by address, then by input index (R64, D15). -/
def mergeByToa (ws : List KeyedWord) : List KeyedWord := ws.foldr insertKeyed []

/-- `ENC_STREAM` after its mode check: the words of the stream in order (R220). -/
def encodeStream (cfg : Cfg) (p : Params) (mode : Mode) (hits : List Hit) : Except HardError (List Nat) := do
  let hs ← addressHits cfg 0 hits
  let ws ← encodePixels cfg p mode hs
  return (mergeByToa ws).map KeyedWord.word

/-- ENC_STREAM (R220): the bytes are emitted only when the whole stream exists (R244, D19). -/
def execEncStream (hits : List Hit) (mode : ModeCode) (s : State) : Host.Outcome State Fault Refusal :=
  completeEmit (do
    let m ← checkMode admitsPacket mode
    encodeStream s.cfg s.par m hits) s

/-- DEC_STREAM (R221): the stream is split whole, then each word decoded in stream order. -/
def execDecStream (bytes : List Int) (mode : ModeCode) (wantTime wantDecoded : Bool) (s : State) :
    Host.Outcome State Fault Refusal :=
  complete (do
    let m ← checkMode admitsPacket mode
    let ws ← splitStream bytes
    let rs ← mapUntilError (fun w => decodeHit s.cfg s.par m wantTime wantDecoded (Int.ofNat w)) ws
    return .hits rs) s

end Sys2Proof.Machine
end

