-- ==== Sys2Proof/Machine/Dispatch.lean ====
section
/-! DEFINITION. The meaning of each operation, one arm per constructor, in the table's order. -/

namespace Sys2Proof.Machine

def exec (i : Instr) (s : State) : Host.Outcome State Fault Refusal :=
  match i with
  | .addrEnc x y => Sys2Proof.Machine.execAddrEnc x y s
  | .addrDec address => Sys2Proof.Machine.execAddrDec address s
  | .lfsrStep register width t1 t2 t3 t4 => Sys2Proof.Machine.execLfsrStep register width t1 t2 t3 t4 s
  | .encToa count => Sys2Proof.Machine.execEncToa count s
  | .decToa value => Sys2Proof.Machine.execDecToa value s
  | .encFtoa count => Sys2Proof.Machine.execEncFtoa count s
  | .decFtoa value => Sys2Proof.Machine.execDecFtoa value s
  | .encTot count => Sys2Proof.Machine.execEncTot count s
  | .decTot value => Sys2Proof.Machine.execDecTot value s
  | .encItot count => Sys2Proof.Machine.execEncItot count s
  | .decItot value => Sys2Proof.Machine.execDecItot value s
  | .encPc10 count => Sys2Proof.Machine.execEncPc10 count s
  | .decPc10 value => Sys2Proof.Machine.execDecPc10 value s
  | .encPc4 count => Sys2Proof.Machine.execEncPc4 count s
  | .decPc4 value => Sys2Proof.Machine.execDecPc4 value s
  | .t2toa t => Sys2Proof.Machine.execT2toa t s
  | .toa2t toa => Sys2Proof.Machine.execToa2t toa s
  | .t2ftoa t => Sys2Proof.Machine.execT2ftoa t s
  | .ftoa2t ftoa toa => Sys2Proof.Machine.execFtoa2t ftoa toa s
  | .t2tot start stop => Sys2Proof.Machine.execT2tot start stop s
  | .tot2t tot toa ftoa => Sys2Proof.Machine.execTot2t tot toa ftoa s
  | .t2val start stop mode => Sys2Proof.Machine.execT2val start stop mode s
  | .deadtime previousTot mode clock => Sys2Proof.Machine.execDeadtime previousTot mode clock s
  | .acqStart mode fSys fFine epoch => Sys2Proof.Machine.execAcqStart mode fSys fFine epoch s
  | .accept address start stop => Sys2Proof.Machine.execAccept address start stop s
  | .acceptSeq mode pulses => Sys2Proof.Machine.execAcceptSeq mode pulses s
  | .pktAsm address toa secondary ftoa => Sys2Proof.Machine.execPktAsm address toa secondary ftoa s
  | .pktDis word => Sys2Proof.Machine.execPktDis word s
  | .hitEnc address start stop mode => Sys2Proof.Machine.execHitEnc address start stop mode s
  | .hitDec word mode wantTime wantDecoded => Sys2Proof.Machine.execHitDec word mode wantTime wantDecoded s
  | .pktSer word => Sys2Proof.Machine.execPktSer word s
  | .pktDes b0 b1 b2 b3 b4 b5 => Sys2Proof.Machine.execPktDes b0 b1 b2 b3 b4 b5 s
  | .streamSplit bytes => Sys2Proof.Machine.execStreamSplit bytes s
  | .encStream hits mode => Sys2Proof.Machine.execEncStream hits mode s
  | .decStream bytes mode wantTime wantDecoded => Sys2Proof.Machine.execDecStream bytes mode wantTime wantDecoded s
  | .pkt48 address toa secondary ftoa => Sys2Proof.Machine.execPkt48 address toa secondary ftoa s

end Sys2Proof.Machine
end

