-- ==== Sys2Proof/Machine/Present.lean ====
section
/-! DEFINITION. How the host presents operations (30_encoding.md R70), and what happens to a presentation that
is no operation (R78). -/

namespace Sys2Proof.Machine

/-- The operation presented next, if any. -/
def nextRequest (s : State) : Option Request := s.pending.head?

/-- The state once the presented operation has been taken. -/
def consume (s : State) : State := { s with pending := s.pending.tail }

/-- The state with `r` presented next, in place of what was presented next. -/
def present (r : Request) (s : State) : State := { s with pending := r :: s.pending.tail }

/-- A presentation that is no operation. An illegal `OPSEL` raises `RangeError(OPSEL)` and does nothing else
(R78); six bytes that are no packet raise `RangeError` with the header (R71, log 6); anything else is no
presentation of the spec and stops (log 7). -/
def reject (e : DecodeError) (s : State) : Host.Outcome State Fault Refusal :=
  match e with
  | .illegalOpsel b => .next (s.raise (.range .opsel (.opsel b)))
  | .badHeader h => .next (s.raise (.range .header (.int h)))
  | .codeLength n => .fault (.codeLength n)
  | .operandTypes b => .fault (.operandTypes b)

end Sys2Proof.Machine
end

