-- ==== Sys2Proof/Machine/Step.lean ====
section
/-! DEFINITION. One step of the block: the operation the host presents next is decoded and executed. -/

namespace Sys2Proof.Machine

/-- One step. With nothing presented the block does nothing (log 15); a presentation is taken from the front
of `pending` (R62, R70), decoded and executed, or handled by `reject` when it is no operation. -/
def step (s : State) : Host.Outcome State Fault Refusal :=
  match nextRequest s with
  | none => .next s
  | some r =>
    match decode r with
    | .ok i => exec i (consume s)
    | .error e => reject e (consume s)

/-- `s` with the instruction of `nbits` bits `w` presented next: step takes its operation from the front of
`pending` (log 1). -/
def State.withFetchWord (s : State) (nbits w : Nat) : State := present (requestOfWord nbits w) s

end Sys2Proof.Machine
end

