-- ==== Sys2Proof/Machine/Instance.lean ====
section
/-! DEFINITION. An instance of the block: what 10_state.md R29 asks of the OPEN parameters, and the reset of a
block that is given them (70_reset_and_hazards.md R262). -/

namespace Sys2Proof.Machine

/-- The taps of an LFSR kind are maximal-length (R29, 2): from the seed, the register comes back to it after
`2^w - 1` steps and not before. -/
def LfsrSpec.maximal (k : LfsrSpec) : Prop :=
  (lfsrNext k.width k.taps)^[k.seed] k.seed = k.seed ∧
  ∀ i, 0 < i → i < k.seed → (lfsrNext k.width k.taps)^[i] k.seed ≠ k.seed

/-- The tap tuple selects 4-tap feedback (R28). -/
def Taps.fourTap (t : Taps) : Prop := t.t3 ≠ 0 ∧ t.t4 ≠ 0

/-- What R29 asks of supplied parameters beside what their type says (items 1 and 4, `LfsrParams`): the taps of
both kinds are maximal-length (item 2) and those of iToT are a 4-tap tuple (item 3). -/
def legalParams (p : Params) : Prop :=
  (∀ q, p.itot = some q → (openSpec q).maximal ∧ (openSpec q).taps.fourTap) ∧
  (∀ q, p.pc4b = some q → (openSpec q).maximal)

/-- The state after reset of a block given the parameters `p`, which must be legal (R29, R260, R262; log 9). -/
def State.resetWith (p : Params) (_ : legalParams p) : State := { State.reset with par := p }

end Sys2Proof.Machine
end

