-- ==== Sys2Proof/Safety.lean ====
section
/-! DEFINITION. The terms statements are made in: the invariant of the block's state, and the reference readings of
the rules that statements compare operations with. -/

namespace Sys2Proof.Machine

/-- Both clocks are positive (10_state.md R22). -/
def Cfg.legal (c : Cfg) : Prop := 0 < c.fSys ∧ 0 < c.fFine

/-- What R30 and R183 make true of a pixel record: `prev_tot` is the count of an accepted pulse, 1 to 1022,
exactly when there is one, and no time is before the epoch. -/
def PixRec.legal (c : Cfg) (r : PixRec) : Prop :=
  (r.hasPrev = false → r.prevTot = 0 ∧ r.prevEnd = 0) ∧
  (r.hasPrev = true → 1 ≤ r.prevTot ∧ r.prevTot ≤ 1022 ∧ c.epoch ≤ r.prevEnd ∧ r.lastStart ≠ none) ∧
  ∀ ls, r.lastStart = some ls → c.epoch ≤ ls

/-- The stream holds whole records from offset 0, with no gap (20_memory.md R54, R58). -/
def Memory.wholeRecords (m : Memory) : Prop := ∃ n : Nat, m.map Prod.fst = List.range (6 * n)

/-- The invariant of the block: positive clocks; OPEN parameters that are legal where supplied (R29); the pixel
space in canonical form with legal records; no record before an acquisition has started (R184); a stream of whole
records. -/
structure State.Inv (s : State) : Prop where
  clocks : s.cfg.legal
  params : legalParams s.par
  pixCanonical : s.pix.wf
  pixLegal : ∀ e ∈ s.pix, e.2.legal s.cfg
  noPixelBeforeStart : s.cfg.mode = none → s.pix = []
  stream : s.stream.wholeRecords

/-- The register of the ToT and PC10b counters after `n` steps from the seed (41_counters.md R111). -/
def totRegister (n : Nat) : Nat := (lfsrNext 10 ⟨6, 9, 0, 0⟩)^[n] 0x3FF

/-- The index of the latest system edge at or before `t` (42_time.md R150, R153). -/
def edgeIndex (c : Cfg) (t : Rat) : Int := ⌊(t - c.epoch) * c.fSys⌋

/-- The operations that write `CFG` or `PIX` (20_memory.md R59). -/
def writesState : Instr → Bool
  | .acqStart _ _ _ _ => true
  | .accept _ _ _ => true
  | _ => false

/-- The operations that emit bytes (R204, R220). -/
def emitsBytes : Instr → Bool
  | .pktSer _ => true
  | .encStream _ _ => true
  | _ => false

/-- `ACCEPT` on one pixel, pulse after pulse, from the state `s`: the outcomes, or the first error (R82, R185). -/
def acceptEach (a : Nat) : State → List Pulse → Except HardError (List Verdict)
  | _, [] => .ok []
  | s, q :: qs =>
    match exec (.accept a q.start q.stop) s with
    | .next t =>
      match t.result with
      | .verdict v => (acceptEach a t qs).map (v :: ·)
      | .error e => .error e
      | _ => .ok []
    | _ => .ok []

/-- The hits of pixel `a`, in input order (R220, step 2). -/
def pixelHits (a : Nat) (hits : List Hit) : List Hit :=
  hits.filter fun h => addressOf h.x.toNat h.y.toNat = a

/-- The packet of an accepted hit (R202): header, address, ToA, ToT or the dummy value, fToA. -/
def hitPacket (s : State) (m : Mode) (a : Nat) (h : Hit) : Nat :=
  packetWord a (bin2gray (toaTicks s.cfg h.start))
    (if m = .toaAndTot then totOf s.cfg h.start h.stop else s.par.dummySecondary.toNat)
    (ftoaOf s.cfg s.par.ftoaCount h.start)

/-- The packets of the hits that the acceptor accepts in pixel `a` (R220, step 3). -/
def acceptedPackets (s : State) (m : Mode) (a : Nat) (hits : List Hit) : List Nat :=
  match acceptFold s.cfg m PixRec.init ((pixelHits a hits).map fun h => ⟨h.start, h.stop⟩) with
  | .ok vs => (((pixelHits a hits).zip vs).filter fun p => p.2 = .accept).map fun p => hitPacket s m a p.1
  | .error _ => []

/-- The order of records in a stream (R64): ascending decoded ToA, ties by address. -/
def streamOrder (u v : Nat) : Prop :=
  gray2bin (slice u 27 14) < gray2bin (slice v 27 14) ∨
    (gray2bin (slice u 27 14) = gray2bin (slice v 27 14) ∧ slice u 43 28 ≤ slice v 43 28)

/-- A hit on the grid and in the time domain (R220, step 2). -/
def inDomain (c : Cfg) (h : Hit) : Prop :=
  0 ≤ h.x ∧ h.x ≤ 255 ∧ 0 ≤ h.y ∧ h.y ≤ 255 ∧ c.epoch ≤ h.start ∧ h.start ≤ h.stop

/-- A batch that `ENC_STREAM` has a stream for (R220): every hit on the grid and in the time domain, the starts of
each pixel in order, and every hit that the acceptor accepts in the ToA range. -/
structure encodable (c : Cfg) (m : Mode) (hits : List Hit) : Prop where
  domain : ∀ h ∈ hits, inDomain c h
  order : hits.Pairwise fun g h => g.x = h.x → g.y = h.y → g.start ≤ h.start
  range : ∀ a vs, acceptFold c m PixRec.init ((pixelHits a hits).map fun h => ⟨h.start, h.stop⟩) = .ok vs →
    ∀ p ∈ (pixelHits a hits).zip vs, p.2 = .accept → ⌈(p.1.start - c.epoch) * c.fSys⌉ ≤ 16383

end Sys2Proof.Machine
end

