-- ==== Sys2Proof/Certificates/Slice0/Obligations.lean ====
section
/-! DEFINITION. The statements for the provers, family by family. A statement of a result says the whole next
state, so it is the instruction's frame as well: every field it does not name is that of `s`, every pixel and
every byte of the stream among them. -/

open Sys2Proof Sys2Proof.Machine

/-! ## Presenting, decoding, stepping -/

/-- Every operation, with every operand, decodes from its encoding (R71, R75). -/
def Obligations.DecodingAnEncodingGivesTheOperation : Prop :=
  ∀ i : Instr, decode (encode i) = .ok i

/-- A presentation that decodes is the encoding of what it decodes to: no bit and no operand of it is dropped
(R71, R75). -/
def Obligations.AnythingThatDecodesIsItsEncoding : Prop :=
  ∀ (r : Request) (i : Instr), decode r = .ok i → encode i = r

/-- Words written from R71, R73 and R74 decode to their operations. -/
def Obligations.SelectorAndPacketWordsDecode : Prop :=
  decode ⟨[0x01#8], [.int 10, .int 20]⟩ = .ok (.addrEnc 10 20) ∧
  decode ⟨[0x15#8], [.int 0x3F0]⟩ = .ok (.decTot 0x3F0) ∧
  decode ⟨[0x24#8], [.rat 0, .rat 1]⟩ = .ok (.t2tot 0 1) ∧
  decode ⟨[0x32#8], [.int 7, .rat 0, .rat 1]⟩ = .ok (.accept 7 0 1) ∧
  decode ⟨[0xA0#8, 0xA2#8, 0x80#8, 0x01#8, 0xBF#8, 0x0F#8], []⟩
    = .ok (.pkt48 0x0A28#16 6#14 0x3F0#10 15#4) ∧
  decode ⟨[0x1C#8], [.int 0]⟩ = .error (.illegalOpsel 0x1C#8)

/-- A step takes the operation presented next and executes it on the state from which it has been taken; that an
idle block stays as it is (second clause) is the model's choice (log 15). -/
def Obligations.StepRunsThePresentedOperation : Prop :=
  (∀ (s : State) (r : Request) (rest : List Request) (i : Instr),
    s.pending = r :: rest → decode r = .ok i → step s = exec i { s with pending := rest }) ∧
  (∀ s : State, s.pending = [] → step s = .next s)

/-- An illegal `OPSEL` raises `RangeError(OPSEL)` whatever its operands, and does nothing else; every other
one-byte selector decodes for some operands (R75, R78). -/
def Obligations.IllegalSelectorsRaiseRangeError : Prop :=
  ∀ b : Byte,
    (b.toNat ∈ [0x01, 0x02, 0x08, 0x10, 0x11, 0x12, 0x13, 0x14, 0x15, 0x16, 0x17, 0x18, 0x19, 0x1A, 0x1B, 0x20,
      0x21, 0x22, 0x23, 0x24, 0x25, 0x26, 0x30, 0x31, 0x32, 0x33, 0x40, 0x41, 0x42, 0x43, 0x44, 0x45, 0x46,
      0x50, 0x51] → ∃ ops i, decode ⟨[b], ops⟩ = .ok i) ∧
    (b.toNat ∉ [0x01, 0x02, 0x08, 0x10, 0x11, 0x12, 0x13, 0x14, 0x15, 0x16, 0x17, 0x18, 0x19, 0x1A, 0x1B, 0x20,
      0x21, 0x22, 0x23, 0x24, 0x25, 0x26, 0x30, 0x31, 0x32, 0x33, 0x40, 0x41, 0x42, 0x43, 0x44, 0x45, 0x46,
      0x50, 0x51] → ∀ (s : State) (ops : List Operand) (rest : List Request),
        s.pending = ⟨[b], ops⟩ :: rest →
        step s = .next { s with pending := rest, result := .error (.range .opsel (.opsel b)) })

/-! ## Addresses -/

/-- ADDR_ENC (R100): the address of an on-grid pixel, and the two refusals, `x` first. -/
def Obligations.AddrEncReturnsTheFieldAddress : Prop :=
  (∀ (s : State) (x y : Nat), x ≤ 255 → y ≤ 255 → exec (.addrEnc x y) s =
    .next { s with result := .address (512 * (x / 2) + 8 * (y / 4) + (y % 4 + 4 * (x % 2))) }) ∧
  (∀ (s : State) (x y : Int), x < 0 ∨ 255 < x → exec (.addrEnc x y) s =
    .next { s with result := .error (.range .x (.int x)) }) ∧
  (∀ (s : State) (x y : Int), 0 ≤ x → x ≤ 255 → y < 0 ∨ 255 < y → exec (.addrEnc x y) s =
    .next { s with result := .error (.range .y (.int y)) })

/-- ADDR_DEC (R101): the coordinate of every 16-bit address, and the refusal of any other. -/
def Obligations.AddrDecReturnsTheCoordinate : Prop :=
  (∀ (s : State) (a : Nat), a ≤ 65535 → exec (.addrDec a) s =
    .next { s with result := .coordinate (2 * (a / 512) + a % 8 / 4) (4 * (a / 8 % 64) + a % 4) }) ∧
  (∀ (s : State) (a : Int), a < 0 ∨ 65535 < a → exec (.addrDec a) s =
    .next { s with result := .error (.range .address (.int a)) })

/-- The bijection laws (R102). -/
def Obligations.AddressesAndCoordinatesAreInBijection : Prop :=
  (∀ (s : State) (x y : Nat), x ≤ 255 → y ≤ 255 → ∃ a : Nat, a ≤ 65535 ∧
    exec (.addrEnc x y) s = .next { s with result := .address a } ∧
    exec (.addrDec a) s = .next { s with result := .coordinate x y }) ∧
  (∀ (s : State) (a : Nat), a ≤ 65535 → ∃ x y : Nat, x ≤ 255 ∧ y ≤ 255 ∧
    exec (.addrDec a) s = .next { s with result := .coordinate x y } ∧
    exec (.addrEnc x y) s = .next { s with result := .address a })

/-! ## Counters -/

/-- LFSR_STEP (R110): the shift and the feedback of two or four taps, read before the shift, and the refusals in
the order width, taps, register. That a negative tap is refused where it is not used is DEDUCED (log 8), and that
the refusal of taps records the whole tuple is the model's choice (log 11). -/
def Obligations.LfsrStepShiftsInTheFeedback : Prop :=
  (∀ (s : State) (w r t1 t2 t3 t4 : Nat), 1 ≤ w → w ≤ 16 → r < 2 ^ w → t1 < w → t2 < w → t3 = 0 ∨ t4 = 0 →
    exec (.lfsrStep r w t1 t2 t3 t4) s =
      .next { s with result := .value (2 * r % 2 ^ w + (r / 2 ^ t1 + r / 2 ^ t2) % 2) }) ∧
  (∀ (s : State) (w r t1 t2 t3 t4 : Nat), 1 ≤ w → w ≤ 16 → r < 2 ^ w → t1 < w → t2 < w → t3 < w → t4 < w →
    t3 ≠ 0 → t4 ≠ 0 → exec (.lfsrStep r w t1 t2 t3 t4) s =
      .next { s with
        result := .value (2 * r % 2 ^ w + (r / 2 ^ t1 + r / 2 ^ t2 + r / 2 ^ t3 + r / 2 ^ t4) % 2) }) ∧
  (∀ (s : State) (w r t1 t2 t3 t4 : Int), w < 1 ∨ 16 < w → exec (.lfsrStep r w t1 t2 t3 t4) s =
    .next { s with result := .error (.range .width (.int w)) }) ∧
  (∀ (s : State) (w r t1 t2 t3 t4 : Int), 1 ≤ w → w ≤ 16 →
    t1 < 0 ∨ t2 < 0 ∨ t3 < 0 ∨ t4 < 0 ∨ w ≤ t1 ∨ w ≤ t2 ∨ (t3 ≠ 0 ∧ t4 ≠ 0 ∧ (w ≤ t3 ∨ w ≤ t4)) →
    exec (.lfsrStep r w t1 t2 t3 t4) s =
      .next { s with result := .error (.range .taps (.taps t1 t2 t3 t4)) }) ∧
  (∀ (s : State) (w t1 t2 t3 t4 : Nat) (r : Int), 1 ≤ w → w ≤ 16 → t1 < w → t2 < w →
    t3 = 0 ∨ t4 = 0 ∨ (t3 < w ∧ t4 < w) → r < 0 ∨ 2 ^ w ≤ r → exec (.lfsrStep r w t1 t2 t3 t4) s =
      .next { s with result := .error (.range .register (.int r)) })

/-- The ToT and PC10b sequence (R111): its first states, its last ones, its period, and that it visits every
non-zero 10-bit value exactly once. `totRegister n` is the register after `n` steps; each step is that of
LFSR_STEP. -/
def Obligations.TotSequenceVisitsEveryNonzeroValueOnce : Prop :=
  (∀ (s : State) (n : Nat), exec (.lfsrStep (totRegister n) 10 6 9 0 0) s =
    .next { s with result := .value (totRegister (n + 1)) }) ∧
  (List.range 12).map totRegister =
    [0x3FF, 0x3FE, 0x3FC, 0x3F8, 0x3F0, 0x3E0, 0x3C0, 0x380, 0x301, 0x203, 0x007, 0x00E] ∧
  totRegister 1020 = 0x07F ∧ totRegister 1021 = 0x0FF ∧ totRegister 1022 = 0x1FF ∧ totRegister 1023 = 0x3FF ∧
  ∀ v, 0 < v → v < 1024 → ∃! n, n < 1023 ∧ totRegister n = v

/-- ENC_TOT and ENC_PC10 (R124, R128): the register after `count` steps from the seed, the overflow value from
1022 counts up, and the refusal of a negative count. -/
def Obligations.TotAndPc10EncodeByStepping : Prop :=
  (∀ (s : State) (n : Nat), n < 1022 →
    exec (.encTot n) s = .next { s with result := .value (totRegister n) } ∧
    exec (.encPc10 n) s = .next { s with result := .value (totRegister n) }) ∧
  (∀ (s : State) (n : Nat), 1022 ≤ n →
    exec (.encTot n) s = .next { s with result := .value 0x1FF } ∧
    exec (.encPc10 n) s = .next { s with result := .value 0x1FF }) ∧
  (∀ (s : State) (n : Int), n < 0 →
    exec (.encTot n) s = .next { s with result := .error (.range .count (.int n)) } ∧
    exec (.encPc10 n) s = .next { s with result := .error (.range .count (.int n)) })

/-- DEC_TOT and DEC_PC10 (R125, R129): the step index of every non-zero value, the ambiguous 0, and the refusal
of a wider value. -/
def Obligations.TotAndPc10DecodeToTheStepIndex : Prop :=
  (∀ (s : State) (v : Nat), 0 < v → v < 1024 → ∃ n ≤ 1022, totRegister n = v ∧
    exec (.decTot v) s = .next { s with result := .counted n false } ∧
    exec (.decPc10 v) s = .next { s with result := .counted n false }) ∧
  (∀ s : State, exec (.decTot 0) s = .next { s with result := .counted 0 true } ∧
    exec (.decPc10 0) s = .next { s with result := .counted 0 true }) ∧
  (∀ (s : State) (v : Int), v < 0 ∨ 1024 ≤ v →
    exec (.decTot v) s = .next { s with result := .error (.range .value (.int v)) } ∧
    exec (.decPc10 v) s = .next { s with result := .error (.range .value (.int v)) })

/-- The ToT collapse law (R113). -/
def Obligations.TotRoundTripSaturatesAt1022 : Prop :=
  ∀ (s : State) (n : Nat), ∃ v : Nat,
    (1022 ≤ n → v = 0x1FF) ∧
    exec (.encTot n) s = .next { s with result := .value v } ∧
    exec (.decTot v) s = .next { s with result := .counted (min n 1022) false } ∧
    exec (.encPc10 n) s = .next { s with result := .value v } ∧
    exec (.decPc10 v) s = .next { s with result := .counted (min n 1022) false }

/-- ENC_ITOT and ENC_PC4 with their parameters supplied (R126, R130): the register after `count` steps, or the
overflow value where the overflow flag is on. -/
def Obligations.OpenKindsEncodeByStepping : Prop :=
  (∀ (s : State) (p : LfsrParams 14), s.par.itot = some p →
    (∀ n : Nat, exec (.encItot n) s = .next { s with
      result := .value
        (if p.ovf = true ∧ 16382 ≤ n then p.ovv.toNat
         else (lfsrNext 14 ⟨p.t1, p.t2, p.t3, p.t4⟩)^[n] 0x3FFF) }) ∧
    (∀ n : Int, n < 0 → exec (.encItot n) s =
      .next { s with result := .error (.range .count (.int n)) })) ∧
  (∀ (s : State) (p : LfsrParams 4), s.par.pc4b = some p →
    (∀ n : Nat, exec (.encPc4 n) s = .next { s with
      result := .value
        (if p.ovf = true ∧ 14 ≤ n then p.ovv.toNat
         else (lfsrNext 4 ⟨p.t1, p.t2, p.t3, p.t4⟩)^[n] 0xF) }) ∧
    (∀ n : Int, n < 0 → exec (.encPc4 n) s =
      .next { s with result := .error (.range .count (.int n)) }))

/-- DEC_ITOT and DEC_PC4 with their parameters supplied (R127, R131): the overflow value first, then the first
step index that shows the value, then the ambiguous 0; a wider value is refused. -/
def Obligations.OpenKindsDecodeByFirstMatch : Prop :=
  (∀ (s : State) (p : LfsrParams 14), s.par.itot = some p →
    (∀ v : Nat, v < 16384 → p.ovf = true → v = p.ovv.toNat →
      exec (.decItot v) s = .next { s with result := .counted 16382 false }) ∧
    (∀ v n : Nat, v < 16384 → ¬ (p.ovf = true ∧ v = p.ovv.toNat) → n < 16383 →
      (lfsrNext 14 ⟨p.t1, p.t2, p.t3, p.t4⟩)^[n] 0x3FFF = v →
      (∀ j < n, (lfsrNext 14 ⟨p.t1, p.t2, p.t3, p.t4⟩)^[j] 0x3FFF ≠ v) →
      exec (.decItot v) s = .next { s with result := .counted n false }) ∧
    (∀ v : Nat, v < 16384 → ¬ (p.ovf = true ∧ v = p.ovv.toNat) →
      (∀ j < 16383, (lfsrNext 14 ⟨p.t1, p.t2, p.t3, p.t4⟩)^[j] 0x3FFF ≠ v) →
      exec (.decItot v) s = .next { s with result := .counted 0 true }) ∧
    (∀ v : Int, v < 0 ∨ 16384 ≤ v → exec (.decItot v) s =
      .next { s with result := .error (.range .value (.int v)) })) ∧
  (∀ (s : State) (p : LfsrParams 4), s.par.pc4b = some p →
    (∀ v : Nat, v < 16 → p.ovf = true → v = p.ovv.toNat →
      exec (.decPc4 v) s = .next { s with result := .counted 14 false }) ∧
    (∀ v n : Nat, v < 16 → ¬ (p.ovf = true ∧ v = p.ovv.toNat) → n < 15 →
      (lfsrNext 4 ⟨p.t1, p.t2, p.t3, p.t4⟩)^[n] 0xF = v →
      (∀ j < n, (lfsrNext 4 ⟨p.t1, p.t2, p.t3, p.t4⟩)^[j] 0xF ≠ v) →
      exec (.decPc4 v) s = .next { s with result := .counted n false }) ∧
    (∀ v : Nat, v < 16 → ¬ (p.ovf = true ∧ v = p.ovv.toNat) →
      (∀ j < 15, (lfsrNext 4 ⟨p.t1, p.t2, p.t3, p.t4⟩)^[j] 0xF ≠ v) →
      exec (.decPc4 v) s = .next { s with result := .counted 0 true }) ∧
    (∀ v : Int, v < 0 ∨ 16 ≤ v → exec (.decPc4 v) s =
      .next { s with result := .error (.range .value (.int v)) }))

/-- An OPEN kind whose parameters were not supplied is refused with `RangeError` and nothing else changes (D4, D5,
R262 item 2); which name and value that error records is left open (log 11). An operand outside its domain is named
whether or not they were supplied (R76); the order of the two checks is log 19. -/
def Obligations.OpenKindsWithoutParametersRaiseRangeError : Prop :=
  (∀ (s : State) (n : Int), s.par.itot = none →
    (∃ o v, exec (.encItot n) s = .next { s with result := .error (.range o v) }) ∧
    (∃ o v, exec (.decItot n) s = .next { s with result := .error (.range o v) })) ∧
  (∀ (s : State) (n : Int), s.par.pc4b = none →
    (∃ o v, exec (.encPc4 n) s = .next { s with result := .error (.range o v) }) ∧
    (∃ o v, exec (.decPc4 n) s = .next { s with result := .error (.range o v) })) ∧
  (∀ (s : State) (n : Int), n < 0 →
    exec (.encItot n) s = .next { s with result := .error (.range .count (.int n)) } ∧
    exec (.encPc4 n) s = .next { s with result := .error (.range .count (.int n)) }) ∧
  (∀ (s : State) (v : Int), v < 0 ∨ 16384 ≤ v →
    exec (.decItot v) s = .next { s with result := .error (.range .value (.int v)) }) ∧
  (∀ (s : State) (v : Int), v < 0 ∨ 16 ≤ v →
    exec (.decPc4 v) s = .next { s with result := .error (.range .value (.int v)) })

/-- The round-trip invariant (R115), for the OPEN kinds with maximal-length taps: without overflow a count comes
back modulo the period; with overflow, and the overflow value at index `seed - 1`, it comes back capped there. -/
def Obligations.MaximalLfsrRoundTrip : Prop :=
  (∀ (s : State) (p : LfsrParams 14), s.par.itot = some p → (openSpec p).maximal →
    (p.ovf = false → ∀ n : Nat, ∃ v : Nat,
      exec (.encItot n) s = .next { s with result := .value v } ∧
      exec (.decItot v) s = .next { s with result := .counted (n % 16383) false }) ∧
    (p.ovf = true → (lfsrNext 14 ⟨p.t1, p.t2, p.t3, p.t4⟩)^[16382] 0x3FFF = p.ovv.toNat → ∀ n : Nat, ∃ v : Nat,
      exec (.encItot n) s = .next { s with result := .value v } ∧
      exec (.decItot v) s = .next { s with result := .counted (min n 16382) false })) ∧
  (∀ (s : State) (p : LfsrParams 4), s.par.pc4b = some p → (openSpec p).maximal →
    (p.ovf = false → ∀ n : Nat, ∃ v : Nat,
      exec (.encPc4 n) s = .next { s with result := .value v } ∧
      exec (.decPc4 v) s = .next { s with result := .counted (n % 15) false }) ∧
    (p.ovf = true → (lfsrNext 4 ⟨p.t1, p.t2, p.t3, p.t4⟩)^[14] 0xF = p.ovv.toNat → ∀ n : Nat, ∃ v : Nat,
      exec (.encPc4 n) s = .next { s with result := .value v } ∧
      exec (.decPc4 v) s = .next { s with result := .counted (min n 14) false }))

/-- ENC_TOA and DEC_TOA (R120, R121): the Gray value of a 14-bit count, the count whose Gray value is given (bit
`i` of it is the XOR of bits 13 down to `i`, R117), and the refusals. -/
def Obligations.ToaIsGrayCoded : Prop :=
  (∀ (s : State) (n : Nat), n ≤ 16383 →
    exec (.encToa n) s = .next { s with result := .value (n ^^^ (n / 2)) }) ∧
  (∀ (s : State) (n : Int), n < 0 ∨ 16383 < n →
    exec (.encToa n) s = .next { s with result := .error (.range .count (.int n)) }) ∧
  (∀ (s : State) (g : Nat), g ≤ 16383 → ∃ b ≤ 16383,
    (∀ i < 14, b.testBit i = ((List.range' i (14 - i)).map g.testBit).foldl xor false) ∧
    exec (.decToa g) s = .next { s with result := .value b }) ∧
  (∀ (s : State) (g : Int), g < 0 ∨ 16383 < g →
    exec (.decToa g) s = .next { s with result := .error (.range .value (.int g)) })

/-- The Gray codec is a bijection of the 14-bit range (R116). -/
def Obligations.GrayCodecIsABijectionOn14Bits : Prop :=
  (∀ (s : State) (n : Nat), n ≤ 16383 → ∃ g : Nat, g ≤ 16383 ∧ g = n ^^^ (n >>> 1) ∧
    exec (.encToa n) s = .next { s with result := .value g } ∧
    exec (.decToa g) s = .next { s with result := .value n }) ∧
  (∀ (s : State) (g : Nat), g ≤ 16383 → ∃ n : Nat, n ≤ 16383 ∧
    exec (.decToa g) s = .next { s with result := .value n } ∧
    exec (.encToa n) s = .next { s with result := .value g })

/-- Consecutive counts have Gray values that differ in exactly one bit (95_test_vectors.md L2.3). -/
def Obligations.ConsecutiveToaValuesDifferInOneBit : Prop :=
  ∀ (s : State) (n : Nat), n < 16383 → ∃ g h j : Nat, j < 14 ∧ g ^^^ h = 2 ^ j ∧
    exec (.encToa n) s = .next { s with result := .value g } ∧
    exec (.encToa (n + 1 : Nat)) s = .next { s with result := .value h }

/-- ENC_FTOA and DEC_FTOA (R122, R123): saturation at 15, identity, and the refusals. -/
def Obligations.FtoaSaturatesAtFifteen : Prop :=
  (∀ (s : State) (n : Nat), exec (.encFtoa n) s =
    .next { s with result := .value (if n ≤ 15 then n else 15) }) ∧
  (∀ (s : State) (n : Int), n < 0 →
    exec (.encFtoa n) s = .next { s with result := .error (.range .count (.int n)) }) ∧
  (∀ (s : State) (v : Nat), v ≤ 15 → exec (.decFtoa v) s = .next { s with result := .value v }) ∧
  (∀ (s : State) (v : Int), v < 0 ∨ 15 < v →
    exec (.decFtoa v) s = .next { s with result := .error (.range .value (.int v)) })

/-! ## Time -/

/-- T2TOA (R151): the Gray value of the tick count rounded up; times before the epoch and beyond 14 bits are
refused. -/
def Obligations.TimeToToaRoundsUpToTicks : Prop :=
  (∀ (s : State) (t : Rat), s.cfg.epoch ≤ t → ⌈(t - s.cfg.epoch) * s.cfg.fSys⌉ ≤ 16383 →
    ∃ n : Nat, n = ⌈(t - s.cfg.epoch) * s.cfg.fSys⌉.toNat ∧
      exec (.t2toa t) s = .next { s with result := .value (n ^^^ (n / 2)) }) ∧
  (∀ (s : State) (t : Rat), t < s.cfg.epoch →
    exec (.t2toa t) s = .next { s with result := .error (.range .t (.rat t)) }) ∧
  (∀ (s : State) (t : Rat), s.cfg.epoch ≤ t → 16383 < ⌈(t - s.cfg.epoch) * s.cfg.fSys⌉ →
    exec (.t2toa t) s = .next { s with result := .error (.range .t (.rat t)) })

/-- TOA2T and FTOA2T (R152, R154): the time of a ToA field, less the fine ticks of an fToA field; the refusals,
`ftoa` before `toa`. -/
def Obligations.ToaAndFtoaGiveBackTheTime : Prop :=
  (∀ (s : State) (toa : Nat), toa ≤ 16383 → ∃ n ≤ 16383, n ^^^ (n / 2) = toa ∧
    exec (.toa2t toa) s = .next { s with result := .seconds ((n : Rat) * (1 / s.cfg.fSys) + s.cfg.epoch) } ∧
    ∀ ftoa : Nat, ftoa ≤ 15 → exec (.ftoa2t ftoa toa) s = .next { s with
      result := .seconds ((n : Rat) * (1 / s.cfg.fSys) + s.cfg.epoch - (ftoa : Rat) * (1 / s.cfg.fFine)) }) ∧
  (∀ (s : State) (toa : Int), toa < 0 ∨ 16383 < toa →
    exec (.toa2t toa) s = .next { s with result := .error (.range .toa (.int toa)) } ∧
    ∀ ftoa : Nat, ftoa ≤ 15 → exec (.ftoa2t ftoa toa) s =
      .next { s with result := .error (.range .toa (.int toa)) }) ∧
  (∀ (s : State) (ftoa toa : Int), ftoa < 0 ∨ 15 < ftoa →
    exec (.ftoa2t ftoa toa) s = .next { s with result := .error (.range .ftoa (.int ftoa)) })

/-- T2FTOA (R153): `k` is the latest system edge at or before `t`; the fine ticks to the next edge, floored or
ceiled as `FTOA_COUNT` says, saturate at 15. There is no upper bound on `t`. -/
def Obligations.TimeToFtoaCountsFineTicksToTheNextEdge : Prop :=
  (∀ (s : State) (t : Rat) (k : Nat), 0 < s.cfg.fSys →
    s.cfg.epoch + (k : Rat) / s.cfg.fSys ≤ t → t < s.cfg.epoch + ((k : Rat) + 1) / s.cfg.fSys →
    exec (.t2ftoa t) s = .next { s with
      result := .value
        (min (match s.par.ftoaCount with
          | .floor => ⌊(s.cfg.epoch + ((k : Rat) + 1) / s.cfg.fSys - t) * s.cfg.fFine⌋.toNat
          | .ceil => ⌈(s.cfg.epoch + ((k : Rat) + 1) / s.cfg.fSys - t) * s.cfg.fFine⌉.toNat) 15) }) ∧
  (∀ (s : State) (t : Rat), t < s.cfg.epoch →
    exec (.t2ftoa t) s = .next { s with result := .error (.range .t (.rat t)) })

/-- T2TOT (R155): the ToT code of the number `n` of system edges after `start` and up to `stop`; the refusals. -/
def Obligations.TimeToTotCountsTheEdgesOfThePulse : Prop :=
  (∀ (s : State) (start stop : Rat) (n : Nat), 0 < s.cfg.fSys → s.cfg.epoch ≤ start → start ≤ stop →
    edgeIndex s.cfg stop - edgeIndex s.cfg start = n →
    exec (.t2tot start stop) s = .next { s with
      result := .value (if 1022 ≤ n then 0x1FF else totRegister n) }) ∧
  (∀ (s : State) (start stop : Rat), start < s.cfg.epoch →
    exec (.t2tot start stop) s = .next { s with result := .error (.range .start (.rat start)) }) ∧
  (∀ (s : State) (start stop : Rat), s.cfg.epoch ≤ start → stop < start →
    exec (.t2tot start stop) s = .next { s with result := .error (.range .stop (.rat stop)) })

/-- TOT2T (R156): the start from ToA and any fToA, the stop a ToT count later, ambiguous exactly when the ToT
decode is; the refusals in operand order. -/
def Obligations.TotGivesBackTheInterval : Prop :=
  (∀ (s : State) (tot toa : Nat) (ftoa : Option Nat), tot ≤ 1023 → toa ≤ 16383 → (∀ f, ftoa = some f → f ≤ 15) →
    ∃ n c : Nat, ∃ amb : Bool, n ≤ 16383 ∧ n ^^^ (n / 2) = toa ∧
      exec (.decTot tot) s = .next { s with result := .counted c amb } ∧
      exec (.tot2t tot toa (ftoa.map Int.ofNat)) s = .next { s with
        result := .interval ((n : Rat) / s.cfg.fSys + s.cfg.epoch - (ftoa.getD 0 : Rat) / s.cfg.fFine)
            ((n : Rat) / s.cfg.fSys + s.cfg.epoch - (ftoa.getD 0 : Rat) / s.cfg.fFine + (c : Rat) / s.cfg.fSys)
            amb }) ∧
  (∀ (s : State) (tot toa : Int) (ftoa : Option Int), tot < 0 ∨ 1023 < tot →
    exec (.tot2t tot toa ftoa) s = .next { s with result := .error (.range .tot (.int tot)) }) ∧
  (∀ (s : State) (tot : Nat) (toa : Int) (ftoa : Option Int), tot ≤ 1023 → toa < 0 ∨ 16383 < toa →
    exec (.tot2t tot toa ftoa) s = .next { s with result := .error (.range .toa (.int toa)) }) ∧
  (∀ (s : State) (tot toa : Nat) (f : Int), tot ≤ 1023 → toa ≤ 16383 → f < 0 ∨ 15 < f →
    exec (.tot2t tot toa (some f)) s = .next { s with result := .error (.range .ftoa (.int f)) })

/-- T2VAL (R157, R82): the three fields are those of T2TOA, T2FTOA and T2TOT, with 0 for ToT in `ToaOnly`; the
refusals, the mode first. The name that the last of them records is left open here (log 11). -/
def Obligations.TimeToValuesIsTheThreeConversions : Prop :=
  (∀ (s : State) (start stop : Rat) (code : ModeCode), code = 0#2 ∨ code = 1#2 →
    s.cfg.epoch ≤ start → start ≤ stop → ⌈(start - s.cfg.epoch) * s.cfg.fSys⌉ ≤ 16383 →
    ∃ toa ftoa tot : Nat,
      exec (.t2toa start) s = .next { s with result := .value toa } ∧
      exec (.t2ftoa start) s = .next { s with result := .value ftoa } ∧
      exec (.t2tot start stop) s = .next { s with result := .value tot } ∧
      exec (.t2val start stop code) s = .next { s with
        result := .timeFields toa ftoa (if code = 0#2 then tot else 0) }) ∧
  (∀ (s : State) (start stop : Rat) (code : ModeCode), code = 2#2 ∨ code = 3#2 →
    exec (.t2val start stop code) s = .next { s with result := .error (.range .mode (.code code)) }) ∧
  (∀ (s : State) (start stop : Rat) (code : ModeCode), code = 0#2 ∨ code = 1#2 → start < s.cfg.epoch →
    exec (.t2val start stop code) s = .next { s with result := .error (.range .start (.rat start)) }) ∧
  (∀ (s : State) (start stop : Rat) (code : ModeCode), code = 0#2 ∨ code = 1#2 → s.cfg.epoch ≤ start →
    stop < start →
    exec (.t2val start stop code) s = .next { s with result := .error (.range .stop (.rat stop)) }) ∧
  (∀ (s : State) (start stop : Rat) (code : ModeCode), code = 0#2 ∨ code = 1#2 → s.cfg.epoch ≤ start →
    start ≤ stop → 16383 < ⌈(start - s.cfg.epoch) * s.cfg.fSys⌉ →
    ∃ n, exec (.t2val start stop code) s = .next { s with result := .error (.range n (.rat start)) })

/-- The quantisation laws (R158): the coarse time is the system edge at or after `t`; at 16 fine ticks a tick,
counting whole ones, the fine time is within one fine tick after `t`, or 15 fine ticks before it on an edge. -/
def Obligations.QuantisationLaws : Prop :=
  (∀ (s : State) (t : Rat), 0 < s.cfg.fSys → s.cfg.epoch ≤ t →
    ⌈(t - s.cfg.epoch) * s.cfg.fSys⌉ ≤ 16383 → ∃ (g : Nat) (u : Rat),
      exec (.t2toa t) s = .next { s with result := .value g } ∧
      exec (.toa2t g) s = .next { s with result := .seconds u } ∧
      u = s.cfg.epoch + (⌈(t - s.cfg.epoch) * s.cfg.fSys⌉ : Rat) * (1 / s.cfg.fSys) ∧
      t ≤ u ∧ u < t + 1 / s.cfg.fSys) ∧
  (∀ (s : State) (t : Rat), 0 < s.cfg.fSys → s.cfg.fFine = 16 * s.cfg.fSys → s.par.ftoaCount = .floor →
    s.cfg.epoch ≤ t → ⌈(t - s.cfg.epoch) * s.cfg.fSys⌉ ≤ 16383 → ∃ (g f : Nat) (u : Rat),
      exec (.t2toa t) s = .next { s with result := .value g } ∧
      exec (.t2ftoa t) s = .next { s with result := .value f } ∧
      exec (.ftoa2t f g) s = .next { s with result := .seconds u } ∧
      ((∀ k : Nat, t ≠ s.cfg.epoch + (k : Rat) / s.cfg.fSys) → t ≤ u ∧ u < t + 1 / s.cfg.fFine) ∧
      ((∃ k : Nat, t = s.cfg.epoch + (k : Rat) / s.cfg.fSys) → u = t - 15 / s.cfg.fFine))

/-! ## The acceptor -/

/-- DEADTIME (R180): the three formulas and the refusals. That a negative `previous_tot` is refused after the mode
and before the clock is DEDUCED (log 20). -/
def Obligations.DeadTimeFormulas : Prop :=
  (∀ (s : State) (p : Nat) (f : Rat), 0 < f →
    exec (.deadtime p 0#2 f) s = .next { s with result := .seconds ((19 + (p : Rat)) / f) } ∧
    exec (.deadtime p 1#2 f) s = .next { s with result := .seconds (19 / f) } ∧
    exec (.deadtime p 2#2 f) s = .next { s with result := .seconds ((3 + (p : Rat)) / f) }) ∧
  (∀ (s : State) (p : Int) (f : Rat),
    exec (.deadtime p 3#2 f) s = .next { s with result := .error (.range .mode (.code 3#2)) }) ∧
  (∀ (s : State) (p : Int) (code : ModeCode) (f : Rat), code ≠ 3#2 → p < 0 →
    exec (.deadtime p code f) s = .next { s with result := .error (.range .previousTot (.int p)) }) ∧
  (∀ (s : State) (p : Nat) (code : ModeCode) (f : Rat), code ≠ 3#2 → f ≤ 0 →
    exec (.deadtime p code f) s = .next { s with result := .error (.range .clock (.rat f)) })

/-- ACQ_START (R181): `CFG` takes the operands, or the defaults of those left out, and every pixel is initial; on
an error nothing is written. -/
def Obligations.AcqStartWritesCfgAndResetsEveryPixel : Prop :=
  (∀ (s : State) (code : ModeCode) (m : Mode) (fSys fFine epoch : Option Rat),
    (code = 0#2 ∧ m = .toaAndTot) ∨ (code = 1#2 ∧ m = .toaOnly) ∨ (code = 2#2 ∧ m = .tick3) →
    0 < fSys.getD 40000000 → 0 < fFine.getD 640000000 → ∃ pix : PixSpace,
      exec (.acqStart code fSys fFine epoch) s = .next { s with
        cfg := ⟨some m, fSys.getD 40000000, fFine.getD 640000000, epoch.getD 0⟩
        pix := pix
        result := .done } ∧
      ∀ a, pix.read a = { prevTot := 0, prevEnd := 0, hasPrev := false, lastStart := none }) ∧
  (∀ (s : State) (fSys fFine epoch : Option Rat), exec (.acqStart 3#2 fSys fFine epoch) s =
    .next { s with result := .error (.range .mode (.code 3#2)) }) ∧
  (∀ (s : State) (code : ModeCode) (f : Rat) (fFine epoch : Option Rat), code ≠ 3#2 → f ≤ 0 →
    exec (.acqStart code (some f) fFine epoch) s = .next { s with result := .error (.range .fSys (.rat f)) }) ∧
  (∀ (s : State) (code : ModeCode) (fSys : Option Rat) (f : Rat) (epoch : Option Rat), code ≠ 3#2 →
    0 < fSys.getD 40000000 → f ≤ 0 →
    exec (.acqStart code fSys (some f) epoch) s = .next { s with result := .error (.range .fFine (.rat f)) })

/-- ACCEPT (R182, R183, R184): with `n` the pulse's edges capped at 1022 and `p` the pixel's record, the width test,
then the strict dead-time test, then acceptance; the pixel's record is all that is written. -/
def Obligations.AcceptTestsWidthThenDeadTime : Prop :=
  ∀ (s : State) (m : Mode) (a k : Nat) (start stop : Rat), 0 < s.cfg.fSys → s.cfg.mode = some m → a ≤ 65535 →
    s.cfg.epoch ≤ start → start ≤ stop →
    (∀ ls, (s.pix.read a).lastStart = some ls → ls ≤ start) →
    edgeIndex s.cfg stop - edgeIndex s.cfg start = k →
    exec (.accept a start stop) s =
      if k = 0 then
        .next { s with
          pix := s.pix.write a { s.pix.read a with lastStart := some start }
          result := .verdict .rejectWidth }
      else if (s.pix.read a).hasPrev = true ∧ start - (s.pix.read a).prevEnd <
          (match m with
            | .toaAndTot => (19 + ((s.pix.read a).prevTot : Rat)) / s.cfg.fSys
            | .toaOnly => 19 / s.cfg.fSys
            | .tick3 => (3 + ((s.pix.read a).prevTot : Rat)) / s.cfg.fSys) then
        .next { s with
          pix := s.pix.write a { s.pix.read a with lastStart := some start }
          result := .verdict .rejectDead }
      else
        .next { s with
          pix := s.pix.write a { prevTot := min k 1022, prevEnd := stop, hasPrev := true, lastStart := some start }
          result := .verdict .accept }

/-- ACCEPT's refusals (R184), in order: no acquisition, the address, the epoch, the reversed pulse, the start
before the pixel's last one. Nothing is written. -/
def Obligations.AcceptRefusesInOrder : Prop :=
  (∀ (s : State) (a : Int) (start stop : Rat), s.cfg.mode = none → ∃ v, exec (.accept a start stop) s =
    .next { s with result := .error (.range .mode v) }) ∧
  (∀ (s : State) (a : Int) (start stop : Rat), s.cfg.mode ≠ none → a < 0 ∨ 65535 < a →
    exec (.accept a start stop) s = .next { s with result := .error (.range .address (.int a)) }) ∧
  (∀ (s : State) (a : Nat) (start stop : Rat), s.cfg.mode ≠ none → a ≤ 65535 → start < s.cfg.epoch →
    exec (.accept a start stop) s = .next { s with result := .error (.range .start (.rat start)) }) ∧
  (∀ (s : State) (a : Nat) (start stop : Rat), s.cfg.mode ≠ none → a ≤ 65535 → s.cfg.epoch ≤ start →
    stop < start →
    exec (.accept a start stop) s = .next { s with result := .error (.range .stop (.rat stop)) }) ∧
  (∀ (s : State) (a : Nat) (start stop ls : Rat), s.cfg.mode ≠ none → a ≤ 65535 → s.cfg.epoch ≤ start →
    start ≤ stop → (s.pix.read a).lastStart = some ls → start < ls →
    exec (.accept a start stop) s = .next { s with result := .error (.range .start (.rat start)) })

/-- An ACCEPT leaves every other pixel's record as it was, and its own pixel then reads as what was written
(R30, R184). -/
def Obligations.AcceptWritesItsOwnPixelOnly : Prop :=
  ∀ (s t : State) (a : Nat) (start stop : Rat), exec (.accept a start stop) s = .next t →
    (∀ c, c ≠ a → t.pix.read c = s.pix.read c) ∧
    (∀ v, t.result = .verdict v → s.pix.wf →
      (t.pix.read a).lastStart = some start ∧
      (v = .accept → (t.pix.read a).hasPrev = true ∧ (t.pix.read a).prevEnd = stop) ∧
      (v ≠ .accept → (t.pix.read a).hasPrev = (s.pix.read a).hasPrev ∧
        (t.pix.read a).prevTot = (s.pix.read a).prevTot ∧ (t.pix.read a).prevEnd = (s.pix.read a).prevEnd))

/-- ACCEPTs on distinct pixels commute: either order gives the same pixels and each the same answer (R62). -/
def Obligations.AcceptsOnDistinctPixelsCommute : Prop :=
  ∀ (s : State) (a b : Int) (start stop start' stop' : Rat), a ≠ b → s.pix.wf →
    ∃ sa sb sab sba : State,
      exec (.accept a start stop) s = .next sa ∧ exec (.accept b start' stop') sa = .next sab ∧
      exec (.accept b start' stop') s = .next sb ∧ exec (.accept a start stop) sb = .next sba ∧
      sab.pix = sba.pix ∧ sab.result = sb.result ∧ sba.result = sa.result

/-- ACCEPT_SEQ is ACCEPT on a fresh pixel, pulse after pulse: the same outcomes, or the same first error (R82,
R185). -/
def Obligations.AcceptSeqIsAcceptPulseByPulse : Prop :=
  (∀ (s : State) (code : ModeCode) (m : Mode) (a : Nat) (ps : List Pulse),
    (code = 0#2 ∧ m = .toaAndTot) ∨ (code = 1#2 ∧ m = .toaOnly) ∨ (code = 2#2 ∧ m = .tick3) →
    s.cfg.mode = some m → a ≤ 65535 → s.pix.wf → s.pix.read a = PixRec.init →
    exec (.acceptSeq code ps) s = .next { s with
      result := match acceptEach a s ps with
        | .ok vs => .verdicts vs
        | .error e => .error e }) ∧
  (∀ (s : State) (ps : List Pulse), exec (.acceptSeq 3#2 ps) s =
    .next { s with result := .error (.range .mode (.code 3#2)) })

/-- ACCEPT_SEQ gives one outcome per pulse of a sorted sequence in the time domain, and `PIX` is not touched
(R185). -/
def Obligations.AcceptSeqAnswersEverySortedSequence : Prop :=
  ∀ (s : State) (code : ModeCode) (ps : List Pulse), code ≠ 3#2 →
    (∀ p ∈ ps, s.cfg.epoch ≤ p.start ∧ p.start ≤ p.stop) → ps.Pairwise (fun p q => p.start ≤ q.start) →
    ∃ vs : List Verdict, vs.length = ps.length ∧
      exec (.acceptSeq code ps) s = .next { s with result := .verdicts vs }

/-- The spacing of accepted pulses (R187): of two accepted pulses of a pixel the later one starts no sooner
than the dead time after the earlier one's end, whatever was rejected between them, and their ToA tick counts
rise strictly. -/
def Obligations.AcceptedPulsesAreDeadTimeApart : Prop :=
  ∀ (s : State) (code : ModeCode) (m : Mode) (ps : List Pulse) (vs : List Verdict), 0 < s.cfg.fSys →
    (code = 0#2 ∧ m = .toaAndTot) ∨ (code = 1#2 ∧ m = .toaOnly) ∨ (code = 2#2 ∧ m = .tick3) →
    exec (.acceptSeq code ps) s = .next { s with result := .verdicts vs } →
    ∀ (i j : Nat) (p q : Pulse), i < j → ps[i]? = some p → ps[j]? = some q →
      vs[i]? = some .accept → vs[j]? = some .accept →
      ∃ n : Nat, 1 ≤ n ∧ (n : Int) = min (edgeIndex s.cfg p.stop - edgeIndex s.cfg p.start) 1022 ∧
        p.stop + (match m with
          | .toaAndTot => (19 + (n : Rat)) / s.cfg.fSys
          | .toaOnly => 19 / s.cfg.fSys
          | .tick3 => (3 + (n : Rat)) / s.cfg.fSys) ≤ q.start ∧
        p.start + 4 / s.cfg.fSys ≤ q.start ∧
        ⌈(p.start - s.cfg.epoch) * s.cfg.fSys⌉ < ⌈(q.start - s.cfg.epoch) * s.cfg.fSys⌉

/-! ## Packets -/

/-- PKT_ASM (R200): header, address, toa, secondary and ftoa at their places, and the refusals in field order. -/
def Obligations.PacketAssemblyPlacesTheFields : Prop :=
  (∀ (s : State) (a toa sec ftoa : Nat), a ≤ 65535 → toa ≤ 16383 → sec ≤ 1023 → ftoa ≤ 15 →
    exec (.pktAsm a toa sec ftoa) s = .next { s with
      result := .word (10 * 2 ^ 44 + a * 2 ^ 28 + toa * 2 ^ 14 + sec * 2 ^ 4 + ftoa) }) ∧
  (∀ (s : State) (a toa sec ftoa : Int), a < 0 ∨ 65535 < a → exec (.pktAsm a toa sec ftoa) s =
    .next { s with result := .error (.range .address (.int a)) }) ∧
  (∀ (s : State) (a : Nat) (toa sec ftoa : Int), a ≤ 65535 → toa < 0 ∨ 16383 < toa →
    exec (.pktAsm a toa sec ftoa) s = .next { s with result := .error (.range .toa (.int toa)) }) ∧
  (∀ (s : State) (a toa : Nat) (sec ftoa : Int), a ≤ 65535 → toa ≤ 16383 → sec < 0 ∨ 1023 < sec →
    exec (.pktAsm a toa sec ftoa) s = .next { s with result := .error (.range .secondary (.int sec)) }) ∧
  (∀ (s : State) (a toa sec : Nat) (ftoa : Int), a ≤ 65535 → toa ≤ 16383 → sec ≤ 1023 → ftoa < 0 ∨ 15 < ftoa →
    exec (.pktAsm a toa sec ftoa) s = .next { s with result := .error (.range .ftoa (.int ftoa)) })

/-- PKT_DIS (R201, R72): the four fields of a 48-bit word, its header checked under `strict` only; the refusals.
That the refusal of a bad header is recorded under the name `header` is the model's choice (log 11). -/
def Obligations.PacketDisassemblySlicesTheWord : Prop :=
  (∀ (s : State) (w : Nat), w < 2 ^ 48 → w / 2 ^ 44 = 10 ∨ s.par.headerCheck = .ignore →
    exec (.pktDis w) s = .next { s with
      result := .packet (w / 2 ^ 28 % 2 ^ 16) (w / 2 ^ 14 % 2 ^ 14) (w / 2 ^ 4 % 2 ^ 10) (w % 2 ^ 4) }) ∧
  (∀ (s : State) (w : Nat), w < 2 ^ 48 → w / 2 ^ 44 ≠ 10 → s.par.headerCheck = .strict →
    exec (.pktDis w) s = .next { s with result := .error (.range .header (.int (w / 2 ^ 44 : Nat))) }) ∧
  (∀ (s : State) (w : Int), w < 0 ∨ 2 ^ 48 ≤ w →
    exec (.pktDis w) s = .next { s with result := .error (.range .word (.int w)) })

/-- The packet round-trip laws (R207). -/
def Obligations.PacketRoundTrips : Prop :=
  (∀ (s : State) (a toa sec ftoa : Nat), a ≤ 65535 → toa ≤ 16383 → sec ≤ 1023 → ftoa ≤ 15 → ∃ w : Nat,
    exec (.pktAsm a toa sec ftoa) s = .next { s with result := .word w } ∧
    exec (.pktDis w) s = .next { s with result := .packet a toa sec ftoa }) ∧
  (∀ (s : State) (w : Nat), w < 2 ^ 48 → w / 2 ^ 44 = 10 → ∃ a toa sec ftoa : Nat,
    exec (.pktDis w) s = .next { s with result := .packet a toa sec ftoa } ∧
    exec (.pktAsm a toa sec ftoa) s = .next { s with result := .word w })

/-- HIT_ENC (R202, R82): the packet of the address and of T2VAL's fields, with the dummy secondary in `ToaOnly`;
the refusals: the mode, the address, then those of T2VAL. -/
def Obligations.HitEncodingAssemblesTheTimeFields : Prop :=
  (∀ (s : State) (a : Nat) (start stop : Rat) (code : ModeCode), code = 0#2 ∨ code = 1#2 → a ≤ 65535 →
    s.cfg.epoch ≤ start → start ≤ stop → ⌈(start - s.cfg.epoch) * s.cfg.fSys⌉ ≤ 16383 →
    ∃ toa ftoa tot : Nat,
      exec (.t2val start stop code) s = .next { s with result := .timeFields toa ftoa tot } ∧
      exec (.hitEnc a start stop code) s = .next { s with
        result := .word
          (10 * 2 ^ 44 + a * 2 ^ 28 + toa * 2 ^ 14
            + (if code = 0#2 then tot else s.par.dummySecondary.toNat) * 2 ^ 4 + ftoa) }) ∧
  (∀ (s : State) (a : Int) (start stop : Rat) (code : ModeCode), code = 2#2 ∨ code = 3#2 →
    exec (.hitEnc a start stop code) s = .next { s with result := .error (.range .mode (.code code)) }) ∧
  (∀ (s : State) (a : Int) (start stop : Rat) (code : ModeCode), code = 0#2 ∨ code = 1#2 → a < 0 ∨ 65535 < a →
    exec (.hitEnc a start stop code) s = .next { s with result := .error (.range .address (.int a)) }) ∧
  (∀ (s : State) (a : Nat) (start stop : Rat) (code : ModeCode) (e : HardError), code = 0#2 ∨ code = 1#2 →
    a ≤ 65535 → exec (.t2val start stop code) s = .next { s with result := .error e } →
    exec (.hitEnc a start stop code) s = .next { s with result := .error e })

/-- HIT_DEC (R203): the coordinate, the fields raw or decoded, and the times when asked for; in `ToaOnly` the
secondary stays raw, there is no stop and no ambiguity; the refusals: the mode, then those of PKT_DIS. -/
def Obligations.HitDecodingRecoversTheRecord : Prop :=
  (∀ (s : State) (w : Nat) (code : ModeCode) (wt wd : Bool), code = 0#2 ∨ code = 1#2 → w < 2 ^ 48 →
    w / 2 ^ 44 = 10 ∨ s.par.headerCheck = .ignore →
    ∃ a toa sec ftoa x y n c : Nat, ∃ amb : Bool,
      exec (.pktDis w) s = .next { s with result := .packet a toa sec ftoa } ∧
      exec (.addrDec a) s = .next { s with result := .coordinate x y } ∧
      exec (.decToa toa) s = .next { s with result := .value n } ∧
      exec (.decTot sec) s = .next { s with result := .counted c amb } ∧
      exec (.hitDec w code wt wd) s = .next { s with
        result := .hit
          { x := x
            y := y
            toa := if wd = true then n else toa
            secondary := if wd = true ∧ code = 0#2 then c else sec
            ftoa := ftoa
            start := if wt = true then
              some ((n : Rat) / s.cfg.fSys + s.cfg.epoch - (ftoa : Rat) / s.cfg.fFine) else none
            stop := if wt = true ∧ code = 0#2 then
              some ((n : Rat) / s.cfg.fSys + s.cfg.epoch - (ftoa : Rat) / s.cfg.fFine + (c : Rat) / s.cfg.fSys)
              else none
            ambiguous := decide (code = 0#2) && amb } }) ∧
  (∀ (s : State) (w : Int) (code : ModeCode) (wt wd : Bool), code = 2#2 ∨ code = 3#2 →
    exec (.hitDec w code wt wd) s = .next { s with result := .error (.range .mode (.code code)) }) ∧
  (∀ (s : State) (w : Int) (code : ModeCode) (wt wd : Bool) (e : HardError), code = 0#2 ∨ code = 1#2 →
    exec (.pktDis w) s = .next { s with result := .error e } →
    exec (.hitDec w code wt wd) s = .next { s with result := .error e })

/-- PKT_SER (R204): the six bytes of a word, most significant first, header unchecked; the refusal. What the
stream then holds is `EmittedBytesAreTheOutputStream`. -/
def Obligations.PacketSerialisesBigEndian : Prop :=
  (∀ (s : State) (w : Nat), w < 2 ^ 48 → ∃ m : Memory, exec (.pktSer w) s = .next { s with
    stream := m
    result := .bytes [BitVec.ofNat 8 (w / 2 ^ 40), BitVec.ofNat 8 (w / 2 ^ 32), BitVec.ofNat 8 (w / 2 ^ 24),
      BitVec.ofNat 8 (w / 2 ^ 16), BitVec.ofNat 8 (w / 2 ^ 8), BitVec.ofNat 8 w] }) ∧
  (∀ (s : State) (w : Int), w < 0 ∨ 2 ^ 48 ≤ w →
    exec (.pktSer w) s = .next { s with result := .error (.range .word (.int w)) })

/-- PKT_DES (R205): the word of six bytes, the first byte on top; the refusal names the first byte that is not a
byte. -/
def Obligations.PacketDeserialisesBigEndian : Prop :=
  (∀ (s : State) (b : Nat → Nat), (∀ j < 6, b j ≤ 255) →
    exec (.pktDes (b 0) (b 1) (b 2) (b 3) (b 4) (b 5)) s = .next { s with
      result := .word (∑ j ∈ Finset.range 6, b j * 2 ^ (40 - 8 * j)) }) ∧
  (∀ (s : State) (b : Nat → Int) (j : Nat), j < 6 → (∀ i < j, 0 ≤ b i ∧ b i ≤ 255) → b j < 0 ∨ 255 < b j →
    exec (.pktDes (b 0) (b 1) (b 2) (b 3) (b 4) (b 5)) s =
      .next { s with result := .error (.range (.byte j) (.int (b j))) })

/-- `PKT_DES (PKT_SER w) = w` for every 48-bit word (R205). -/
def Obligations.SerialisedWordsReadBack : Prop :=
  ∀ (s : State) (w : Nat), w < 2 ^ 48 → ∃ (m : Memory) (b0 b1 b2 b3 b4 b5 : Byte),
    exec (.pktSer w) s = .next { s with stream := m, result := .bytes [b0, b1, b2, b3, b4, b5] } ∧
    exec (.pktDes b0.toNat b1.toNat b2.toNat b3.toNat b4.toNat b5.toNat) s =
      .next { s with result := .word w }

/-- The bytes PKT_SER and ENC_STREAM return are the output stream, from offset 0 and nothing beyond (R54, R55);
any other operation, and any that raises an error, leaves every byte of the stream as it was. That the stream of
an earlier operation is replaced is the model's choice (log 4). -/
def Obligations.EmittedBytesAreTheOutputStream : Prop :=
  ∀ (i : Instr) (s t : State), exec i s = .next t →
    (∀ bs, emitsBytes i = true → t.result = .bytes bs → ∀ j, t.stream.read j = bs[j]?) ∧
    ((emitsBytes i = false ∨ ∃ e, t.result = .error e) → ∀ j, t.stream.read j = s.stream.read j)

/-- STREAM_SPLIT (R206): the words of the records of a stream, in order; a length that is no multiple of six is
malformed, and the first byte that is not a byte is refused by its place in its record. -/
def Obligations.StreamSplitsIntoRecords : Prop :=
  (∀ (s : State) (bs : List Nat), bs.length % 6 = 0 → (∀ b ∈ bs, b ≤ 255) →
    exec (.streamSplit (bs.map Int.ofNat)) s = .next { s with
      result := .words ((List.range (bs.length / 6)).map fun i =>
          ∑ j ∈ Finset.range 6, bs.getD (6 * i + j) 0 * 2 ^ (40 - 8 * j)) }) ∧
  (∀ (s : State) (bs : List Int), bs.length % 6 ≠ 0 →
    exec (.streamSplit bs) s = .next { s with result := .error (.malformedFile bs.length) }) ∧
  (∀ (s : State) (bs : List Int) (k : Nat) (v : Int), bs.length % 6 = 0 → bs[k]? = some v →
    (∀ i < k, ∀ b, bs[i]? = some b → 0 ≤ b ∧ b ≤ 255) → v < 0 ∨ 255 < v →
    exec (.streamSplit bs) s = .next { s with result := .error (.range (.byte (k % 6)) (.int v)) })

/-- PKT48 (R71, R72): a packet presented by itself gives back its fields. The spec gives the format and not a
transaction: that presenting it returns its fields is the model's choice (log 5). -/
def Obligations.PresentedPacketReturnsItsFields : Prop :=
  (∀ (s : State) (a : BitVec 16) (toa : BitVec 14) (sec : BitVec 10) (ftoa : BitVec 4),
    exec (.pkt48 a toa sec ftoa) s =
      .next { s with result := .packet a.toNat toa.toNat sec.toNat ftoa.toNat }) ∧
  (∀ (s : State) (w : Nat) (rest : List Request), w < 2 ^ 48 → w / 2 ^ 44 = 10 →
    s.pending = ⟨beBytes 6 w, []⟩ :: rest →
    step s = .next { s with
      pending := rest
      result := .packet (w / 2 ^ 28 % 2 ^ 16) (w / 2 ^ 14 % 2 ^ 14) (w / 2 ^ 4 % 2 ^ 10) (w % 2 ^ 4) })

/-! ## Streams -/

/-- ENC_STREAM completes on every batch that R220 has a stream for and on no other; an unsupported mode is refused
before anything else, then the first hit, in input order, that is off the grid or outside the time domain (R245). -/
def Obligations.EncStreamAnswersExactlyTheEncodableBatches : Prop :=
  (∀ (s : State) (code : ModeCode) (m : Mode) (hits : List Hit),
    (code = 0#2 ∧ m = .toaAndTot) ∨ (code = 1#2 ∧ m = .toaOnly) → encodable s.cfg m hits →
    ∃ (bytes : List Byte) (stream : Memory),
      exec (.encStream hits code) s = .next { s with stream := stream, result := .bytes bytes }) ∧
  (∀ (s : State) (code : ModeCode) (m : Mode) (hits : List Hit),
    (code = 0#2 ∧ m = .toaAndTot) ∨ (code = 1#2 ∧ m = .toaOnly) → ¬ encodable s.cfg m hits →
    ∃ n v, exec (.encStream hits code) s = .next { s with result := .error (.range n v) }) ∧
  (∀ (s : State) (code : ModeCode) (hits : List Hit), code = 2#2 ∨ code = 3#2 →
    exec (.encStream hits code) s = .next { s with result := .error (.range .mode (.code code)) }) ∧
  (∀ (s : State) (code : ModeCode) (pre : List Hit) (h : Hit) (post : List Hit), code = 0#2 ∨ code = 1#2 →
    (∀ g ∈ pre, inDomain s.cfg g) →
    (h.x < 0 ∨ 255 < h.x → exec (.encStream (pre ++ h :: post) code) s =
      .next { s with result := .error (.range .x (.int h.x)) }) ∧
    (0 ≤ h.x → h.x ≤ 255 → h.y < 0 ∨ 255 < h.y → exec (.encStream (pre ++ h :: post) code) s =
      .next { s with result := .error (.range .y (.int h.y)) }) ∧
    (0 ≤ h.x → h.x ≤ 255 → 0 ≤ h.y → h.y ≤ 255 → h.start < s.cfg.epoch →
      exec (.encStream (pre ++ h :: post) code) s =
        .next { s with result := .error (.range .start (.rat h.start)) }) ∧
    (0 ≤ h.x → h.x ≤ 255 → 0 ≤ h.y → h.y ≤ 255 → s.cfg.epoch ≤ h.start → h.stop < h.start →
      exec (.encStream (pre ++ h :: post) code) s =
        .next { s with result := .error (.range .stop (.rat h.stop)) }))

/-- What a stream ENC_STREAM returns holds (R220, R64): one packet per accepted hit of each pixel, no other, in
ascending decoded ToA, ties by address, each as six big-endian bytes. -/
def Obligations.EncStreamMergesTheAcceptedPackets : Prop :=
  ∀ (s t : State) (code : ModeCode) (m : Mode) (hits : List Hit) (bytes : List Byte),
    (code = 0#2 ∧ m = .toaAndTot) ∨ (code = 1#2 ∧ m = .toaOnly) →
    exec (.encStream hits code) s = .next t → t.result = .bytes bytes →
    ∃ ws : List Nat, bytes = ws.flatMap (beBytes 6) ∧
      ws.Perm ((List.range 65536).flatMap fun a => acceptedPackets s m a hits) ∧
      ws.Pairwise streamOrder

/-- DEC_STREAM (R221): one record per word of the stream, in stream order, each that of HIT_DEC; the refusals: the
mode, those of STREAM_SPLIT, then the first that HIT_DEC gives. -/
def Obligations.DecStreamDecodesEveryRecordInOrder : Prop :=
  (∀ (s : State) (bs : List Nat) (code : ModeCode) (wt wd : Bool), code = 0#2 ∨ code = 1#2 →
    bs.length % 6 = 0 → (∀ b ∈ bs, b ≤ 255) →
    (s.par.headerCheck = .ignore ∨ ∀ i < bs.length / 6, bs.getD (6 * i) 0 / 16 = 10) →
    ∃ (ws : List Nat) (rs : List HitRecord),
      exec (.streamSplit (bs.map Int.ofNat)) s = .next { s with result := .words ws } ∧
      List.Forall₂ (fun (w : Nat) r => exec (.hitDec w code wt wd) s = .next { s with result := .hit r }) ws rs ∧
      exec (.decStream (bs.map Int.ofNat) code wt wd) s = .next { s with result := .hits rs }) ∧
  (∀ (s : State) (bs : List Int) (code : ModeCode) (wt wd : Bool), code = 2#2 ∨ code = 3#2 →
    exec (.decStream bs code wt wd) s = .next { s with result := .error (.range .mode (.code code)) }) ∧
  (∀ (s : State) (bs : List Int) (code : ModeCode) (wt wd : Bool) (e : HardError), code = 0#2 ∨ code = 1#2 →
    exec (.streamSplit bs) s = .next { s with result := .error e } →
    exec (.decStream bs code wt wd) s = .next { s with result := .error e }) ∧
  (∀ (s : State) (bs : List Int) (pre : List Nat) (w : Nat) (post : List Nat) (code : ModeCode) (wt wd : Bool)
    (e : HardError), code = 0#2 ∨ code = 1#2 →
    exec (.streamSplit bs) s = .next { s with result := .words (pre ++ w :: post) } →
    (∀ v ∈ pre, ∃ r, exec (.hitDec (v : Nat) code wt wd) s = .next { s with result := .hit r }) →
    exec (.hitDec w code wt wd) s = .next { s with result := .error e } →
    exec (.decStream bs code wt wd) s = .next { s with result := .error e })

/-- The stream round-trip law (R222): decoding an encoded stream, in any state, gives exactly one record per
accepted hit, in ascending decoded-ToA order, ties by address, with the fields of the packets bit for bit. -/
def Obligations.StreamRoundTrip : Prop :=
  ∀ (s t u : State) (code : ModeCode) (m : Mode) (hits : List Hit) (bytes : List Byte),
    (code = 0#2 ∧ m = .toaAndTot) ∨ (code = 1#2 ∧ m = .toaOnly) →
    exec (.encStream hits code) s = .next t → t.result = .bytes bytes →
    ∃ (ws : List Nat) (rs : List HitRecord),
      ws.Perm ((List.range 65536).flatMap fun a => acceptedPackets s m a hits) ∧
      ws.Pairwise streamOrder ∧
      exec (.decStream (bytes.map fun b => (b.toNat : Int)) code false false) u =
        .next { u with result := .hits rs } ∧
      List.Forall₂ (fun (w : Nat) (r : HitRecord) =>
        exec (.addrDec (w / 2 ^ 28 % 2 ^ 16 : Nat)) u = .next { u with result := .coordinate r.x r.y } ∧
        r.toa = w / 2 ^ 14 % 2 ^ 14 ∧ r.secondary = w / 2 ^ 4 % 2 ^ 10 ∧ r.ftoa = w % 2 ^ 4 ∧
        r.start = none ∧ r.stop = none) ws rs

/-- The mode-mismatch hazard (R265): a `ToaOnly` packet with the default dummy secondary, decoded as `ToaAndTot`,
gives a record with ToT 0 that is marked ambiguous. -/
def Obligations.ToaOnlyPacketReadAsToaAndTotIsAmbiguous : Prop :=
  ∀ (s : State) (a : Nat) (start stop : Rat) (wt wd : Bool), s.par.dummySecondary = 0#10 → a ≤ 65535 →
    s.cfg.epoch ≤ start → start ≤ stop → ⌈(start - s.cfg.epoch) * s.cfg.fSys⌉ ≤ 16383 →
    ∃ (w : Nat) (r : HitRecord),
      exec (.hitEnc a start stop 1#2) s = .next { s with result := .word w } ∧
      exec (.hitDec w 0#2 wt wd) s = .next { s with result := .hit r } ∧
      r.secondary = 0 ∧ r.ambiguous = true

/-! ## Errors, writers and reset -/

/-- A hard error writes none of the state and leaves no partial result: the state after it is the state before,
with the error as the result (R244). -/
def Obligations.HardErrorsLeaveTheBlockAsItWas : Prop :=
  ∀ (i : Instr) (s t : State) (e : HardError), exec i s = .next t → t.result = .error e →
    t = { s with result := .error e }

/-- An operand outside its domain raises a hard error and nothing else happens (R76): whatever is not well formed
is refused. -/
def Obligations.OperandsOutsideTheirDomainAreRefused : Prop :=
  ∀ (i : Instr) (s : State), i.wf = false → ∃ e, exec i s = .next { s with result := .error e }

/-- The only operations that write state are ACCEPT, which writes pixels, and ACQ_START, which writes `CFG` and the
pixels (R59); none writes the parameters, and none stops the machine. -/
def Obligations.OnlyAcceptAndAcqStartWriteState : Prop :=
  ∀ (i : Instr) (s : State), ∃ t, exec i s = .next t ∧ t.par = s.par ∧ t.pending = s.pending ∧
    (writesState i = false → t.cfg = s.cfg ∧ t.pix = s.pix) ∧
    ((∀ c f g e, i ≠ .acqStart c f g e) → t.cfg = s.cfg)

/-- What an operation other than ACCEPT and ACQ_START answers depends on the clocks, the epoch and the parameters
alone: not on the mode, the pixels, the stream, or any earlier result (R261, R265). -/
def Obligations.PureOperationsReadOnlyClocksAndParameters : Prop :=
  ∀ (i : Instr) (s t s' t' : State), writesState i = false →
    s.cfg.fSys = t.cfg.fSys → s.cfg.fFine = t.cfg.fFine → s.cfg.epoch = t.cfg.epoch → s.par = t.par →
    exec i s = .next s' → exec i t = .next t' → s'.result = t'.result

/-- The state after reset (R260), and that ACQ_START leaves the pixels as reset does (R261). -/
def Obligations.ResetState : Prop :=
  State.reset.cfg = { mode := none, fSys := 40000000, fFine := 640000000, epoch := 0 } ∧
  (∀ a, State.reset.pix.read a = { prevTot := 0, prevEnd := 0, hasPrev := false, lastStart := none }) ∧
  (∀ (s t : State) (code : ModeCode) (fSys fFine epoch : Option Rat),
    exec (.acqStart code fSys fFine epoch) s = .next t → t.result = .done → t.pix = State.reset.pix)

/-- The reset state has the invariant, and so has that of any instance given legal parameters (R29, R262). -/
def Obligations.ResetHasTheInvariant : Prop :=
  State.reset.Inv ∧ ∀ (p : Params) (h : legalParams p), (State.resetWith p h).Inv

/-- Every step keeps the invariant, from every state that has it: positive clocks, OPEN parameters that are legal
where supplied (R29), canonical pixels, records in
which `prev_tot` is 1 to 1022 exactly when there was an accepted pulse (R30), no record before an acquisition
(R184), and a stream of whole records (R54). -/
def Obligations.EveryStepKeepsTheInvariant : Prop :=
  ∀ s t : State, s.Inv → step s = .next t → t.Inv
end

