-- ==== Sys2Proof/Laws/Bits.lean ====
section
/-! SUPPORT. Bit fields as quotients and remainders, and big-endian byte images. -/

namespace Sys2Proof.Laws

open Sys2Proof.Machine

theorem slice_eq (v hi lo : Nat) : slice v hi lo = v / 2 ^ lo % 2 ^ (hi - lo + 1) := by
  rw [slice, Nat.shiftRight_eq_div_pow, Nat.and_two_pow_sub_one_eq_mod]

theorem bitAt_eq (v i : Nat) : bitAt v i = v / 2 ^ i % 2 := by
  rw [bitAt, Nat.shiftRight_eq_div_pow, Nat.and_one_is_mod]

theorem slice_lt (v hi lo : Nat) : slice v hi lo < 2 ^ (hi - lo + 1) := by
  rw [slice_eq]; exact Nat.mod_lt _ (Nat.two_pow_pos _)

/-- A shifted field and a field that fits below it: OR is addition. -/
theorem shiftLeft_or_eq_add {a b i : Nat} (h : b < 2 ^ i) : (a <<< i) ||| b = a * 2 ^ i + b := by
  rw [← Nat.shiftLeft_add_eq_or_of_lt h, Nat.shiftLeft_eq]

/-- The packet formula of R200 as a sum, for fields that fit (R71). -/
theorem packetWord_eq {a g sec f : Nat} (ha : a < 2 ^ 16) (hg : g < 2 ^ 14) (hs : sec < 2 ^ 10)
    (hf : f < 2 ^ 4) :
    packetWord a g sec f = 10 * 2 ^ 44 + a * 2 ^ 28 + g * 2 ^ 14 + sec * 2 ^ 4 + f := by
  have h1 : (0b1010 <<< 44) ||| (a <<< 28) = (10 * 2 ^ 16 + a) <<< 28 := by
    rw [shiftLeft_or_eq_add (by rw [Nat.shiftLeft_eq]; omega), Nat.shiftLeft_eq, Nat.shiftLeft_eq]; omega
  have h2 : ((10 * 2 ^ 16 + a) <<< 28) ||| (g <<< 14) = ((10 * 2 ^ 16 + a) * 2 ^ 14 + g) <<< 14 := by
    rw [shiftLeft_or_eq_add (by rw [Nat.shiftLeft_eq]; omega), Nat.shiftLeft_eq, Nat.shiftLeft_eq]; omega
  have h3 : (((10 * 2 ^ 16 + a) * 2 ^ 14 + g) <<< 14) ||| (sec <<< 4)
      = (((10 * 2 ^ 16 + a) * 2 ^ 14 + g) * 2 ^ 10 + sec) <<< 4 := by
    rw [shiftLeft_or_eq_add (by rw [Nat.shiftLeft_eq]; omega), Nat.shiftLeft_eq, Nat.shiftLeft_eq]; omega
  rw [packetWord, h1, h2, h3, shiftLeft_or_eq_add hf]; omega

theorem beBytes_length (n v : Nat) : (beBytes n v).length = n := by
  induction n with
  | zero => rfl
  | succ n ih => simp [beBytes, ih]

/-- The byte at offset `j` of a big-endian image, as a number (R55). -/
theorem beBytes_toNat (n v j : Nat) (h : j < (beBytes n v).length) :
    ((beBytes n v)[j]).toNat = v / 2 ^ (8 * (n - 1 - j)) % 256 := by
  induction n generalizing j with
  | zero => simp [beBytes] at h
  | succ n ih =>
    cases j with
    | zero =>
      simp [beBytes, slice_eq]
    | succ j =>
      have hj : j < (beBytes n v).length := by simpa [beBytes] using h
      simp only [beBytes, List.getElem_cons_succ]
      rw [ih j hj]; congr 3; omega

/-- Six bytes as one number (R205). -/
theorem beNat_six {b0 b1 b2 b3 b4 b5 : Nat} (h1 : b1 < 256) (h2 : b2 < 256)
    (h3 : b3 < 256) (h4 : b4 < 256) (h5 : b5 < 256) :
    beNat [b0, b1, b2, b3, b4, b5] =
      b0 * 2 ^ 40 + b1 * 2 ^ 32 + b2 * 2 ^ 24 + b3 * 2 ^ 16 + b4 * 2 ^ 8 + b5 := by
  have step : ∀ acc b : Nat, b < 256 → (acc <<< 8) ||| b = acc * 2 ^ 8 + b :=
    fun acc b h => shiftLeft_or_eq_add (i := 8) h
  simp only [beNat, List.foldl_cons, List.foldl_nil]
  rw [step _ b5 h5, step _ b4 h4, step _ b3 h3, step _ b2 h2, step _ b1 h1, Nat.zero_shiftLeft, Nat.zero_or]
  omega

/-- The six bytes of a word, as numbers (R55, R204). -/
theorem beBytes_six (w : Nat) : (beBytes 6 w).map BitVec.toNat =
    [w / 2 ^ 40 % 256, w / 2 ^ 32 % 256, w / 2 ^ 24 % 256, w / 2 ^ 16 % 256, w / 2 ^ 8 % 256, w % 256] := by
  simp [beBytes, slice_eq]

/-- The six bytes of a 48-bit word, read back (R204, R205). -/
theorem beNat_beBytes_six {w : Nat} (h : w < 2 ^ 48) :
    beNat ((beBytes 6 w).map BitVec.toNat) = w := by
  have hb : ∀ n : Nat, n % 256 < 256 := fun n => Nat.mod_lt _ (by norm_num)
  rw [beBytes_six, beNat_six (hb _) (hb _) (hb _) (hb _) (hb _)]
  omega

/-- The slices of a 48-bit word with header 1010 assemble to the word (R71, R72). -/
theorem packetWord_slices {w : Nat} (hh : w / 2 ^ 44 = 10) :
    packetWord (slice w 43 28) (slice w 27 14) (slice w 13 4) (slice w 3 0) = w := by
  rw [packetWord_eq (slice_lt w 43 28) (slice_lt w 27 14) (slice_lt w 13 4) (slice_lt w 3 0)]
  simp only [slice_eq]; omega

/-- Six bytes are the byte image of the number they make (R55, R205). -/
theorem beBytes_six_beNat (b0 b1 b2 b3 b4 b5 : Byte) :
    beBytes 6 (beNat [b0.toNat, b1.toNat, b2.toNat, b3.toNat, b4.toNat, b5.toNat]) = [b0, b1, b2, b3, b4, b5] := by
  have inj : Function.Injective (List.map (BitVec.toNat : Byte → Nat)) :=
    List.map_injective_iff.2 fun _ _ h => BitVec.eq_of_toNat_eq h
  have h0 := b0.isLt; have h1 := b1.isLt; have h2 := b2.isLt
  have h3 := b3.isLt; have h4 := b4.isLt; have h5 := b5.isLt
  apply inj
  rw [beBytes_six, beNat_six h1 h2 h3 h4 h5]
  simp only [List.map_cons, List.map_nil]
  generalize b0.toNat = n0 at *; generalize b1.toNat = n1 at *; generalize b2.toNat = n2 at *
  generalize b3.toNat = n3 at *; generalize b4.toNat = n4 at *; generalize b5.toNat = n5 at *
  have e0 : (n0 * 2 ^ 40 + n1 * 2 ^ 32 + n2 * 2 ^ 24 + n3 * 2 ^ 16 + n4 * 2 ^ 8 + n5) / 2 ^ 40 % 256 = n0 := by
    omega
  have e1 : (n0 * 2 ^ 40 + n1 * 2 ^ 32 + n2 * 2 ^ 24 + n3 * 2 ^ 16 + n4 * 2 ^ 8 + n5) / 2 ^ 32 % 256 = n1 := by
    omega
  have e2 : (n0 * 2 ^ 40 + n1 * 2 ^ 32 + n2 * 2 ^ 24 + n3 * 2 ^ 16 + n4 * 2 ^ 8 + n5) / 2 ^ 24 % 256 = n2 := by
    omega
  have e3 : (n0 * 2 ^ 40 + n1 * 2 ^ 32 + n2 * 2 ^ 24 + n3 * 2 ^ 16 + n4 * 2 ^ 8 + n5) / 2 ^ 16 % 256 = n3 := by
    omega
  have e4 : (n0 * 2 ^ 40 + n1 * 2 ^ 32 + n2 * 2 ^ 24 + n3 * 2 ^ 16 + n4 * 2 ^ 8 + n5) / 2 ^ 8 % 256 = n4 := by
    omega
  have e5 : (n0 * 2 ^ 40 + n1 * 2 ^ 32 + n2 * 2 ^ 24 + n3 * 2 ^ 16 + n4 * 2 ^ 8 + n5) % 256 = n5 := by
    omega
  rw [e0, e1, e2, e3, e4, e5]

/-- The address formula of R52 as a sum: the three fields do not overlap (R100). -/
theorem fields_or_eq_add {eoc supr pix : Nat} (hs : supr < 64) (hp : pix < 8) :
    (eoc <<< 9) ||| (supr <<< 3) ||| pix = 512 * eoc + 8 * supr + pix := by
  have h1 : (eoc <<< 9) ||| (supr <<< 3) = (eoc * 64 + supr) <<< 3 := by
    rw [shiftLeft_or_eq_add (by rw [Nat.shiftLeft_eq]; omega), Nat.shiftLeft_eq, Nat.shiftLeft_eq]; omega
  rw [h1, shiftLeft_or_eq_add (i := 3) hp]; omega

end Sys2Proof.Laws
end

