-- ==== Sys2Proof/Laws/State.lean ====
section
/-! SUPPORT. One lemma per field and update of the state, true by definition, so that no later proof unfolds a
record update. -/

namespace Sys2Proof.Laws

open Sys2Proof.Machine

variable (s : State) (r : Result) (e : HardError) (ws : List Nat) (c : Cfg) (a : Nat) (p : PixRec) (v : Verdict)
  (q : Request)

@[simp] theorem give_cfg : (s.give r).cfg = s.cfg := rfl
@[simp] theorem give_pix : (s.give r).pix = s.pix := rfl
@[simp] theorem give_par : (s.give r).par = s.par := rfl
@[simp] theorem give_stream : (s.give r).stream = s.stream := rfl
@[simp] theorem give_pending : (s.give r).pending = s.pending := rfl
@[simp] theorem give_result : (s.give r).result = r := rfl

@[simp] theorem raise_cfg : (s.raise e).cfg = s.cfg := rfl
@[simp] theorem raise_pix : (s.raise e).pix = s.pix := rfl
@[simp] theorem raise_par : (s.raise e).par = s.par := rfl
@[simp] theorem raise_stream : (s.raise e).stream = s.stream := rfl
@[simp] theorem raise_pending : (s.raise e).pending = s.pending := rfl
@[simp] theorem raise_result : (s.raise e).result = .error e := rfl

@[simp] theorem emit_cfg : (s.emit ws).cfg = s.cfg := rfl
@[simp] theorem emit_pix : (s.emit ws).pix = s.pix := rfl
@[simp] theorem emit_par : (s.emit ws).par = s.par := rfl
@[simp] theorem emit_stream : (s.emit ws).stream = writeRecords [] 0 ws := rfl
@[simp] theorem emit_pending : (s.emit ws).pending = s.pending := rfl
@[simp] theorem emit_result : (s.emit ws).result = .bytes (ws.flatMap (beBytes 6)) := rfl

@[simp] theorem startAcquisition_cfg : (s.startAcquisition c).cfg = c := rfl
@[simp] theorem startAcquisition_pix : (s.startAcquisition c).pix = [] := rfl
@[simp] theorem startAcquisition_par : (s.startAcquisition c).par = s.par := rfl
@[simp] theorem startAcquisition_stream : (s.startAcquisition c).stream = s.stream := rfl
@[simp] theorem startAcquisition_pending : (s.startAcquisition c).pending = s.pending := rfl
@[simp] theorem startAcquisition_result : (s.startAcquisition c).result = .done := rfl

@[simp] theorem recordPulse_cfg : (s.recordPulse a p v).cfg = s.cfg := rfl
@[simp] theorem recordPulse_pix : (s.recordPulse a p v).pix = s.pix.write a p := rfl
@[simp] theorem recordPulse_par : (s.recordPulse a p v).par = s.par := rfl
@[simp] theorem recordPulse_stream : (s.recordPulse a p v).stream = s.stream := rfl
@[simp] theorem recordPulse_pending : (s.recordPulse a p v).pending = s.pending := rfl
@[simp] theorem recordPulse_result : (s.recordPulse a p v).result = .verdict v := rfl

@[simp] theorem consume_cfg : (consume s).cfg = s.cfg := rfl
@[simp] theorem consume_pix : (consume s).pix = s.pix := rfl
@[simp] theorem consume_par : (consume s).par = s.par := rfl
@[simp] theorem consume_stream : (consume s).stream = s.stream := rfl
@[simp] theorem consume_pending : (consume s).pending = s.pending.tail := rfl
@[simp] theorem consume_result : (consume s).result = s.result := rfl

@[simp] theorem present_cfg : (present q s).cfg = s.cfg := rfl
@[simp] theorem present_pix : (present q s).pix = s.pix := rfl
@[simp] theorem present_par : (present q s).par = s.par := rfl
@[simp] theorem present_stream : (present q s).stream = s.stream := rfl
@[simp] theorem present_pending : (present q s).pending = q :: s.pending.tail := rfl
@[simp] theorem present_result : (present q s).result = s.result := rfl

@[simp] theorem nextRequest_present : nextRequest (present q s) = some q := rfl

end Sys2Proof.Laws
end

