-- ==== Sys2Proof/Laws/Ops.lean ====
section
/-! SUPPORT. What the operations over memory, pixels and results can do, each said once. -/

namespace Sys2Proof.Laws

open Sys2Proof.Machine

section Sparse

variable {α : Type}

theorem lookupAt_eq_none_of_lt {a : Nat} {l : List (Nat × α)} (h : ∀ p ∈ l, a < p.1) : lookupAt a l = none := by
  induction l with
  | nil => rfl
  | cons p l ih =>
    have := h p (by simp)
    rw [lookupAt, if_neg (by omega)]
    exact ih fun q hq => h q (by simp [hq])

/-- Reading the written entry gives what was written (none: the entry is gone). -/
theorem lookupAt_putAt_same {l : List (Nat × α)} (hl : Rising l) (a : Nat) (v : Option α) :
    lookupAt a (putAt a v l) = v := by
  induction l with
  | nil => cases v <;> simp [putAt, entryAt, lookupAt]
  | cons p l ih =>
    obtain ⟨b, w⟩ := p
    obtain ⟨hb, hl'⟩ := List.pairwise_cons.1 hl
    rw [putAt]
    split
    · cases v with
      | none =>
        refine lookupAt_eq_none_of_lt fun p hp => ?_
        rcases List.mem_cons.1 hp with rfl | hp
        · assumption
        · have := hb p hp; simp only at this; omega
      | some y => simp [entryAt, lookupAt]
    · split
      · cases v with
        | none => exact lookupAt_eq_none_of_lt fun p hp => by have := hb p hp; simp only at this; omega
        | some y => simp [entryAt, lookupAt]
      · rw [lookupAt, if_neg (by assumption)]; exact ih hl'

/-- Writing one entry leaves every other one alone. -/
theorem lookupAt_putAt_other {l : List (Nat × α)} {a c : Nat} (h : c ≠ a) (v : Option α) :
    lookupAt c (putAt a v l) = lookupAt c l := by
  induction l with
  | nil => cases v <;> simp [putAt, entryAt, lookupAt, h]
  | cons p l ih =>
    obtain ⟨b, w⟩ := p
    rw [putAt]
    split
    · cases v <;> simp [entryAt, lookupAt, h]
    · split
      · subst b; cases v <;> simp [entryAt, lookupAt, h]
      · simp only [lookupAt, ih]

/-- What a written list holds: the new entry, or an old one at another address. -/
theorem mem_putAt {l : List (Nat × α)} {a : Nat} {v : Option α} {p : Nat × α} (h : p ∈ putAt a v l) :
    (p.1 = a ∧ v = some p.2) ∨ p ∈ l := by
  induction l with
  | nil => cases v <;> simp_all [putAt, entryAt]
  | cons q l ih =>
    obtain ⟨b, w⟩ := q
    rw [putAt] at h
    split at h
    · cases v with
      | none => exact .inr h
      | some y => rcases List.mem_cons.1 h with rfl | h <;> simp_all
    · split at h
      · cases v with
        | none => exact .inr (List.mem_cons_of_mem _ h)
        | some y => rcases List.mem_cons.1 h with rfl | h <;> simp_all
      · rcases List.mem_cons.1 h with rfl | h
        · simp
        · rcases ih h with h | h <;> simp [h]

/-- Writing keeps the addresses strictly rising. -/
theorem rising_putAt {l : List (Nat × α)} (hl : Rising l) (a : Nat) (v : Option α) : Rising (putAt a v l) := by
  induction l with
  | nil => cases v <;> simp [putAt, entryAt, Rising]
  | cons p l ih =>
    obtain ⟨b, w⟩ := p
    obtain ⟨hb, hl'⟩ := List.pairwise_cons.1 hl
    rw [putAt]
    split
    · cases v with
      | none => exact hl
      | some y =>
        refine List.pairwise_cons.2 ⟨fun q hq => ?_, hl⟩
        rcases List.mem_cons.1 hq with rfl | hq
        · assumption
        · have := hb q hq; simp only at this ⊢; omega
    · split
      · subst b
        cases v with
        | none => exact hl'
        | some y => exact List.pairwise_cons.2 ⟨hb, hl'⟩
      · refine List.pairwise_cons.2 ⟨fun q hq => ?_, ih hl'⟩
        rcases mem_putAt hq with ⟨h, -⟩ | h
        · simp only; omega
        · exact hb q h

theorem lookupAt_eq_some_of_mem {l : List (Nat × α)} (hl : Rising l) {p : Nat × α} (h : p ∈ l) :
    lookupAt p.1 l = some p.2 := by
  induction l with
  | nil => simp at h
  | cons q l ih =>
    obtain ⟨hb, hl'⟩ := List.pairwise_cons.1 hl
    rcases List.mem_cons.1 h with rfl | h
    · simp [lookupAt]
    · have := hb p h
      rw [show q = (q.1, q.2) from rfl, lookupAt, if_neg (by omega)]
      exact ih hl' h

theorem mem_of_lookupAt_eq_some {l : List (Nat × α)} {a : Nat} {v : α} (h : lookupAt a l = some v) :
    (a, v) ∈ l := by
  induction l with
  | nil => simp [lookupAt] at h
  | cons q l ih =>
    obtain ⟨b, w⟩ := q
    rw [lookupAt] at h
    split at h
    · simp_all
    · exact List.mem_cons_of_mem _ (ih h)

/-- Two rising lists that read the same at every address are the same list. -/
theorem rising_ext {l m : List (Nat × α)} (hl : Rising l) (hm : Rising m)
    (h : ∀ a, lookupAt a l = lookupAt a m) : l = m := by
  induction l generalizing m with
  | nil =>
    cases m with
    | nil => rfl
    | cons q m => have := h q.1; rw [lookupAt_eq_some_of_mem hm (by simp)] at this; simp [lookupAt] at this
  | cons p l ih =>
    cases m with
    | nil => have := h p.1; rw [lookupAt_eq_some_of_mem hl (by simp)] at this; simp [lookupAt] at this
    | cons q m =>
      obtain ⟨hp, hl'⟩ := List.pairwise_cons.1 hl
      obtain ⟨hq, hm'⟩ := List.pairwise_cons.1 hm
      have h1 := mem_of_lookupAt_eq_some ((h p.1).symm.trans (lookupAt_eq_some_of_mem hl (by simp)))
      have h2 := mem_of_lookupAt_eq_some ((h q.1).trans (lookupAt_eq_some_of_mem hm (by simp)))
      have hpq : p = q := by
        rcases List.mem_cons.1 h1 with h1 | h1
        · exact h1
        · rcases List.mem_cons.1 h2 with h2 | h2
          · exact h2.symm
          · have a := hq _ h1; have b := hp _ h2; simp only at a b; omega
      subst hpq
      congr 1
      refine ih hl' hm' fun a => ?_
      by_cases ha : a = p.1
      · subst ha
        rw [lookupAt_eq_none_of_lt hp, lookupAt_eq_none_of_lt hq]
      · have := h a
        rwa [show p = (p.1, p.2) from rfl, lookupAt, lookupAt, if_neg ha, if_neg ha] at this

/-- Writes at two addresses commute. -/
theorem putAt_comm {l : List (Nat × α)} (hl : Rising l) {a b : Nat} (h : a ≠ b) (v w : Option α) :
    putAt a v (putAt b w l) = putAt b w (putAt a v l) := by
  refine rising_ext (rising_putAt (rising_putAt hl _ _) _ _) (rising_putAt (rising_putAt hl _ _) _ _) fun c => ?_
  by_cases hca : c = a
  · subst hca
    rw [lookupAt_putAt_same (rising_putAt hl _ _), lookupAt_putAt_other h, lookupAt_putAt_same hl]
  · by_cases hcb : c = b
    · subst hcb
      rw [lookupAt_putAt_other hca, lookupAt_putAt_same hl, lookupAt_putAt_same (rising_putAt hl _ _)]
    · rw [lookupAt_putAt_other hca, lookupAt_putAt_other hcb, lookupAt_putAt_other hcb, lookupAt_putAt_other hca]

end Sparse

/-! The byte space. -/

theorem memory_write_wf {m : Memory} (h : m.wf) (off : Nat) (b : Byte) : (m.write off b).wf :=
  rising_putAt h _ _

theorem memory_writeBytes_wf {m : Memory} (h : m.wf) (off : Nat) (bs : List Byte) : (m.writeBytes off bs).wf := by
  induction bs generalizing m off with
  | nil => exact h
  | cons b bs ih => exact ih (memory_write_wf h _ _) _

theorem memWrite_wf {m : Memory} (h : m.wf) (off n v : Nat) : (memWrite m off n v).wf :=
  memory_writeBytes_wf h _ _

theorem writeRecords_wf {m : Memory} (h : m.wf) (i : Nat) (ws : List Nat) : (writeRecords m i ws).wf := by
  induction ws generalizing m i with
  | nil => exact h
  | cons w ws ih => exact ih (memWrite_wf h _ _ _) _

theorem memory_read_write_same {m : Memory} (h : m.wf) (off : Nat) (b : Byte) :
    (m.write off b).read off = some b := lookupAt_putAt_same h _ _

theorem memory_read_write_other {m : Memory} {off c : Nat} (h : c ≠ off) (b : Byte) :
    (m.write off b).read c = m.read c := lookupAt_putAt_other h _

/-- Bytes written are read back at their offsets; every other offset reads as before. -/
theorem memory_read_writeBytes {m : Memory} (h : m.wf) (off c : Nat) (bs : List Byte) :
    (m.writeBytes off bs).read c = if off ≤ c ∧ c < off + bs.length then bs[c - off]? else m.read c := by
  induction bs generalizing m off with
  | nil => rw [Memory.writeBytes, if_neg (by simp)]
  | cons b bs ih =>
    rw [Memory.writeBytes, ih (memory_write_wf h _ _)]
    by_cases hc : c = off
    · subst hc
      rw [if_neg (by omega), memory_read_write_same h, if_pos (by simp)]
      simp
    · rw [memory_read_write_other hc]
      by_cases hr : off + 1 ≤ c ∧ c < off + 1 + bs.length
      · rw [if_pos hr, if_pos (by simp; omega), show c - off = (c - (off + 1)) + 1 by omega]
        simp
      · rw [if_neg hr, if_neg (by simp; omega)]

/-- Records written from record `i` on read back as their byte images, one after the other. -/
theorem memory_read_writeRecords {m : Memory} (h : m.wf) (i c : Nat) (ws : List Nat) :
    (writeRecords m i ws).read c =
      if 6 * i ≤ c ∧ c < 6 * i + 6 * ws.length then (ws.flatMap (beBytes 6))[c - 6 * i]? else m.read c := by
  induction ws generalizing m i with
  | nil => rw [writeRecords, if_neg (by simp)]
  | cons w ws ih =>
    rw [writeRecords, ih (memWrite_wf h _ _ _), memWrite, memory_read_writeBytes h, beBytes_length]
    simp only [List.flatMap_cons, List.length_cons]
    by_cases h1 : 6 * (i + 1) ≤ c ∧ c < 6 * (i + 1) + 6 * ws.length
    · rw [if_pos h1, if_pos (by omega), List.getElem?_append_right (by rw [beBytes_length]; omega),
        beBytes_length]
      congr 1
    · rw [if_neg h1]
      by_cases h2 : 6 * i ≤ c ∧ c < 6 * i + 6
      · rw [if_pos h2, if_pos (by omega), List.getElem?_append_left (by rw [beBytes_length]; omega)]
      · rw [if_neg h2, if_neg (by omega)]

/-! The pixel space. -/

theorem pixSpace_write_wf {p : PixSpace} (h : p.wf) {a : Nat} (ha : a < 65536) (r : PixRec) :
    (p.write a r).wf := by
  refine ⟨rising_putAt h.1 _ _, fun e he => ?_⟩
  rcases mem_putAt he with ⟨h1, h2⟩ | h1
  · refine ⟨h1 ▸ ha, ?_⟩
    split at h2
    · simp at h2
    · simp only [Option.some.injEq] at h2; rw [← h2]; assumption
  · exact h.2 e h1

theorem pixSpace_read_write_same {p : PixSpace} (h : p.wf) (a : Nat) (r : PixRec) :
    (p.write a r).read a = r := by
  rw [PixSpace.read, PixSpace.write, lookupAt_putAt_same h.1]
  split
  · simp_all
  · simp

theorem pixSpace_read_write_other {p : PixSpace} {a c : Nat} (h : c ≠ a) (r : PixRec) :
    (p.write a r).read c = p.read c := by
  rw [PixSpace.read, PixSpace.write, lookupAt_putAt_other h]; rfl

/-- The reset state's two spaces are in canonical form. -/
theorem reset_stream_wf : Memory.wf State.reset.stream := List.Pairwise.nil
theorem reset_pix_wf : PixSpace.wf State.reset.pix := ⟨List.Pairwise.nil, fun _ h => absurd h (List.not_mem_nil)⟩

@[simp] theorem pixSpace_read_nil (a : Nat) : PixSpace.read [] a = PixRec.init := rfl

/-! Completing an operation. -/

/-- All that completing an operation without a write can do. -/
theorem complete_cases (r : Except HardError Result) (s : State) :
    (∃ v, r = .ok v ∧ complete r s = .next { s with result := v }) ∨
    (∃ e, r = .error e ∧ complete r s = .next { s with result := .error e }) := by
  cases r with
  | ok v => exact .inl ⟨v, rfl, rfl⟩
  | error e => exact .inr ⟨e, rfl, rfl⟩

/-- All that completing an operation that emits bytes can do. -/
theorem completeEmit_cases (r : Except HardError (List Nat)) (s : State) :
    (∃ ws, r = .ok ws ∧ completeEmit r s = .next (s.emit ws)) ∨
    (∃ e, r = .error e ∧ completeEmit r s = .next { s with result := .error e }) := by
  cases r with
  | ok v => exact .inl ⟨v, rfl, rfl⟩
  | error e => exact .inr ⟨e, rfl, rfl⟩

/-- Completing an operation without a write changes the result alone. -/
theorem complete_frame {r : Except HardError Result} {s t : State} (h : complete r s = .next t) :
    t.cfg = s.cfg ∧ t.pix = s.pix ∧ t.par = s.par ∧ t.stream = s.stream ∧ t.pending = s.pending := by
  rcases complete_cases r s with ⟨v, -, h'⟩ | ⟨e, -, h'⟩ <;> rw [h'] at h <;>
    simp only [Host.Outcome.next.injEq] at h <;> subst h <;> simp

@[simp] theorem complete_ok (v : Result) (s : State) : complete (.ok v) s = .next { s with result := v } := rfl
@[simp] theorem complete_error (e : HardError) (s : State) :
    complete (.error e) s = .next { s with result := .error e } := rfl
@[simp] theorem completeEmit_ok (ws : List Nat) (s : State) : completeEmit (.ok ws) s = .next (s.emit ws) := rfl
@[simp] theorem completeEmit_error (e : HardError) (s : State) :
    completeEmit (.error e) s = .next { s with result := .error e } := rfl

/-! Sequencing checks. -/

@[simp] theorem except_ok_bind {α β : Type} (a : α) (f : α → Except HardError β) :
    (Except.ok a >>= f) = f a := rfl
@[simp] theorem except_error_bind {α β : Type} (e : HardError) (f : α → Except HardError β) :
    ((Except.error e : Except HardError α) >>= f) = .error e := rfl
@[simp] theorem except_pure {α : Type} (a : α) : (pure a : Except HardError α) = .ok a := rfl

/-- A sequence answers only if each part does. -/
theorem bind_eq_ok {α β : Type} {x : Except HardError α} {f : α → Except HardError β} {b : β} :
    (x >>= f) = .ok b ↔ ∃ a, x = .ok a ∧ f a = .ok b := by
  cases x <;> simp

/-- A sequence fails at its first failing part (R245). -/
theorem bind_eq_error {α β : Type} {x : Except HardError α} {f : α → Except HardError β} {e : HardError} :
    (x >>= f) = .error e ↔ x = .error e ∨ ∃ a, x = .ok a ∧ f a = .error e := by
  cases x <;> simp

/-- `mapUntilError` answers when every part does, with the parts' answers in order. -/
theorem mapUntilError_eq_ok {α β : Type} {f : α → Except HardError β} {as : List α} {bs : List β} :
    mapUntilError f as = .ok bs ↔ List.Forall₂ (fun a b => f a = .ok b) as bs := by
  induction as generalizing bs with
  | nil => cases bs <;> simp [mapUntilError]
  | cons a as ih =>
    rw [mapUntilError]
    cases ha : f a with
    | error e => cases bs <;> simp [ha]
    | ok b =>
      simp only
      cases hm : mapUntilError f as with
      | error e =>
        cases bs with
        | nil => simp
        | cons c cs => simp only [List.forall₂_cons, ha, ← ih, hm]; simp
      | ok cs =>
        cases bs with
        | nil => simp
        | cons d ds => simp only [List.forall₂_cons, ha, ← ih, hm]; simp

/-- `mapUntilError` fails with the error of the first part that fails. -/
theorem mapUntilError_eq_error {α β : Type} {f : α → Except HardError β} {as : List α} {e : HardError} :
    mapUntilError f as = .error e ↔
      ∃ pre a post, as = pre ++ a :: post ∧ (∀ x ∈ pre, ∃ b, f x = .ok b) ∧ f a = .error e := by
  induction as with
  | nil => simp [mapUntilError]
  | cons a as ih =>
    rw [mapUntilError]
    cases ha : f a with
    | error e' =>
      constructor
      · intro h; exact ⟨[], a, as, rfl, by simp, by simpa [ha] using h⟩
      · rintro ⟨pre, x, post, h, hp, hx⟩
        cases pre with
        | nil => simp only [List.nil_append, List.cons.injEq] at h; rw [h.1] at ha; rw [hx] at ha; simp_all
        | cons y pre =>
          simp only [List.cons_append, List.cons.injEq] at h
          obtain ⟨b, hb⟩ := hp y (by simp)
          rw [← h.1, ha] at hb; simp at hb
    | ok b =>
      simp only
      have key : (match mapUntilError f as with
          | .error e => Except.error e
          | .ok bs => .ok (b :: bs)) = (.error e : Except HardError (List β)) ↔
          mapUntilError f as = .error e := by
        cases mapUntilError f as <;> simp
      refine key.trans (ih.trans ⟨?_, ?_⟩)
      · rintro ⟨pre, x, post, rfl, hp, hx⟩
        exact ⟨a :: pre, x, post, rfl, by simpa using ⟨⟨b, ha⟩, hp⟩, hx⟩
      · rintro ⟨pre, x, post, h, hp, hx⟩
        cases pre with
        | nil => simp only [List.nil_append, List.cons.injEq] at h; rw [h.1] at ha; rw [hx] at ha; simp at ha
        | cons y pre =>
          simp only [List.cons_append, List.cons.injEq] at h
          exact ⟨pre, x, post, h.2, fun z hz => hp z (by simp [hz]), hx⟩

end Sys2Proof.Laws
end

