-- ==== Sys2Proof/Laws/Operands.lean ====
section
/-! SUPPORT. Each operand check, said once: when it answers, what it answers, and what it raises. -/

namespace Sys2Proof.Laws

open Sys2Proof.Machine

theorem checkNat_nonneg {v : Int} (n : OperandName) (h : 0 ≤ v) : checkNat n v = .ok v.toNat := by
  rw [checkNat, if_neg (by omega)]

@[simp] theorem checkNat_natCast (n : OperandName) (v : Nat) : checkNat n v = .ok v := by
  rw [checkNat_nonneg n (by omega)]; simp

theorem checkNat_neg {v : Int} (n : OperandName) (h : v < 0) : checkNat n v = .error (.range n (.int v)) := by
  rw [checkNat, if_pos h]

theorem checkMax_within {v : Int} (n : OperandName) {hi : Nat} (h0 : 0 ≤ v) (h : v ≤ hi) :
    checkMax n hi v = .ok v.toNat := by
  rw [checkMax, if_neg (by omega)]

theorem checkMax_natCast (n : OperandName) {v hi : Nat} (h : v ≤ hi) : checkMax n hi v = .ok v := by
  rw [checkMax_within n (by omega) (by omega)]; simp

theorem checkMax_outside {v : Int} (n : OperandName) {hi : Nat} (h : v < 0 ∨ (hi : Int) < v) :
    checkMax n hi v = .error (.range n (.int v)) := by
  rw [checkMax, if_pos h]

theorem checkMax_eq_ok {n : OperandName} {hi v : Nat} {x : Int} :
    checkMax n hi x = .ok v ↔ x = v ∧ v ≤ hi := by
  rw [checkMax]
  split
  · constructor
    · intro h; simp at h
    · rintro ⟨rfl, h⟩; omega
  · constructor
    · intro h; simp only [Except.ok.injEq] at h; omega
    · rintro ⟨rfl, h⟩; simp

theorem checkMax_eq_error {n : OperandName} {hi : Nat} {x : Int} {e : HardError} :
    checkMax n hi x = .error e ↔ (x < 0 ∨ (hi : Int) < x) ∧ e = .range n (.int x) := by
  rw [checkMax]
  split
  · simp_all [eq_comm]
  · simp_all

theorem checkMode_ok {admits : Mode → Bool} {c : ModeCode} {m : Mode} (h : modeOfCode c = some m)
    (ha : admits m = true) : checkMode admits c = .ok m := by
  simp [checkMode, h, ha]

theorem checkMode_refused {admits : Mode → Bool} {c : ModeCode}
    (h : ∀ m, modeOfCode c = some m → admits m = false) :
    checkMode admits c = .error (.range .mode (.code c)) := by
  rw [checkMode]
  split
  · simp [h _ (by assumption)]
  · rfl

theorem checkMode_eq_ok {admits : Mode → Bool} {c : ModeCode} {m : Mode} :
    checkMode admits c = .ok m ↔ modeOfCode c = some m ∧ admits m = true := by
  rw [checkMode]
  split <;> simp_all
  split <;> simp_all
  · intro h; simp_all
  · intro h; simp_all

theorem checkTime_ok {cfg : Cfg} (n : OperandName) {t : Rat} (h : cfg.epoch ≤ t) : checkTime cfg n t = .ok () := by
  rw [checkTime, if_neg (not_lt.2 h)]

theorem checkTime_early {cfg : Cfg} (n : OperandName) {t : Rat} (h : t < cfg.epoch) :
    checkTime cfg n t = .error (.range n (.rat t)) := by
  rw [checkTime, if_pos h]

theorem checkPulse_ok {cfg : Cfg} {start stop : Rat} (h : cfg.epoch ≤ start) (h' : start ≤ stop) :
    checkPulse cfg start stop = .ok () := by
  rw [checkPulse, checkTime_ok _ h]; simp [not_lt.2 h']

theorem checkPulse_early {cfg : Cfg} {start : Rat} (stop : Rat) (h : start < cfg.epoch) :
    checkPulse cfg start stop = .error (.range .start (.rat start)) := by
  rw [checkPulse, checkTime_early _ h]

theorem checkPulse_reversed {cfg : Cfg} {start stop : Rat} (h : cfg.epoch ≤ start) (h' : stop < start) :
    checkPulse cfg start stop = .error (.range .stop (.rat stop)) := by
  rw [checkPulse, checkTime_ok _ h]; simp [h']

theorem checkPulse_eq_ok {cfg : Cfg} {start stop : Rat} :
    checkPulse cfg start stop = .ok () ↔ cfg.epoch ≤ start ∧ start ≤ stop := by
  constructor
  · intro h
    rcases lt_or_ge start cfg.epoch with h1 | h1
    · rw [checkPulse_early _ h1] at h; simp at h
    · rcases lt_or_ge stop start with h2 | h2
      · rw [checkPulse_reversed h1 h2] at h; simp at h
      · exact ⟨h1, h2⟩
  · exact fun h => checkPulse_ok h.1 h.2

theorem checkClock_ok {q : Rat} (n : OperandName) (h : 0 < q) : checkClock n q = .ok () := by
  rw [checkClock, if_neg (not_le.2 h)]

theorem checkClock_bad {q : Rat} (n : OperandName) (h : q ≤ 0) :
    checkClock n q = .error (.range n (.rat q)) := by
  rw [checkClock, if_pos h]

end Sys2Proof.Laws
end

