-- ==== Sys2Proof/Laws/Acceptor.lean ====
section
/-! SUPPORT. The acceptor: what one step of it can do, and what an accepted presentation says of its operands. -/

namespace Sys2Proof.Laws

open Sys2Proof.Machine

theorem checkOrder_ok {p : PixRec} {start : Rat} (h : ∀ ls, p.lastStart = some ls → ls ≤ start) :
    checkOrder p start = .ok () := by
  rw [checkOrder]
  split
  · rfl
  · rw [if_neg (not_lt.2 (h _ (by assumption)))]

theorem checkOrder_eq_ok {p : PixRec} {start : Rat} :
    checkOrder p start = .ok () ↔ ∀ ls, p.lastStart = some ls → ls ≤ start := by
  refine ⟨fun h ls hl => ?_, checkOrder_ok⟩
  rw [checkOrder, hl] at h
  simpa using h

/-- Every step records the start (R183). -/
theorem acceptStep_lastStart (c : Cfg) (m : Mode) (p : PixRec) (start stop : Rat) :
    (acceptStep c m p start stop).1.lastStart = some start := by
  rw [acceptStep]; split
  · rfl
  · split <;> rfl

/-- What acceptance says and writes (R183). -/
theorem acceptStep_accept {c : Cfg} {m : Mode} {p : PixRec} {start stop : Rat}
    (h : (acceptStep c m p start stop).2 = .accept) :
    1 ≤ accTot c start stop ∧
    (p.hasPrev = true → p.prevEnd + deadTime p.prevTot m c.fSys ≤ start) ∧
    (acceptStep c m p start stop).1 =
      { prevTot := accTot c start stop, prevEnd := stop, hasPrev := true, lastStart := some start } := by
  rw [acceptStep] at *
  split at h
  · simp at h
  · rename_i hw
    split at h
    · simp at h
    · rename_i hd
      rw [if_neg hw, if_neg hd]
      refine ⟨by omega, fun hp => ?_, rfl⟩
      have := fun hlt => hd ⟨hp, hlt⟩
      linarith [not_lt.1 this]

/-- A rejection writes the start alone (R183). -/
theorem acceptStep_reject {c : Cfg} {m : Mode} {p : PixRec} {start stop : Rat}
    (h : (acceptStep c m p start stop).2 ≠ .accept) :
    (acceptStep c m p start stop).1 = { p with lastStart := some start } := by
  rw [acceptStep] at *
  split at h
  · simp_all
  · split at h
    · simp_all
    · simp at h

/-- All that presenting a pulse can answer (R184, R185). -/
theorem presentPulse_eq_ok {c : Cfg} {m : Mode} {p : PixRec} {start stop : Rat} {r : PixRec × Verdict} :
    presentPulse c m p start stop = .ok r ↔
      c.epoch ≤ start ∧ start ≤ stop ∧ (∀ ls, p.lastStart = some ls → ls ≤ start) ∧
        acceptStep c m p start stop = r := by
  simp only [presentPulse, bind_eq_ok, except_pure, Except.ok.injEq]
  constructor
  · rintro ⟨⟨⟩, h1, ⟨⟩, h2, h3⟩
    exact ⟨(checkPulse_eq_ok.1 h1).1, (checkPulse_eq_ok.1 h1).2, checkOrder_eq_ok.1 h2, h3⟩
  · rintro ⟨h1, h2, h3, h4⟩
    exact ⟨(), checkPulse_ok h1 h2, (), checkOrder_ok h3, h4⟩

/-- All that an `ACCEPT` can compute (R184). -/
theorem acceptPulse_eq_ok {c : Cfg} {p : PixSpace} {address : Int} {start stop : Rat} {a : Nat} {r : PixRec}
    {v : Verdict} : acceptPulse c p address start stop = .ok (a, r, v) ↔
      ∃ m, c.mode = some m ∧ address = a ∧ a ≤ 65535 ∧ presentPulse c m (p.read a) start stop = .ok (r, v) := by
  simp only [acceptPulse, bind_eq_ok, except_pure, Except.ok.injEq, checkMax_eq_ok, Prod.mk.injEq]
  constructor
  · rintro ⟨m, hm, n, ⟨rfl, hn⟩, ⟨r', v'⟩, hr, rfl, rfl, rfl⟩
    refine ⟨m, ?_, rfl, hn, hr⟩
    rw [acqMode] at hm; split at hm <;> simp_all
  · rintro ⟨m, hm, rfl, hn, hr⟩
    exact ⟨m, by rw [acqMode, hm], a, ⟨rfl, hn⟩, (r, v), hr, rfl, rfl, rfl⟩

/-- A fold that answers, taken apart at its first pulse (R185). -/
theorem acceptFold_cons_eq_ok {c : Cfg} {m : Mode} {p : PixRec} {q : Pulse} {qs : List Pulse} {vs : List Verdict} :
    acceptFold c m p (q :: qs) = .ok vs ↔
      ∃ r ws, presentPulse c m p q.start q.stop = .ok r ∧ acceptFold c m r.1 qs = .ok ws ∧ vs = r.2 :: ws := by
  rw [acceptFold]
  cases h : presentPulse c m p q.start q.stop with
  | error e => simp
  | ok r =>
    obtain ⟨p', v⟩ := r
    simp only
    cases h' : acceptFold c m p' qs with
    | error e => simp [h']
    | ok ws => simp [h', eq_comm]

/-- The shortest dead time that can follow an accepted pulse is 4 ticks (R187). -/
theorem deadTime_ge {f : Rat} (m : Mode) {n : Nat} (hf : 0 < f) (hn : 1 ≤ n) : 4 / f ≤ deadTime n m f := by
  have : (1 : Rat) ≤ n := by exact_mod_cast hn
  cases m <;> simp only [deadTime] <;> gcongr <;> linarith

end Sys2Proof.Laws
end

