-- ==== Sys2Proof/Laws/Codec.lean ====
section
/-! SUPPORT. The codec functions: the step of the LFSR as arithmetic, its width, and what the decode search
answers. -/

namespace Sys2Proof.Laws

open Sys2Proof.Machine

theorem xor_bits (a b : Nat) : a % 2 ^^^ b % 2 = (a + b) % 2 := by
  have ha : a % 2 = 0 ∨ a % 2 = 1 := by omega
  have hb : b % 2 = 0 ∨ b % 2 = 1 := by omega
  rcases ha with ha | ha <;> rcases hb with hb | hb <;> rw [ha, hb] <;> simp <;> omega

/-- The feedback of two taps (R110). -/
theorem feedback_two {t1 t2 t3 t4 : Nat} (r : Nat) (h : t3 = 0 ∨ t4 = 0) :
    feedback r ⟨t1, t2, t3, t4⟩ = (r / 2 ^ t1 + r / 2 ^ t2) % 2 := by
  have hu : (⟨t1, t2, t3, t4⟩ : Taps).used = [t1, t2] := by rw [Taps.used, if_neg (by simp; omega)]
  simp only [feedback, hu, List.map_cons, List.map_nil, List.foldl_cons, List.foldl_nil, Nat.zero_xor,
    bitAt_eq, xor_bits]

/-- The feedback of four taps (R110). -/
theorem feedback_four {t1 t2 t3 t4 : Nat} (r : Nat) (h3 : t3 ≠ 0) (h4 : t4 ≠ 0) :
    feedback r ⟨t1, t2, t3, t4⟩ = (r / 2 ^ t1 + r / 2 ^ t2 + r / 2 ^ t3 + r / 2 ^ t4) % 2 := by
  have hu : (⟨t1, t2, t3, t4⟩ : Taps).used = [t1, t2, t3, t4] := by rw [Taps.used, if_pos ⟨h3, h4⟩]
  simp only [feedback, hu, List.map_cons, List.map_nil, List.foldl_cons, List.foldl_nil, Nat.zero_xor,
    bitAt_eq, xor_bits]

theorem feedback_lt_two (r : Nat) (t : Taps) : feedback r t < 2 := by
  obtain ⟨t1, t2, t3, t4⟩ := t
  by_cases h : t3 = 0 ∨ t4 = 0
  · rw [feedback_two r h]; omega
  · rw [feedback_four r (by omega) (by omega)]; omega

/-- The step as arithmetic: twice the register within the width, plus the feedback bit (R110). -/
theorem lfsrNext_eq {w : Nat} (hw : 1 ≤ w) (t : Taps) (r : Nat) :
    lfsrNext w t r = 2 * r % 2 ^ w + feedback r t := by
  have h : (r <<< 1) &&& (2 ^ w - 1) = (r % 2 ^ (w - 1)) <<< 1 := by
    rw [Nat.and_two_pow_sub_one_eq_mod, Nat.shiftLeft_eq, Nat.shiftLeft_eq]
    obtain ⟨v, rfl⟩ : ∃ v, w = v + 1 := ⟨w - 1, by omega⟩
    rw [Nat.add_sub_cancel, pow_one, pow_succ 2 v, Nat.mul_mod_mul_right]
  have h2 : 2 * r % 2 ^ w = r % 2 ^ (w - 1) * 2 ^ 1 := by
    obtain ⟨v, rfl⟩ : ∃ v, w = v + 1 := ⟨w - 1, by omega⟩
    rw [Nat.add_sub_cancel, pow_one, pow_succ 2 v, mul_comm 2 r, Nat.mul_mod_mul_right]
  rw [lfsrNext, h, shiftLeft_or_eq_add (i := 1) (by simpa using feedback_lt_two r t), h2]

/-- The step stays within the width (R110). -/
theorem lfsrNext_lt {w : Nat} (hw : 1 ≤ w) (t : Taps) (r : Nat) : lfsrNext w t r < 2 ^ w := by
  rw [lfsrNext_eq hw]
  have := feedback_lt_two r t
  obtain ⟨v, rfl⟩ : ∃ v, w = v + 1 := ⟨w - 1, by omega⟩
  rw [pow_succ, mul_comm 2 r, Nat.mul_mod_mul_right]
  have := Nat.mod_lt r (Nat.two_pow_pos v)
  omega

theorem lfsr_iterate_lt {w : Nat} (hw : 1 ≤ w) (t : Taps) {r : Nat} (hr : r < 2 ^ w) (n : Nat) :
    (lfsrNext w t)^[n] r < 2 ^ w := by
  cases n with
  | zero => exact hr
  | succ n => rw [Function.iterate_succ_apply']; exact lfsrNext_lt hw t _

theorem seed_lt (k : LfsrSpec) : k.seed < 2 ^ k.width := by
  have := Nat.two_pow_pos k.width
  rw [LfsrSpec.seed]; omega

/-- The search answers the first step index whose register is the value (R114). -/
theorem lfsrSearch_found {k : LfsrSpec} {v n : Nat} {r fuel : Nat} (i : Nat)
    (hfirst : ∀ j < n, (lfsrNext k.width k.taps)^[j] r ≠ v) (hn : (lfsrNext k.width k.taps)^[n] r = v)
    (hf : n < fuel) : lfsrSearch k v fuel i r = Decoded.found (i + n) := by
  induction n generalizing r fuel i with
  | zero =>
    obtain ⟨f, rfl⟩ : ∃ f, fuel = f + 1 := ⟨fuel - 1, by omega⟩
    have : r = v := hn
    simp [lfsrSearch, this]
  | succ n ih =>
    obtain ⟨f, rfl⟩ : ∃ f, fuel = f + 1 := ⟨fuel - 1, by omega⟩
    have h0 : r ≠ v := hfirst 0 (by omega)
    rw [lfsrSearch, if_neg h0, ih (i + 1) (fun j hj => by simpa using hfirst (j + 1) (by omega)) (by simpa using hn)
      (by omega)]
    congr 1; omega

/-- The search ends without a match when no register on its way is the value (R114, R242). -/
theorem lfsrSearch_unmatched {k : LfsrSpec} {v r fuel : Nat} (i : Nat)
    (h : ∀ j < fuel, (lfsrNext k.width k.taps)^[j] r ≠ v) : lfsrSearch k v fuel i r = Decoded.unmatched := by
  induction fuel generalizing r i with
  | zero => rfl
  | succ f ih =>
    have h0 : r ≠ v := h 0 (by omega)
    rw [lfsrSearch, if_neg h0]
    exact ih (i + 1) fun j hj => by simpa using h (j + 1) (by omega)

/-- The search never counts past its last comparison. -/
theorem lfsrSearch_count_lt (k : LfsrSpec) (v : Nat) {fuel : Nat} (i r : Nat) (hf : 0 < i + fuel) :
    (lfsrSearch k v fuel i r).count < i + fuel := by
  induction fuel generalizing i r with
  | zero => simpa [lfsrSearch, Decoded.unmatched] using hf
  | succ f ih =>
    rw [lfsrSearch]
    split
    · simp [Decoded.found]
    · have := ih (i + 1) (lfsrNext k.width k.taps r) (by omega); omega

/-- An encode whose operand is in its domain and whose parameters are there (R119). -/
theorem encodeKind_ok {p : Params} {k : Kind} {count : Int} {n : Nat} {c : Codec} (hn : checkCount k count = .ok n)
    (hc : kindTable p k = .ok c) : encodeKind p k count = .ok (c.encode n) := by
  show (checkCount k count >>= fun n => kindTable p k >>= fun c => Except.ok (c.encode n)) = _
  rw [hn, except_ok_bind, hc]; rfl

/-- A bad operand is refused whatever the parameters (R76). -/
theorem encodeKind_bad {p : Params} {k : Kind} {count : Int} {e : HardError} (hn : checkCount k count = .error e) :
    encodeKind p k count = .error e := by
  show (checkCount k count >>= fun n => kindTable p k >>= fun c => Except.ok (c.encode n)) = _
  rw [hn]; rfl

/-- Missing parameters are refused after the operand (D4, D5). -/
theorem encodeKind_missing {p : Params} {k : Kind} {count : Int} {n : Nat} {e : HardError}
    (hn : checkCount k count = .ok n) (hc : kindTable p k = .error e) : encodeKind p k count = .error e := by
  show (checkCount k count >>= fun n => kindTable p k >>= fun c => Except.ok (c.encode n)) = _
  rw [hn, except_ok_bind, hc]; rfl

/-- A decode whose operand is in its domain and whose parameters are there (R119). -/
theorem decodeKind_ok {p : Params} {k : Kind} {value : Int} {v : Nat} {c : Codec} (hv : checkValue k value = .ok v)
    (hc : kindTable p k = .ok c) : decodeKind p k value = .ok (c.decode v) := by
  show (checkValue k value >>= fun n => kindTable p k >>= fun c => Except.ok (c.decode n)) = _
  rw [hv, except_ok_bind, hc]; rfl

/-- A bad operand is refused whatever the parameters (R76). -/
theorem decodeKind_bad {p : Params} {k : Kind} {value : Int} {e : HardError} (hv : checkValue k value = .error e) :
    decodeKind p k value = .error e := by
  show (checkValue k value >>= fun n => kindTable p k >>= fun c => Except.ok (c.decode n)) = _
  rw [hv]; rfl

/-- Missing parameters are refused after the operand (D4, D5). -/
theorem decodeKind_missing {p : Params} {k : Kind} {value : Int} {v : Nat} {e : HardError}
    (hv : checkValue k value = .ok v) (hc : kindTable p k = .error e) : decodeKind p k value = .error e := by
  show (checkValue k value >>= fun n => kindTable p k >>= fun c => Except.ok (c.decode n)) = _
  rw [hv, except_ok_bind, hc]; rfl

end Sys2Proof.Laws
end

