-- ==== Sys2Proof/Laws/Gray.lean ====
section
/-! SUPPORT. The Gray codec bit by bit: what each function does to bit `i`, and that the two undo each other on
14 bits. -/

namespace Sys2Proof.Laws

open Sys2Proof.Machine

/-- The XOR of the `n` bits of `f` from bit `i` up. -/
def xorFrom (f : Nat → Bool) (i n : Nat) : Bool := ((List.range' i n).map f).foldl xor false

theorem foldl_xor (l : List Bool) (b : Bool) : l.foldl xor b = (b ^^ l.foldl xor false) := by
  induction l generalizing b with
  | nil => simp
  | cons a l ih => rw [List.foldl_cons, ih, List.foldl_cons, ih (false ^^ a)]; simp

@[simp] theorem xorFrom_zero (f : Nat → Bool) (i : Nat) : xorFrom f i 0 = false := rfl

theorem xorFrom_succ (f : Nat → Bool) (i n : Nat) : xorFrom f i (n + 1) = (f i ^^ xorFrom f (i + 1) n) := by
  rw [xorFrom, List.range'_succ, List.map_cons, List.foldl_cons, foldl_xor]; simp [xorFrom]

theorem xorFrom_shift (s i n : Nat) : xorFrom (s >>> 1).testBit i n = xorFrom s.testBit (i + 1) n := by
  induction n generalizing i with
  | zero => rfl
  | succ n ih => rw [xorFrom_succ, xorFrom_succ, ih]; simp [Nat.add_comm]

theorem xorFrom_eq_false {f : Nat → Bool} {i : Nat} (n : Nat) (h : ∀ j ≥ i, f j = false) :
    xorFrom f i n = false := by
  induction n generalizing i with
  | zero => rfl
  | succ n ih => rw [xorFrom_succ, ih fun j hj => h j (by omega), h i (by omega)]; rfl

theorem xorFrom_add (f : Nat → Bool) (i n m : Nat) :
    xorFrom f i (n + m) = (xorFrom f i n ^^ xorFrom f (i + n) m) := by
  induction n generalizing i with
  | zero => simp
  | succ n ih =>
    rw [show n + 1 + m = (n + m) + 1 by omega, xorFrom_succ, ih, xorFrom_succ, Bool.xor_assoc]
    congr 3; omega

theorem testBit_of_lt {v n i : Nat} (h : v < 2 ^ n) (hi : n ≤ i) : v.testBit i = false :=
  Nat.testBit_eq_false_of_lt (h.trans_le (Nat.pow_le_pow_right (by norm_num) hi))

/-- The loop of R117 on a shift that its rounds can empty: bit `i` collects the shift's bits from `i` up. -/
theorem grayLoop_testBit {fuel s : Nat} (b i : Nat) (h : s < 2 ^ fuel) :
    (grayLoop fuel b s).testBit i = (b.testBit i ^^ xorFrom s.testBit i fuel) := by
  induction fuel generalizing b s with
  | zero => simp [grayLoop]
  | succ n ih =>
    rw [grayLoop]; split
    · subst s; rw [xorFrom_eq_false] <;> simp
    · rw [ih _ (by rw [Nat.shiftRight_eq_div_pow]; omega), xorFrom_shift, xorFrom_succ]; simp

/-- Bit `i` of a decoded 14-bit value is the XOR of the value's bits 13 down to `i` (R117). -/
theorem gray2bin_testBit {g i : Nat} (h : g < 2 ^ 14) (hi : i ≤ 14) :
    (gray2bin g).testBit i = xorFrom g.testBit i (14 - i) := by
  rw [gray2bin, grayLoop_testBit _ _ (by rw [Nat.shiftRight_eq_div_pow]; omega), xorFrom_shift, ← xorFrom_succ,
    show 14 + 1 = (14 - i) + (i + 1) by omega, xorFrom_add,
    xorFrom_eq_false (i + 1) fun j hj => testBit_of_lt h (by omega)]
  simp

theorem gray2bin_testBit_high {g i : Nat} (h : g < 2 ^ 14) (hi : 14 ≤ i) : (gray2bin g).testBit i = false := by
  rw [gray2bin, grayLoop_testBit _ _ (by rw [Nat.shiftRight_eq_div_pow]; omega), xorFrom_shift, ← xorFrom_succ,
    xorFrom_eq_false _ fun j hj => testBit_of_lt h (by omega)]

theorem gray2bin_lt {g : Nat} (h : g < 2 ^ 14) : gray2bin g < 2 ^ 14 :=
  Nat.lt_pow_two_of_testBit _ fun _ hi => gray2bin_testBit_high h hi

theorem bin2gray_testBit (n i : Nat) : (bin2gray n).testBit i = (n.testBit i ^^ n.testBit (i + 1)) := by
  rw [bin2gray]; simp [Nat.add_comm]

theorem bin2gray_lt {n : Nat} (h : n < 2 ^ 14) : bin2gray n < 2 ^ 14 := by
  refine Nat.xor_lt_two_pow h ?_
  rw [Nat.shiftRight_eq_div_pow]; omega

/-- Decoding undoes encoding on 14 bits (R117). -/
theorem gray2bin_bin2gray {n : Nat} (h : n < 2 ^ 14) : gray2bin (bin2gray n) = n := by
  have telescope : ∀ k j, xorFrom (bin2gray n).testBit j k = (n.testBit j ^^ n.testBit (j + k)) := by
    intro k
    induction k with
    | zero => simp
    | succ k ih =>
      intro j
      rw [xorFrom_succ, ih, bin2gray_testBit, show j + 1 + k = j + (k + 1) by omega]
      cases n.testBit j <;> cases n.testBit (j + 1) <;> simp
  refine Nat.eq_of_testBit_eq fun i => ?_
  rcases lt_or_ge i 14 with hi | hi
  · rw [gray2bin_testBit (bin2gray_lt h) hi.le, telescope, testBit_of_lt (i := i + (14 - i)) h (by omega)]; simp
  · rw [gray2bin_testBit_high (bin2gray_lt h) hi, testBit_of_lt h hi]

/-- Encoding undoes decoding on 14 bits (R116, R117). -/
theorem bin2gray_gray2bin {g : Nat} (h : g < 2 ^ 14) : bin2gray (gray2bin g) = g := by
  refine Nat.eq_of_testBit_eq fun i => ?_
  rw [bin2gray_testBit]
  rcases lt_or_ge i 14 with hi | hi
  · rw [gray2bin_testBit h hi.le, gray2bin_testBit h hi, show 14 - i = (14 - (i + 1)) + 1 by omega, xorFrom_succ]
    simp
  · rw [gray2bin_testBit_high h hi, gray2bin_testBit_high h (by omega), testBit_of_lt h hi]; rfl

end Sys2Proof.Laws
end

