-- ==== Sys2Proof/Laws/Time.lean ====
section
/-! SUPPORT. The time quantiser: what its tick counts are as integers, and when each conversion answers. -/

namespace Sys2Proof.Laws

open Sys2Proof.Machine

theorem ticks_nonneg {c : Cfg} {t : Rat} (hf : 0 < c.fSys) (h : c.epoch ≤ t) : 0 ≤ c.ticks t :=
  mul_nonneg (by linarith) hf.le

/-- The ToA tick count is the integer ceiling (R151). -/
theorem toaTicks_eq_toNat (c : Cfg) (t : Rat) : toaTicks c t = ⌈(t - c.epoch) * c.fSys⌉.toNat := by
  rw [toaTicks, Cfg.ticks, Int.ceil_toNat]

theorem toaTicks_le {c : Cfg} {t : Rat} (h : ⌈(t - c.epoch) * c.fSys⌉ ≤ 16383) : toaTicks c t ≤ 16383 := by
  rw [toaTicks_eq_toNat]; omega

/-- `time_to_toa` in its domain (R151). -/
theorem timeToToa_ok {c : Cfg} (n : OperandName) {t : Rat} (h : c.epoch ≤ t)
    (h' : ⌈(t - c.epoch) * c.fSys⌉ ≤ 16383) : timeToToa c n t = .ok (bin2gray (toaTicks c t)) := by
  have := toaTicks_le h'
  rw [timeToToa, checkTime_ok _ h]
  simp; omega

/-- `time_to_toa` beyond the 14-bit span (R151, D31). -/
theorem timeToToa_late {c : Cfg} (n : OperandName) {t : Rat} (h : c.epoch ≤ t)
    (h' : 16383 < ⌈(t - c.epoch) * c.fSys⌉) : timeToToa c n t = .error (.range .t (.rat t)) := by
  have : 16383 < toaTicks c t := by rw [toaTicks_eq_toNat]; omega
  rw [timeToToa, checkTime_ok _ h]
  simp; omega

/-- All that `time_to_toa` can answer. -/
theorem timeToToa_eq_ok {c : Cfg} {n : OperandName} {t : Rat} {g : Nat} :
    timeToToa c n t = .ok g ↔
      c.epoch ≤ t ∧ ⌈(t - c.epoch) * c.fSys⌉ ≤ 16383 ∧ g = bin2gray (toaTicks c t) := by
  rcases lt_or_ge t c.epoch with h | h
  · rw [timeToToa, checkTime_early _ h]; simp [h]
  · rcases lt_or_ge 16383 ⌈(t - c.epoch) * c.fSys⌉ with h' | h'
    · rw [timeToToa_late _ h h']; simp; omega
    · rw [timeToToa_ok _ h h']; simp [h, h', eq_comm]

/-- The latest system edge at or before `t` (R150, R153). -/
theorem floor_ticks {c : Cfg} {t : Rat} {k : Nat} (hf : 0 < c.fSys) (h : c.epoch + (k : Rat) / c.fSys ≤ t)
    (h' : t < c.epoch + ((k : Rat) + 1) / c.fSys) : ⌊c.ticks t⌋₊ = k := by
  have low : (k : Rat) ≤ c.ticks t := by rw [Cfg.ticks, ← div_le_iff₀ hf]; linarith
  have high : c.ticks t < k + 1 := by rw [Cfg.ticks, ← lt_div_iff₀ hf]; linarith
  rw [Nat.floor_eq_iff (by linarith [Nat.cast_nonneg (α := Rat) k])]
  exact ⟨low, high⟩

/-- The ToT tick count is the difference of the integer floors (R155). -/
theorem totTicks_eq {c : Cfg} {start stop : Rat} (hf : 0 < c.fSys) (h : c.epoch ≤ start) (h' : start ≤ stop) :
    (totTicks c start stop : Int) = ⌊(stop - c.epoch) * c.fSys⌋ - ⌊(start - c.epoch) * c.fSys⌋ := by
  have hs := ticks_nonneg hf h
  have hm : c.ticks start ≤ c.ticks stop := mul_le_mul_of_nonneg_right (by linarith) hf.le
  rw [totTicks, Nat.cast_sub (Nat.floor_mono hm), Int.natCast_floor_eq_floor (by linarith),
    Int.natCast_floor_eq_floor hs]
  rfl

/-- An fToA field is 4 bits (R118, R153). -/
theorem ftoaOf_le (c : Cfg) (r : FineRounding) (t : Rat) : ftoaOf c r t ≤ 15 := min_le_right _ _

end Sys2Proof.Laws
end

