-- ==== Sys2Proof/Laws/Packet.lean ====
section
/-! SUPPORT. Packets: when assembly, disassembly, hit encoding and deserialisation answer, and with what. -/

namespace Sys2Proof.Laws

open Sys2Proof.Machine

theorem assemble_ok {a g sec f : Nat} (ha : a ≤ 65535) (hg : g ≤ 16383) (hs : sec ≤ 1023) (hf : f ≤ 15) :
    assemble a g sec f = .ok (packetWord a g sec f) := by
  simp [assemble, checkMax_natCast _ ha, checkMax_natCast _ hg, checkMax_natCast _ hs, checkMax_natCast _ hf]

/-- The parts of an assembled word (R71, R72). -/
theorem packetWord_parts {a g sec f : Nat} (ha : a < 2 ^ 16) (hg : g < 2 ^ 14) (hs : sec < 2 ^ 10)
    (hf : f < 2 ^ 4) :
    packetWord a g sec f < 2 ^ 48 ∧ packetWord a g sec f / 2 ^ 44 = 10 ∧
      fieldsOf (packetWord a g sec f) = ⟨a, g, sec, f⟩ := by
  rw [packetWord_eq ha hg hs hf, fieldsOf]
  simp only [slice_eq, Fields.mk.injEq]
  omega

/-- Disassembly of a word whose header passes (R201). -/
theorem disassemble_ok {h : HeaderCheck} {w : Nat} (hw : w < 2 ^ 48) (hh : w / 2 ^ 44 = 10 ∨ h = .ignore) :
    disassemble h w = .ok (fieldsOf w) := by
  rw [disassemble, checkMax_natCast _ (by omega : w ≤ 2 ^ 48 - 1), except_ok_bind, checkHeader, if_neg]
  · rfl
  · rw [slice_eq]
    rintro ⟨rfl, hne⟩
    rcases hh with hh | hh
    · omega
    · simp at hh

/-- Bytes in range pass (R205). -/
theorem checkBytes_ok (j : Nat) {l : List Nat} (h : ∀ b ∈ l, b ≤ 255) : checkBytes j (l.map Int.ofNat) = .ok l := by
  induction l generalizing j with
  | nil => rfl
  | cons b l ih =>
    simp [checkBytes, checkMax_natCast _ (h b (by simp)), ih (j + 1) fun b hb => h b (by simp [hb])]

/-- The first value that is no byte is the one refused, by its place (R205, R245). -/
theorem checkBytes_first_bad (j : Nat) {l : List Int} {k : Nat} {v : Int} (hk : l[k]? = some v)
    (hl : ∀ i < k, ∀ b, l[i]? = some b → 0 ≤ b ∧ b ≤ 255) (hv : v < 0 ∨ 255 < v) :
    checkBytes j l = .error (.range (.byte (j + k)) (.int v)) := by
  induction l generalizing j k with
  | nil => simp at hk
  | cons b l ih =>
    cases k with
    | zero =>
      simp only [List.getElem?_cons_zero, Option.some.injEq] at hk
      subst hk
      simp [checkBytes, checkMax_outside _ (by omega : b < 0 ∨ ((255 : Nat) : Int) < b)]
    | succ k =>
      have h0 := hl 0 (by omega) b rfl
      rw [checkBytes, checkMax_within _ h0.1 (by omega)]
      simp only
      rw [ih (j + 1) (by simpa using hk) fun i hi b hb => hl (i + 1) (by omega) b (by simpa using hb)]
      simp; omega

/-- Six bytes of a 48-bit word deserialise to it (R204, R205). -/
theorem deserialise_beBytes {w : Nat} (h : w < 2 ^ 48) :
    deserialise ((beBytes 6 w).map fun b => (b.toNat : Int)) = .ok w := by
  have e : (beBytes 6 w).map (fun b => (b.toNat : Int)) = ((beBytes 6 w).map BitVec.toNat).map Int.ofNat := by simp
  rw [e, deserialise, checkBytes_ok]
  · simp [Except.map, beNat_beBytes_six h]
  · intro b hb
    obtain ⟨a, -, rfl⟩ := List.mem_map.1 hb
    have := a.isLt; omega

end Sys2Proof.Laws
end

