-- ==== Sys2Proof/Laws/PerInstr.lean ====
section
/-! SUPPORT. Per instruction: the form its encoding has, one byte of `OPSEL` with operands (R73, R75) or the six
bytes of a packet with none (R71, R80). -/

namespace Sys2Proof.Laws.EncodeForm

/-- The encoding is a one-byte selector, or the six bytes of a packet, which carries no other operand. -/
def Statement (i : Instr) : Prop :=
  (∃ opsel, (encode i).code = [opsel]) ∨ ((encode i).code.length = 6 ∧ (encode i).operands = [])

theorem addrEnc (x y : Int) : Statement (.addrEnc x y) := Or.inl ⟨_, rfl⟩
theorem addrDec (address : Int) : Statement (.addrDec address) := Or.inl ⟨_, rfl⟩
theorem lfsrStep (register width t1 t2 t3 t4 : Int) :
    Statement (.lfsrStep register width t1 t2 t3 t4) := Or.inl ⟨_, rfl⟩
theorem encToa (count : Int) : Statement (.encToa count) := Or.inl ⟨_, rfl⟩
theorem decToa (value : Int) : Statement (.decToa value) := Or.inl ⟨_, rfl⟩
theorem encFtoa (count : Int) : Statement (.encFtoa count) := Or.inl ⟨_, rfl⟩
theorem decFtoa (value : Int) : Statement (.decFtoa value) := Or.inl ⟨_, rfl⟩
theorem encTot (count : Int) : Statement (.encTot count) := Or.inl ⟨_, rfl⟩
theorem decTot (value : Int) : Statement (.decTot value) := Or.inl ⟨_, rfl⟩
theorem encItot (count : Int) : Statement (.encItot count) := Or.inl ⟨_, rfl⟩
theorem decItot (value : Int) : Statement (.decItot value) := Or.inl ⟨_, rfl⟩
theorem encPc10 (count : Int) : Statement (.encPc10 count) := Or.inl ⟨_, rfl⟩
theorem decPc10 (value : Int) : Statement (.decPc10 value) := Or.inl ⟨_, rfl⟩
theorem encPc4 (count : Int) : Statement (.encPc4 count) := Or.inl ⟨_, rfl⟩
theorem decPc4 (value : Int) : Statement (.decPc4 value) := Or.inl ⟨_, rfl⟩
theorem t2toa (t : Rat) : Statement (.t2toa t) := Or.inl ⟨_, rfl⟩
theorem toa2t (toa : Int) : Statement (.toa2t toa) := Or.inl ⟨_, rfl⟩
theorem t2ftoa (t : Rat) : Statement (.t2ftoa t) := Or.inl ⟨_, rfl⟩
theorem ftoa2t (ftoa toa : Int) : Statement (.ftoa2t ftoa toa) := Or.inl ⟨_, rfl⟩
theorem t2tot (start stop : Rat) : Statement (.t2tot start stop) := Or.inl ⟨_, rfl⟩
theorem tot2t (tot toa : Int) (ftoa : Option Int) : Statement (.tot2t tot toa ftoa) := Or.inl ⟨_, rfl⟩
theorem t2val (start stop : Rat) (mode : ModeCode) : Statement (.t2val start stop mode) := Or.inl ⟨_, rfl⟩
theorem deadtime (previousTot : Int) (mode : ModeCode) (clock : Rat) :
    Statement (.deadtime previousTot mode clock) := Or.inl ⟨_, rfl⟩
theorem acqStart (mode : ModeCode) (fSys fFine epoch : Option Rat) :
    Statement (.acqStart mode fSys fFine epoch) := Or.inl ⟨_, rfl⟩
theorem accept (address : Int) (start stop : Rat) : Statement (.accept address start stop) := Or.inl ⟨_, rfl⟩
theorem acceptSeq (mode : ModeCode) (pulses : List Pulse) : Statement (.acceptSeq mode pulses) := Or.inl ⟨_, rfl⟩
theorem pktAsm (address toa secondary ftoa : Int) :
    Statement (.pktAsm address toa secondary ftoa) := Or.inl ⟨_, rfl⟩
theorem pktDis (word : Int) : Statement (.pktDis word) := Or.inl ⟨_, rfl⟩
theorem hitEnc (address : Int) (start stop : Rat) (mode : ModeCode) :
    Statement (.hitEnc address start stop mode) := Or.inl ⟨_, rfl⟩
theorem hitDec (word : Int) (mode : ModeCode) (wantTime wantDecoded : Bool) :
    Statement (.hitDec word mode wantTime wantDecoded) := Or.inl ⟨_, rfl⟩
theorem pktSer (word : Int) : Statement (.pktSer word) := Or.inl ⟨_, rfl⟩
theorem pktDes (b0 b1 b2 b3 b4 b5 : Int) : Statement (.pktDes b0 b1 b2 b3 b4 b5) := Or.inl ⟨_, rfl⟩
theorem streamSplit (bytes : List Int) : Statement (.streamSplit bytes) := Or.inl ⟨_, rfl⟩
theorem encStream (hits : List Hit) (mode : ModeCode) : Statement (.encStream hits mode) := Or.inl ⟨_, rfl⟩
theorem decStream (bytes : List Int) (mode : ModeCode) (wantTime wantDecoded : Bool) :
    Statement (.decStream bytes mode wantTime wantDecoded) := Or.inl ⟨_, rfl⟩
theorem pkt48 (address : BitVec 16) (toa : BitVec 14) (secondary : BitVec 10) (ftoa : BitVec 4) :
    Statement (.pkt48 address toa secondary ftoa) := Or.inr ⟨rfl, rfl⟩

end Sys2Proof.Laws.EncodeForm
end

