-- ==== Sys2Proof/Laws/Stream.lean ====
section
/-! SUPPORT. Streams: the pixels of a batch in ascending address order, and that the merge sorts. -/

namespace Sys2Proof.Laws

open Sys2Proof.Machine

theorem mem_insertAddress {a b : Nat} {l : List Nat} : b ∈ insertAddress a l ↔ b = a ∨ b ∈ l := by
  induction l with
  | nil => simp [insertAddress]
  | cons c l ih =>
    rw [insertAddress]; split
    · simp
    · split
      · subst a; simp
      · simp [ih]; tauto

theorem insertAddress_rising (a : Nat) {l : List Nat} (h : l.Pairwise (· < ·)) :
    (insertAddress a l).Pairwise (· < ·) := by
  induction l with
  | nil => simp [insertAddress]
  | cons c l ih =>
    obtain ⟨h1, h2⟩ := List.pairwise_cons.1 h
    rw [insertAddress]; split
    · refine List.pairwise_cons.2 ⟨fun b hb => ?_, h⟩
      rcases List.mem_cons.1 hb with rfl | hb
      · assumption
      · have := h1 b hb; omega
    · split
      · exact h
      · refine List.pairwise_cons.2 ⟨fun b hb => ?_, ih h2⟩
        rcases mem_insertAddress.1 hb with rfl | hb
        · omega
        · exact h1 b hb

/-- The pixels of a batch are those its hits name (R220, step 2). -/
theorem mem_pixelsOf {hs : List AddressedHit} {a : Nat} : a ∈ pixelsOf hs ↔ ∃ h ∈ hs, h.addr = a := by
  induction hs with
  | nil => simp [pixelsOf]
  | cons x hs ih =>
    change a ∈ insertAddress x.addr (pixelsOf hs) ↔ _
    rw [mem_insertAddress, ih]; simp [eq_comm]

/-- They are taken in ascending address order (R245). -/
theorem pixelsOf_rising (hs : List AddressedHit) : (pixelsOf hs).Pairwise (· < ·) := by
  induction hs with
  | nil => simp [pixelsOf]
  | cons x hs ih => exact insertAddress_rising _ ih

theorem insertKeyed_perm (w : KeyedWord) (l : List KeyedWord) : (insertKeyed w l).Perm (w :: l) := by
  induction l with
  | nil => exact .refl _
  | cons v l ih =>
    rw [insertKeyed]; split
    · exact .refl _
    · exact (List.Perm.cons v ih).trans (.swap _ _ _)

/-- The merge neither drops nor adds a packet (R220, step 4). -/
theorem mergeByToa_perm (l : List KeyedWord) : (mergeByToa l).Perm l := by
  induction l with
  | nil => exact .refl _
  | cons v l ih => exact (insertKeyed_perm _ _).trans (.cons v ih)

theorem keyedWord_le_total {u v : KeyedWord} (h : u.le v = false) : v.le u = true := by
  simp [KeyedWord.le] at *; omega

theorem keyedWord_le_trans {u v w : KeyedWord} (h : u.le v = true) (h' : v.le w = true) : u.le w = true := by
  simp [KeyedWord.le] at *; omega

/-- The merge sorts by the key of R220 (step 4). -/
theorem mergeByToa_sorted (l : List KeyedWord) : (mergeByToa l).Pairwise fun u v => u.le v = true := by
  have insert : ∀ (w : KeyedWord) (l : List KeyedWord), (l.Pairwise fun u v => u.le v = true) →
      (insertKeyed w l).Pairwise fun u v => u.le v = true := by
    intro w l h
    induction l with
    | nil => simp [insertKeyed]
    | cons v l ih =>
      obtain ⟨h1, h2⟩ := List.pairwise_cons.1 h
      rw [insertKeyed]; split
      · rename_i hw
        refine List.pairwise_cons.2 ⟨fun b hb => ?_, h⟩
        rcases List.mem_cons.1 hb with rfl | hb
        · exact hw
        · exact keyedWord_le_trans hw (h1 b hb)
      · rename_i hw
        refine List.pairwise_cons.2 ⟨fun b hb => ?_, ih h2⟩
        rcases List.mem_cons.1 ((insertKeyed_perm w l).mem_iff.1 hb) with rfl | hb
        · exact keyedWord_le_total (by simpa using hw)
        · exact h1 b hb
  induction l with
  | nil => simp [mergeByToa]
  | cons v l ih => exact insert _ _ ih

end Sys2Proof.Laws
end

