-- ==== Sys2Proof/Tests/Slice0.lean ====
section
/-! SUPPORT. Our own tests. Expected values are those of 95_test_vectors.md (its section is named at each test) or
are worked by hand from the rule named. `witness_<Name>` shows concrete operands and states that meet the hypotheses
of `Obligations.<Name>`, clause by clause and at the ends of each clause's range, with the answer there. -/

namespace Sys2Proof.Tests

open Sys2Proof.Machine

-- One theorem after another: each kernel evaluation waits for the theorems before it, and waiting threads add up.
set_option Elab.async false

/-- Nanoseconds. -/
def ns (q : Rat) : Rat := q / 1000000000

/-- What the host reads after one operation. -/
def resultOf (i : Instr) (s : State := State.reset) : Option Result :=
  match exec i s with
  | .next t => some t.result
  | _ => none

/-- What the host reads after one step. -/
def stepResult (s : State) : Option Result :=
  match step s with
  | .next t => some t.result
  | _ => none

def rangeInt (n : OperandName) (v : Int) : Option Result := some (.error (.range n (.int v)))
def rangeRat (n : OperandName) (q : Rat) : Option Result := some (.error (.range n (.rat q)))
def rangeMode (c : ModeCode) : Option Result := some (.error (.range .mode (.code c)))

/-- An acquisition with the default clocks. -/
def running (m : Mode) (pix : PixSpace) : State :=
  { State.reset with cfg := { Cfg.init with mode := some m }, pix := pix }

/-- Pixel 2600 after the accepted pulse (0 ns, 25 ns). -/
def afterPulse : PixRec := { prevTot := 1, prevEnd := ns 25, hasPrev := true, lastStart := some 0 }

/-- A running acquisition with that pixel. -/
def onePixel (m : Mode) : State := running m [(2600, afterPulse)]

/-- Maximal-length parameters of both OPEN kinds (L2.2 names the taps), without and with overflow. -/
def itotParams (ovf : Bool) : LfsrParams 14 := { t1 := 13, t2 := 12, t3 := 11, t4 := 1, ovf := ovf, ovv := 0x1FFF#14 }
def pc4Params (ovf : Bool) : LfsrParams 4 := { t1 := 3, t2 := 2, t3 := 0, t4 := 0, ovf := ovf, ovv := 0x7#4 }
def withOpen (ovf : Bool) : State :=
  { State.reset with
    par := { Params.specChoice with itot := some (itotParams ovf), pc4b := some (pc4Params ovf) } }

/-- The parameters with `FTOA_COUNT = ceil` or `HEADER_CHECK = ignore`. -/
def ceiling : State := { State.reset with par := { Params.specChoice with ftoaCount := .ceil } }
def ignoring : State := { State.reset with par := { Params.specChoice with headerCheck := .ignore } }

/-! ## WellFormed refuses an ill-formed term of each check -/

theorem test_wf_x : Instr.wf (.addrEnc 256 0) = false := by decide
theorem test_wf_y : Instr.wf (.addrEnc 0 (-1)) = false := by decide
theorem test_wf_address : Instr.wf (.addrDec 65536) = false := by decide
theorem test_wf_width : Instr.wf (.lfsrStep 1 17 6 9 0 0) = false ∧ Instr.wf (.lfsrStep 0 0 0 0 0 0) = false := by
  decide
theorem test_wf_taps : Instr.wf (.lfsrStep 1 10 10 9 0 0) = false ∧ Instr.wf (.lfsrStep 1 10 6 9 3 10) = false ∧
    Instr.wf (.lfsrStep 1 10 6 9 (-1) 0) = false ∧ Instr.wf (.lfsrStep 1 10 6 9 0 10) = true := by decide
theorem test_wf_register : Instr.wf (.lfsrStep 1024 10 6 9 0 0) = false := by decide
theorem test_wf_toa_count : Instr.wf (.encToa 16384) = false := by decide
theorem test_wf_counts : ([.encFtoa (-1), .encTot (-1), .encItot (-1), .encPc10 (-1), .encPc4 (-1)] : List Instr).all
    (fun i => !i.wf) = true := by decide
theorem test_wf_values : ([.decToa 16384, .decFtoa 16, .decTot 1024, .decItot 16384, .decPc10 1024, .decPc4 16] :
    List Instr).all (fun i => !i.wf) = true := by decide
theorem test_wf_toa_fields : ([.toa2t 16384, .ftoa2t 16 0, .ftoa2t 0 16384, .tot2t 1024 0 none, .tot2t 0 16384 none,
    .tot2t 0 0 (some 16)] : List Instr).all (fun i => !i.wf) = true := by decide
theorem test_wf_pulse_order : ([.t2tot 1 0, .t2val 1 0 0, .accept 0 1 0, .hitEnc 0 1 0 0, .acceptSeq 0 [⟨1, 0⟩]] :
    List Instr).all (fun i => !i.wf) = true := by decide +kernel
theorem test_wf_any_mode : ([.deadtime 0 3 1, .acqStart 3 none none none, .acceptSeq 3 []] : List Instr).all
    (fun i => !i.wf) = true := by decide +kernel
theorem test_wf_packet_mode : ([.t2val 0 0 2, .hitEnc 0 0 0 3, .hitDec 0 2 true true, .encStream [] 3,
    .decStream [] 2 true true] : List Instr).all (fun i => !i.wf) = true := by decide +kernel
theorem test_wf_previous_tot : Instr.wf (.deadtime (-1) 0 1) = false := by decide +kernel
theorem test_wf_clocks : ([.deadtime 0 0 0, .acqStart 0 (some 0) none none, .acqStart 0 none (some (-1)) none] :
    List Instr).all (fun i => !i.wf) = true := by decide +kernel
theorem test_wf_packet_fields : ([.accept 65536 0 1, .pktAsm 65536 0 0 0, .pktAsm 0 16384 0 0, .pktAsm 0 0 1024 0,
    .pktAsm 0 0 0 16, .hitEnc 65536 0 1 0] : List Instr).all (fun i => !i.wf) = true := by decide +kernel
theorem test_wf_words : ([.pktDis (2 ^ 48), .hitDec (2 ^ 48) 0 true true, .pktSer (-1)] : List Instr).all
    (fun i => !i.wf) = true := by decide
theorem test_wf_bytes : ([.pktDes 0 0 0 0 0 256, .streamSplit [0, 0, 0, 0, 0, 256],
    .decStream [-1, 0, 0, 0, 0, 0] 0 true true] : List Instr).all (fun i => !i.wf) = true := by decide
theorem test_wf_stream_length : ([.streamSplit [0], .decStream [0, 0, 0, 0, 0, 0, 0] 0 true true] : List Instr).all
    (fun i => !i.wf) = true := by decide
theorem test_wf_hits : ([.encStream [⟨256, 0, 0, 1⟩] 0, .encStream [⟨0, 256, 0, 1⟩] 0, .encStream [⟨0, 0, 1, 0⟩] 0] :
    List Instr).all (fun i => !i.wf) = true := by decide +kernel
theorem test_wf_admits : ([.addrEnc 255 255, .lfsrStep 0x3FF 10 6 9 0 0, .encTot 40000, .hitEnc 2600 0 1 1,
    .acqStart 2 none none (some (-1)), .encStream [⟨0, 255, 0, 0⟩] 0, .decStream [] 1 false false] :
    List Instr).all Instr.wf = true := by decide +kernel

/-! ## Decoding: each word written out from R73 (group, operation) and R74 (kind, direction), R71 for the packet -/

theorem test_decode_addrEnc : decode ⟨[0b0000_0001#8], [.int 10, .int 20]⟩ = .ok (.addrEnc 10 20) := rfl
theorem test_decode_addrDec : decode ⟨[0b0000_0010#8], [.int 2600]⟩ = .ok (.addrDec 2600) := rfl
theorem test_decode_lfsrStep : decode ⟨[0b0000_1000#8], [.int 5, .int 4, .taps 3 2 1 0]⟩
    = .ok (.lfsrStep 5 4 3 2 1 0) := rfl
theorem test_decode_encToa : decode ⟨[0b0001_000_0#8], [.int 4]⟩ = .ok (.encToa 4) := rfl
theorem test_decode_decToa : decode ⟨[0b0001_000_1#8], [.int 6]⟩ = .ok (.decToa 6) := rfl
theorem test_decode_encFtoa : decode ⟨[0b0001_001_0#8], [.int 20]⟩ = .ok (.encFtoa 20) := rfl
theorem test_decode_decFtoa : decode ⟨[0b0001_001_1#8], [.int 7]⟩ = .ok (.decFtoa 7) := rfl
theorem test_decode_encTot : decode ⟨[0b0001_010_0#8], [.int 4]⟩ = .ok (.encTot 4) := rfl
theorem test_decode_decTot : decode ⟨[0b0001_010_1#8], [.int 0x3F0]⟩ = .ok (.decTot 0x3F0) := rfl
theorem test_decode_encItot : decode ⟨[0b0001_011_0#8], [.int 5]⟩ = .ok (.encItot 5) := rfl
theorem test_decode_decItot : decode ⟨[0b0001_011_1#8], [.int 5]⟩ = .ok (.decItot 5) := rfl
theorem test_decode_encPc10 : decode ⟨[0b0001_100_0#8], [.int 5]⟩ = .ok (.encPc10 5) := rfl
theorem test_decode_decPc10 : decode ⟨[0b0001_100_1#8], [.int 5]⟩ = .ok (.decPc10 5) := rfl
theorem test_decode_encPc4 : decode ⟨[0b0001_101_0#8], [.int 5]⟩ = .ok (.encPc4 5) := rfl
theorem test_decode_decPc4 : decode ⟨[0b0001_101_1#8], [.int 3]⟩ = .ok (.decPc4 3) := rfl
theorem test_decode_t2toa : decode ⟨[0b0010_0000#8], [.rat 1]⟩ = .ok (.t2toa 1) := rfl
theorem test_decode_toa2t : decode ⟨[0b0010_0001#8], [.int 6]⟩ = .ok (.toa2t 6) := rfl
theorem test_decode_t2ftoa : decode ⟨[0b0010_0010#8], [.rat 1]⟩ = .ok (.t2ftoa 1) := rfl
theorem test_decode_ftoa2t : decode ⟨[0b0010_0011#8], [.int 12, .int 3]⟩ = .ok (.ftoa2t 12 3) := rfl
theorem test_decode_t2tot : decode ⟨[0b0010_0100#8], [.rat 1, .rat 2]⟩ = .ok (.t2tot 1 2) := rfl
theorem test_decode_tot2t : decode ⟨[0b0010_0101#8], [.int 0x3F0, .int 6, .optInt (some 15)]⟩
    = .ok (.tot2t 0x3F0 6 (some 15)) := rfl
theorem test_decode_t2val : decode ⟨[0b0010_0110#8], [.rat 1, .rat 2, .mode 0b01#2]⟩ = .ok (.t2val 1 2 1) := rfl
theorem test_decode_deadtime : decode ⟨[0b0011_0000#8], [.int 1, .mode 0b10#2, .rat 3]⟩ = .ok (.deadtime 1 2 3) := rfl
theorem test_decode_acqStart : decode ⟨[0b0011_0001#8], [.mode 0b01#2, .optRat (some 1), .optRat none, .optRat (some 3)]⟩
    = .ok (.acqStart 1 (some 1) none (some 3)) := rfl
theorem test_decode_accept : decode ⟨[0b0011_0010#8], [.int 7, .rat 1, .rat 2]⟩ = .ok (.accept 7 1 2) := rfl
theorem test_decode_acceptSeq : decode ⟨[0b0011_0011#8], [.mode 0b10#2, .pulses [⟨1, 2⟩]]⟩
    = .ok (.acceptSeq 2 [⟨1, 2⟩]) := rfl
theorem test_decode_pktAsm : decode ⟨[0b0100_0000#8], [.int 1, .int 2, .int 3, .int 4]⟩ = .ok (.pktAsm 1 2 3 4) := rfl
theorem test_decode_pktDis : decode ⟨[0b0100_0001#8], [.int 9]⟩ = .ok (.pktDis 9) := rfl
theorem test_decode_hitEnc : decode ⟨[0b0100_0010#8], [.int 7, .rat 1, .rat 2, .mode 0b01#2]⟩
    = .ok (.hitEnc 7 1 2 1) := rfl
theorem test_decode_hitDec : decode ⟨[0b0100_0011#8], [.int 9, .mode 0b01#2, .bool true, .bool false]⟩
    = .ok (.hitDec 9 1 true false) := rfl
theorem test_decode_pktSer : decode ⟨[0b0100_0100#8], [.int 9]⟩ = .ok (.pktSer 9) := rfl
theorem test_decode_pktDes : decode ⟨[0b0100_0101#8], [.int 0, .int 1, .int 2, .int 3, .int 4, .int 5]⟩
    = .ok (.pktDes 0 1 2 3 4 5) := rfl
theorem test_decode_streamSplit : decode ⟨[0b0100_0110#8], [.bytes [1, 2]]⟩ = .ok (.streamSplit [1, 2]) := rfl
theorem test_decode_encStream : decode ⟨[0b0101_0000#8], [.hits [⟨1, 2, 3, 4⟩], .mode 0b01#2]⟩
    = .ok (.encStream [⟨1, 2, 3, 4⟩] 1) := rfl
theorem test_decode_decStream : decode ⟨[0b0101_0001#8], [.bytes [1], .mode 0b01#2, .bool false, .bool true]⟩
    = .ok (.decStream [1] 1 false true) := rfl
/-- L1.7, step 5: header 1010, address 0000101000101000, toa 00000000000110, secondary 1111110000, ftoa 1111. -/
theorem test_decode_pkt48 : decode ⟨[0b10100000#8, 0b10100010#8, 0b10000000#8, 0b00000001#8, 0b10111111#8,
    0b00001111#8], []⟩ = .ok (.pkt48 0b0000101000101000#16 0b00000000000110#14 0b1111110000#10 0b1111#4) := by
  decide
theorem test_decode_reserved_kind : decode ⟨[0b0001_110_0#8], [.int 0]⟩ = .error (.illegalOpsel 0x1C#8) := rfl
theorem test_decode_bad_header : decode ⟨[0x5A#8, 0x28#8, 0x00#8, 0x01#8, 0x80#8, 0x00#8], []⟩
    = .error (.badHeader 5) := by decide
theorem test_table_word : decodeTableWord 8 0x21 = some (.toa2t 0) ∧
    decodeTableWord 48 0xA0A28001BF0F = some (.pkt48 0x0A28#16 6#14 0x3F0#10 15#4) := by decide
theorem test_withFetchWord_runs : stepResult (State.reset.withFetchWord 8 0x14) = some (.value 0x3FF) := by decide

/-! ## Witnesses: presenting and decoding -/

theorem witness_AnythingThatDecodesIsItsEncoding :
    decode ⟨[0x23#8], [.int 12, .int 3]⟩ = .ok (.ftoa2t 12 3) ∧
    decode ⟨[0xAF#8, 0xFF#8, 0xF0#8, 0x0F#8, 0x3E#8, 0x3F#8], []⟩ = .ok (.pkt48 0xFFFF#16 0x3C#14 0x3E3#10 15#4) := by
  decide

/-- A pending operation, and none. -/
theorem witness_StepRunsThePresentedOperation :
    (present ⟨[0x10#8], [.int 4]⟩ State.reset).pending = ⟨[0x10#8], [.int 4]⟩ :: [] ∧
    decode ⟨[0x10#8], [.int 4]⟩ = .ok (.encToa 4) ∧
    stepResult (present ⟨[0x10#8], [.int 4]⟩ State.reset) = some (.value 6) ∧
    State.reset.pending = [] ∧ stepResult State.reset = some .nothing := by decide

theorem witness_IllegalSelectorsRaiseRangeError :
    stepResult (present ⟨[0x00#8], []⟩ State.reset) = some (.error (.range .opsel (.opsel 0x00#8))) ∧
    stepResult (present ⟨[0x1F#8], [.int 1]⟩ State.reset) = some (.error (.range .opsel (.opsel 0x1F#8))) ∧
    stepResult (present ⟨[0xFF#8], []⟩ State.reset) = some (.error (.range .opsel (.opsel 0xFF#8))) := by decide

/-! ## Witnesses: addresses (L2.1) -/

theorem witness_AddrEncReturnsTheFieldAddress :
    resultOf (.addrEnc 0 0) = some (.address 0) ∧ resultOf (.addrEnc 255 255) = some (.address 65535) ∧
    resultOf (.addrEnc 3 7) = some (.address 527) ∧ resultOf (.addrEnc 11 21) = some (.address 2605) ∧
    resultOf (.addrEnc (-1) 256) = rangeInt .x (-1) ∧ resultOf (.addrEnc 256 0) = rangeInt .x 256 ∧
    resultOf (.addrEnc 0 (-1)) = rangeInt .y (-1) ∧ resultOf (.addrEnc 255 256) = rangeInt .y 256 := by decide

theorem witness_AddrDecReturnsTheCoordinate :
    resultOf (.addrDec 0) = some (.coordinate 0 0) ∧ resultOf (.addrDec 65535) = some (.coordinate 255 255) ∧
    resultOf (.addrDec 0x01FB) = some (.coordinate 0 255) ∧ resultOf (.addrDec 7) = some (.coordinate 1 3) ∧
    resultOf (.addrDec (-1)) = rangeInt .address (-1) ∧ resultOf (.addrDec 65536) = rangeInt .address 65536 := by decide

theorem witness_AddressesAndCoordinatesAreInBijection :
    resultOf (.addrEnc 100 200) = some (.address 26000) ∧ resultOf (.addrDec 26000) = some (.coordinate 100 200) ∧
    resultOf (.addrEnc 254 252) = some (.address 65528) ∧ resultOf (.addrDec 65528) = some (.coordinate 254 252) := by
  decide

/-! ## Witnesses: counters (L2.2, L2.3) -/

/-- Two taps, four taps, then width, taps and register outside their domains at each end. -/
theorem witness_LfsrStepShiftsInTheFeedback :
    resultOf (.lfsrStep 0x3FF 10 6 9 0 0) = some (.value 0x3FE) ∧ resultOf (.lfsrStep 0 1 0 0 0 0) = some (.value 0) ∧
    resultOf (.lfsrStep 1 4 1 2 0 7) = some (.value 2) ∧ resultOf (.lfsrStep 5 4 0 3 0 0) = some (.value 0xB) ∧
    resultOf (.lfsrStep 0x2000 14 13 12 11 1) = some (.value 1) ∧
    resultOf (.lfsrStep 0xAB 16 15 14 12 3) = some (.value 0x157) ∧
    resultOf (.lfsrStep 1 0 0 0 0 0) = rangeInt .width 0 ∧ resultOf (.lfsrStep 1 17 6 9 0 0) = rangeInt .width 17 ∧
    resultOf (.lfsrStep 1 10 10 9 0 0) = some (.error (.range .taps (.taps 10 9 0 0))) ∧
    resultOf (.lfsrStep 1 10 6 9 1 10) = some (.error (.range .taps (.taps 6 9 1 10))) ∧
    resultOf (.lfsrStep 1 10 6 9 0 (-1)) = some (.error (.range .taps (.taps 6 9 0 (-1)))) ∧
    resultOf (.lfsrStep 0x400 10 6 9 0 0) = rangeInt .register 0x400 ∧
    resultOf (.lfsrStep (-1) 16 15 0 0 0) = rangeInt .register (-1) := by decide

theorem witness_TotAndPc10EncodeByStepping :
    resultOf (.encTot 0) = some (.value 0x3FF) ∧ resultOf (.encTot 1021) = some (.value 0x0FF) ∧
    resultOf (.encTot 1022) = some (.value 0x1FF) ∧ resultOf (.encTot 40000) = some (.value 0x1FF) ∧
    resultOf (.encTot (-1)) = rangeInt .count (-1) ∧ resultOf (.encPc10 500) = some (.value 0x2A4) ∧
    resultOf (.encPc10 1022) = some (.value 0x1FF) ∧ resultOf (.encPc10 (-1)) = rangeInt .count (-1) := by
  decide +kernel

theorem witness_TotAndPc10DecodeToTheStepIndex :
    resultOf (.decTot 1) = some (.counted 77 false) ∧ resultOf (.decTot 0x3FF) = some (.counted 0 false) ∧
    resultOf (.decTot 0x1FF) = some (.counted 1022 false) ∧ resultOf (.decTot 0) = some (.counted 0 true) ∧
    resultOf (.decTot (-1)) = rangeInt .value (-1) ∧ resultOf (.decTot 1024) = rangeInt .value 1024 ∧
    resultOf (.decPc10 0x155) = some (.counted 947 false) ∧ resultOf (.decPc10 0) = some (.counted 0 true) ∧
    resultOf (.decPc10 1024) = rangeInt .value 1024 := by decide +kernel

/-- With the parameters supplied: the 4-bit sequence of L2.2, and the overflow value. -/
theorem witness_OpenKindsEncodeByStepping :
    (withOpen false).par.itot = some (itotParams false) ∧ (withOpen true).par.pc4b = some (pc4Params true) ∧
    resultOf (.encItot 1) (withOpen false) = some (.value 0x3FFE) ∧
    resultOf (.encItot 16382) (withOpen true) = some (.value 0x1FFF) ∧
    resultOf (.encItot (-1)) (withOpen false) = rangeInt .count (-1) ∧
    resultOf (.encPc4 13) (withOpen false) = some (.value 0b1011) ∧
    resultOf (.encPc4 15) (withOpen false) = some (.value 0b1111) ∧
    resultOf (.encPc4 15) (withOpen true) = some (.value 0b0111) ∧
    resultOf (.encPc4 (-1)) (withOpen true) = rangeInt .count (-1) := by decide +kernel

/-- The 14-bit step with taps (13, 12, 11, 1) as arithmetic, and a walk of `n` steps that meets neither 0 nor the
seed before it ends on the seed. -/
def itotNext (r : Nat) : Nat := 2 * r % 16384 + (r / 8192 + r / 4096 + r / 2048 + r / 2) % 2

def itotWalk : Nat → Nat → Bool
  | 0, r => Nat.beq r 0x3FFF
  | n + 1, r => bif Nat.beq r 0 then false else bif Nat.beq r 0x3FFF then false else itotWalk n (itotNext r)

theorem itotNext_eq : lfsrNext 14 ⟨13, 12, 11, 1⟩ = itotNext := by
  funext r
  rw [Laws.lfsrNext_eq (by norm_num), Laws.feedback_four _ (by norm_num) (by norm_num), itotNext]; norm_num

theorem itotWalk_true {n r : Nat} (h : itotWalk n r = true) :
    itotNext^[n] r = 0x3FFF ∧ ∀ i < n, itotNext^[i] r ≠ 0 ∧ itotNext^[i] r ≠ 0x3FFF := by
  induction n generalizing r with
  | zero => exact ⟨Nat.eq_of_beq_eq_true h, fun i hi => by omega⟩
  | succ n ih =>
    rw [itotWalk] at h
    cases h0 : Nat.beq r 0 <;> cases h1 : Nat.beq r 0x3FFF <;> simp [h0, h1] at h
    refine ⟨(ih h).1, fun i hi => ?_⟩
    cases i with
    | zero => exact ⟨Nat.ne_of_beq_eq_false h0, Nat.ne_of_beq_eq_false h1⟩
    | succ i => exact (ih h).2 i (by omega)

theorem itot_walk : itotWalk 16382 0x3FFE = true := by decide +kernel

theorem itot_never_zero : ∀ j < 16383, (lfsrNext 14 ⟨13, 12, 11, 1⟩)^[j] 0x3FFF ≠ 0 := by
  rw [itotNext_eq]
  intro j hj
  cases j with
  | zero => decide
  | succ j => exact ((itotWalk_true itot_walk).2 j (by omega)).1

theorem itot_pred {v : Nat} (hlt : v < 2 ^ 14) (h : itotNext v = 0x3FFF) : v = 0x1FFF := by
  rw [itotNext] at h; omega

theorem itot_before {n r : Nat} (hr : r < 2 ^ 14) (h : itotNext^[n + 1] r = 0x3FFF) :
    itotNext^[n] r = 0x1FFF := by
  have hlt := Laws.lfsr_iterate_lt (w := 14) (by norm_num) ⟨13, 12, 11, 1⟩ (r := r) hr n
  rw [itotNext_eq] at hlt
  rw [Function.iterate_succ_apply'] at h
  exact itot_pred hlt h

/-- The register one step before the seed comes back is the overflow value of `itotParams`. -/
theorem itot_last : (lfsrNext 14 ⟨13, 12, 11, 1⟩)^[16381 + 1] 0x3FFF = 0x1FFF := by
  have hs : itotNext 0x3FFF = 0x3FFE := by decide
  rw [itotNext_eq, Function.iterate_succ_apply, hs]
  exact itot_before (n := 16381) (by norm_num) (itotWalk_true itot_walk).1

theorem itot_maximal (ovf : Bool) : (openSpec (itotParams ovf)).maximal := by
  have hk : lfsrNext (openSpec (itotParams ovf)).width (openSpec (itotParams ovf)).taps = itotNext := itotNext_eq
  have hs : (openSpec (itotParams ovf)).seed = 16383 := rfl
  have h1 : itotNext 16383 = 0x3FFE := by decide
  obtain ⟨h, hne⟩ := itotWalk_true itot_walk
  rw [LfsrSpec.maximal, hk, hs]
  refine ⟨?_, fun i h0 hi => ?_⟩
  · rw [show (16383 : Nat) = 16382 + 1 from rfl, Function.iterate_succ_apply, h1]; exact h
  · obtain ⟨j, rfl⟩ : ∃ j, i = j + 1 := ⟨i - 1, by omega⟩
    rw [Function.iterate_succ_apply, h1]
    exact (hne j (by omega)).2

theorem pc4_maximal (ovf : Bool) : (openSpec (pc4Params ovf)).maximal := by
  have key : ∀ i < 15, 0 < i → (lfsrNext 4 ⟨3, 2, 0, 0⟩)^[i] 15 ≠ 15 := by decide
  exact ⟨by cases ovf <;> decide, fun i h0 h => key i h h0⟩

/-- The parameters of `withOpen` are legal (R29). -/
theorem withOpen_legal (ovf : Bool) : legalParams (withOpen ovf).par := by
  refine ⟨fun q h => ?_, fun q h => ?_⟩
  · obtain rfl : itotParams ovf = q := Option.some.inj h
    exact ⟨itot_maximal ovf, by simp [openSpec, itotParams, Taps.fourTap]⟩
  · obtain rfl : pc4Params ovf = q := Option.some.inj h
    exact pc4_maximal ovf

/-- The overflow value, a first match, no match (with `itot_never_zero`) and a wide value. -/
theorem witness_OpenKindsDecodeByFirstMatch :
    resultOf (.decItot 0x1FFF) (withOpen true) = some (.counted 16382 false) ∧
    (lfsrNext 14 ⟨13, 12, 11, 1⟩)^[2] 0x3FFF = 0x3FFC ∧
    resultOf (.decItot 0x3FFC) (withOpen false) = some (.counted 2 false) ∧
    resultOf (.decItot 16384) (withOpen false) = rangeInt .value 16384 ∧
    resultOf (.decPc4 0b0111) (withOpen true) = some (.counted 14 false) ∧
    (lfsrNext 4 ⟨3, 2, 0, 0⟩)^[14] 0xF = 0b0111 ∧ (∀ j < 14, (lfsrNext 4 ⟨3, 2, 0, 0⟩)^[j] 0xF ≠ 0b0111) ∧
    resultOf (.decPc4 0b0111) (withOpen false) = some (.counted 14 false) ∧
    (∀ j < 15, (lfsrNext 4 ⟨3, 2, 0, 0⟩)^[j] 0xF ≠ 0) ∧ resultOf (.decPc4 0) (withOpen false) = some (.counted 0 true) ∧
    resultOf (.decPc4 (-1)) (withOpen false) = rangeInt .value (-1) := by decide +kernel

theorem witness_OpenKindsWithoutParametersRaiseRangeError :
    State.reset.par.itot = none ∧ State.reset.par.pc4b = none ∧
    resultOf (.encItot 5) = some (.error (.range .itotParams .unset)) ∧
    resultOf (.decPc4 3) = some (.error (.range .pc4bParams .unset)) ∧
    resultOf (.encItot (-1)) = rangeInt .count (-1) ∧ resultOf (.encPc4 (-1)) (withOpen true) = rangeInt .count (-1) ∧
    resultOf (.decItot 16384) = rangeInt .value 16384 ∧ resultOf (.decPc4 16) = rangeInt .value 16 ∧
    resultOf (.decPc4 (-1)) (withOpen false) = rangeInt .value (-1) := by decide

/-- Maximal taps are `itot_maximal` and `pc4_maximal`; the overflow value at the last index is `itot_last`. -/
theorem witness_MaximalLfsrRoundTrip :
    (withOpen false).par.itot = some (itotParams false) ∧ (openSpec (itotParams false)).maximal ∧
    (withOpen true).par.itot = some (itotParams true) ∧ (openSpec (itotParams true)).maximal ∧
    (lfsrNext 14 ⟨13, 12, 11, 1⟩)^[16381 + 1] 0x3FFF = (itotParams true).ovv.toNat ∧
    (withOpen false).par.pc4b = some (pc4Params false) ∧ (openSpec (pc4Params false)).maximal ∧
    (withOpen true).par.pc4b = some (pc4Params true) ∧ (openSpec (pc4Params true)).maximal ∧
    (lfsrNext 4 ⟨3, 2, 0, 0⟩)^[14] 0xF = (pc4Params true).ovv.toNat ∧
    resultOf (.encPc4 19) (withOpen false) = some (.value 0b0001) ∧
    resultOf (.decPc4 0b0001) (withOpen false) = some (.counted 4 false) :=
  ⟨rfl, itot_maximal _, rfl, itot_maximal _, itot_last, rfl, pc4_maximal _, rfl, pc4_maximal _, by decide, by decide,
    by decide⟩

theorem witness_ToaIsGrayCoded :
    resultOf (.encToa 0) = some (.value 0) ∧ resultOf (.encToa 100) = some (.value 86) ∧
    resultOf (.encToa 16383) = some (.value 8192) ∧ resultOf (.encToa (-1)) = rangeInt .count (-1) ∧
    resultOf (.encToa 16384) = rangeInt .count 16384 ∧ resultOf (.decToa 0x1555) = some (.value 6553) ∧
    resultOf (.decToa 0x3FFF) = some (.value 10922) ∧ resultOf (.decToa (-1)) = rangeInt .value (-1) ∧
    resultOf (.decToa 16384) = rangeInt .value 16384 := by decide

theorem witness_GrayCodecIsABijectionOn14Bits :
    resultOf (.encToa 8191) = some (.value 4096) ∧ resultOf (.decToa 4096) = some (.value 8191) ∧
    resultOf (.decToa 16383) = some (.value 10922) ∧ resultOf (.encToa 10922) = some (.value 16383) := by decide

theorem witness_ConsecutiveToaValuesDifferInOneBit :
    resultOf (.encToa 8191) = some (.value 0x1000) ∧ resultOf (.encToa 8192) = some (.value 0x3000) ∧
    0x1000 ^^^ 0x3000 = 2 ^ 13 ∧ resultOf (.encToa 16382) = some (.value 0x2001) ∧ 0x2001 ^^^ 0x2000 = 2 ^ 0 := by
  decide

theorem witness_FtoaSaturatesAtFifteen :
    resultOf (.encFtoa 15) = some (.value 15) ∧ resultOf (.encFtoa 20) = some (.value 15) ∧
    resultOf (.encFtoa (-1)) = rangeInt .count (-1) ∧ resultOf (.decFtoa 15) = some (.value 15) ∧
    resultOf (.decFtoa 16) = rangeInt .value 16 ∧ resultOf (.decFtoa (-1)) = rangeInt .value (-1) := by decide

/-! ## Witnesses: time (L2.4), at the default clocks -/

/-- The default system tick count of a time. -/
def tickCeil (t : Rat) : Int := ⌈(t - State.reset.cfg.epoch) * State.reset.cfg.fSys⌉

theorem witness_TimeToToaRoundsUpToTicks :
    State.reset.cfg.epoch ≤ 0 ∧ tickCeil (ns 30) = 2 ∧ tickCeil (ns 409575) = 16383 ∧ tickCeil (ns 409576) = 16384 ∧
    resultOf (.t2toa 0) = some (.value 0) ∧ resultOf (.t2toa (ns 30)) = some (.value 3) ∧
    resultOf (.t2toa (ns 409575)) = some (.value 8192) ∧
    resultOf (.t2toa (ns 409576)) = rangeRat .t (ns 409576) ∧
    resultOf (.t2toa (ns (-1))) = rangeRat .t (ns (-1)) := by decide +kernel

theorem witness_ToaAndFtoaGiveBackTheTime :
    resultOf (.toa2t 0x2000) = some (.seconds (ns 409575)) ∧ resultOf (.toa2t 16384) = rangeInt .toa 16384 ∧
    resultOf (.toa2t (-1)) = rangeInt .toa (-1) ∧ resultOf (.ftoa2t 12 3) = some (.seconds (ns 31.25)) ∧
    resultOf (.ftoa2t 15 0) = some (.seconds (ns (-23.4375))) ∧ resultOf (.ftoa2t 15 16384) = rangeInt .toa 16384 ∧
    resultOf (.ftoa2t 16 16384) = rangeInt .ftoa 16 ∧ resultOf (.ftoa2t (-1) 0) = rangeInt .ftoa (-1) := by
  decide +kernel

/-- On an edge (k = 4), just before one (k = 0), and both roundings. -/
theorem witness_TimeToFtoaCountsFineTicksToTheNextEdge :
    0 < State.reset.cfg.fSys ∧ State.reset.cfg.epoch + ((4 : Nat) : Rat) / State.reset.cfg.fSys ≤ ns 100 ∧
    ns 100 < State.reset.cfg.epoch + (((4 : Nat) : Rat) + 1) / State.reset.cfg.fSys ∧
    State.reset.cfg.epoch + ((0 : Nat) : Rat) / State.reset.cfg.fSys ≤ ns 24.21875 ∧
    ns 24.21875 < State.reset.cfg.epoch + (((0 : Nat) : Rat) + 1) / State.reset.cfg.fSys ∧
    resultOf (.t2ftoa (ns 100)) = some (.value 15) ∧ resultOf (.t2ftoa (ns 30)) = some (.value 12) ∧
    resultOf (.t2ftoa (ns 24.21875)) = some (.value 0) ∧ resultOf (.t2ftoa (ns 24.21875)) ceiling = some (.value 1) ∧
    resultOf (.t2ftoa (ns (-1))) = rangeRat .t (ns (-1)) := by decide +kernel

theorem witness_TimeToTotCountsTheEdgesOfThePulse :
    edgeIndex State.reset.cfg (ns 30) - edgeIndex State.reset.cfg (ns 20) = (1 : Nat) ∧
    edgeIndex State.reset.cfg (ns 49) - edgeIndex State.reset.cfg (ns 25) = (0 : Nat) ∧
    edgeIndex State.reset.cfg (ns 1000000) - edgeIndex State.reset.cfg 0 = (40000 : Nat) ∧
    resultOf (.t2tot (ns 20) (ns 30)) = some (.value 0x3FE) ∧ resultOf (.t2tot (ns 25) (ns 49)) = some (.value 0x3FF) ∧
    resultOf (.t2tot 0 (ns 1000000)) = some (.value 0x1FF) ∧
    resultOf (.t2tot (ns (-1)) (ns (-2))) = rangeRat .start (ns (-1)) ∧
    resultOf (.t2tot (ns 200) (ns 100)) = rangeRat .stop (ns 100) := by decide +kernel

theorem witness_TotGivesBackTheInterval :
    resultOf (.tot2t 0x3F0 6 (some 15)) = some (.interval (ns 76.5625) (ns 176.5625) false) ∧
    resultOf (.tot2t 0x3F0 6 none) = some (.interval (ns 100) (ns 200) false) ∧
    resultOf (.tot2t 0x3F0 6 (some 0)) = some (.interval (ns 100) (ns 200) false) ∧
    resultOf (.tot2t 0 6 none) = some (.interval (ns 100) (ns 100) true) ∧
    resultOf (.tot2t 1024 16384 none) = rangeInt .tot 1024 ∧ resultOf (.tot2t 1023 16384 (some 16)) = rangeInt .toa 16384 ∧
    resultOf (.tot2t 1023 16383 (some 16)) = rangeInt .ftoa 16 := by decide +kernel

theorem witness_TimeToValuesIsTheThreeConversions :
    tickCeil (ns 100) ≤ 16383 ∧ 16383 < tickCeil (ns 409576) ∧
    resultOf (.t2val (ns 100) (ns 200) 0) = some (.timeFields 6 15 0x3F0) ∧
    resultOf (.t2val (ns 100) (ns 200) 1) = some (.timeFields 6 15 0) ∧
    resultOf (.t2val (ns 200) (ns 100) 2) = rangeMode 2 ∧ resultOf (.t2val (ns 100) (ns 200) 3) = rangeMode 3 ∧
    resultOf (.t2val (ns (-1)) 0 1) = rangeRat .start (ns (-1)) ∧
    resultOf (.t2val (ns 200) (ns 100) 0) = rangeRat .stop (ns 100) ∧
    resultOf (.t2val (ns 409576) (ns 409576) 0) = rangeRat .t (ns 409576) := by decide +kernel

/-- Off an edge 60 ns comes back as 60.9375 ns; on the edge 100 ns as 76.5625 ns. -/
theorem witness_QuantisationLaws :
    State.reset.cfg.fFine = 16 * State.reset.cfg.fSys ∧ State.reset.par.ftoaCount = .floor ∧
    (∀ k : Nat, ns 60 ≠ State.reset.cfg.epoch + (k : Rat) / State.reset.cfg.fSys) ∧
    (∃ k : Nat, ns 100 = State.reset.cfg.epoch + (k : Rat) / State.reset.cfg.fSys) ∧
    resultOf (.ftoa2t 9 2) = some (.seconds (ns 60.9375)) ∧ resultOf (.ftoa2t 15 6) = some (.seconds (ns 76.5625)) := by
  refine ⟨by decide +kernel, rfl, fun k h => ?_, ⟨4, by decide +kernel⟩, by decide +kernel, by decide +kernel⟩
  have h1 : State.reset.cfg.epoch = 0 := rfl
  have h2 : State.reset.cfg.fSys = 40000000 := rfl
  rw [h1, h2, ns] at h
  field_simp at h
  have h3 : (12 : Rat) = 5 * k := by linarith
  have h4 : 12 = 5 * k := by exact_mod_cast h3
  omega

/-! ## Witnesses: the acceptor (L1.6, L2.5, P2) -/

theorem witness_DeadTimeFormulas :
    resultOf (.deadtime 1 0 40000000) = some (.seconds (ns 500)) ∧
    resultOf (.deadtime 500 1 40000000) = some (.seconds (ns 475)) ∧
    resultOf (.deadtime 0 2 40000000) = some (.seconds (ns 75)) ∧ resultOf (.deadtime (-1) 3 0) = rangeMode 3 ∧
    resultOf (.deadtime (-1) 2 0) = rangeInt .previousTot (-1) ∧ resultOf (.deadtime 0 0 0) = rangeRat .clock 0 := by
  decide +kernel

theorem witness_AcqStartWritesCfgAndResetsEveryPixel :
    resultOf (.acqStart 0 none none none) (onePixel .tick3) = some .done ∧
    resultOf (.acqStart 2 (some 1) (some 2) (some (-3))) = some .done ∧
    resultOf (.acqStart 3 none none none) = rangeMode 3 ∧ resultOf (.acqStart 0 (some 0) (some 0) none) = rangeRat .fSys 0 ∧
    resultOf (.acqStart 1 none (some 0) none) = rangeRat .fFine 0 := by decide +kernel

/-- The pixel `onePixel` has seen a start at 0. -/
theorem onePixel_order {start : Rat} (h : 0 ≤ start) :
    ∀ ls, ((onePixel .toaAndTot).pix.read 2600).lastStart = some ls → ls ≤ start := by
  intro ls hl
  have e : ((onePixel .toaAndTot).pix.read 2600).lastStart = some 0 := rfl
  rw [e] at hl
  simp only [Option.some.injEq] at hl
  linarith

/-- No edge; 475 ns after the pulse's end, 500 ns after it, and a pixel that has seen nothing. -/
theorem witness_AcceptTestsWidthThenDeadTime :
    (onePixel .toaAndTot).cfg.mode = some .toaAndTot ∧ 0 < (onePixel .toaAndTot).cfg.fSys ∧
    (∀ ls, ((onePixel .toaAndTot).pix.read 2600).lastStart = some ls → ls ≤ ns 525) ∧
    edgeIndex (onePixel .toaAndTot).cfg (ns 600) - edgeIndex (onePixel .toaAndTot).cfg (ns 525) = (3 : Nat) ∧
    resultOf (.accept 2600 (ns 525) (ns 600)) (onePixel .toaAndTot) = some (.verdict .accept) ∧
    resultOf (.accept 2600 (ns 500) (ns 600)) (onePixel .toaAndTot) = some (.verdict .rejectDead) ∧
    resultOf (.accept 2600 (ns 526) (ns 530)) (onePixel .toaAndTot) = some (.verdict .rejectWidth) ∧
    resultOf (.accept 2600 (ns 500) (ns 600)) (onePixel .toaOnly) = some (.verdict .accept) ∧
    resultOf (.accept 65535 0 (ns 30000)) (onePixel .tick3) = some (.verdict .accept) :=
  ⟨rfl, by decide +kernel, onePixel_order (by decide +kernel), by decide +kernel, by decide +kernel, by decide +kernel,
    by decide +kernel, by decide +kernel, by decide +kernel⟩

theorem witness_AcceptRefusesInOrder :
    resultOf (.accept 65536 1 0) = some (.error (.range .mode .unset)) ∧
    resultOf (.accept 65536 (ns (-1)) 0) (onePixel .toaAndTot) = rangeInt .address 65536 ∧
    resultOf (.accept (-1) 0 0) (onePixel .toaAndTot) = rangeInt .address (-1) ∧
    resultOf (.accept 65535 (ns (-1)) (ns (-2))) (onePixel .toaAndTot) = rangeRat .start (ns (-1)) ∧
    resultOf (.accept 2600 (ns 2) (ns 1)) (onePixel .toaAndTot) = rangeRat .stop (ns 1) ∧
    resultOf (.accept 2600 (ns 5) (ns 9)) (running .toaOnly [(2600, { afterPulse with lastStart := some (ns 6) })])
      = rangeRat .start (ns 5) := by decide +kernel

theorem witness_AcceptWritesItsOwnPixelOnly :
    (onePixel .toaAndTot).pix.wf ∧
    resultOf (.accept 2600 (ns 525) (ns 600)) (onePixel .toaAndTot) = some (.verdict .accept) ∧
    resultOf (.accept 2600 (ns 526) (ns 530)) (onePixel .toaAndTot) = some (.verdict .rejectWidth) := by
  decide +kernel

theorem witness_AcceptsOnDistinctPixelsCommute :
    (2600 : Int) ≠ 65535 ∧ (onePixel .toaAndTot).pix.wf ∧
    resultOf (.accept 2600 (ns 525) (ns 600)) (onePixel .toaAndTot) = some (.verdict .accept) ∧
    resultOf (.accept 65535 0 (ns 600)) (onePixel .toaAndTot) = some (.verdict .accept) := by decide +kernel

theorem witness_AcceptSeqIsAcceptPulseByPulse :
    (onePixel .tick3).cfg.mode = some .tick3 ∧ (onePixel .tick3).pix.wf ∧
    (onePixel .tick3).pix.read 65535 = PixRec.init ∧
    resultOf (.acceptSeq 2 [⟨0, ns 25⟩, ⟨ns 100, ns 125⟩, ⟨ns 125, ns 150⟩]) (onePixel .tick3)
      = some (.verdicts [.accept, .rejectDead, .accept]) ∧
    resultOf (.acceptSeq 0 [⟨ns 100, ns 200⟩, ⟨ns 50, ns 60⟩]) = rangeRat .start (ns 50) ∧
    resultOf (.acceptSeq 3 []) = rangeMode 3 := by decide +kernel

theorem witness_AcceptSeqAnswersEverySortedSequence :
    (1#2 ≠ 3#2) ∧ (∀ p ∈ [(⟨0, ns 25⟩ : Pulse), ⟨ns 499, ns 600⟩, ⟨ns 500, ns 600⟩],
      State.reset.cfg.epoch ≤ p.start ∧ p.start ≤ p.stop) ∧
    [(⟨0, ns 25⟩ : Pulse), ⟨ns 499, ns 600⟩, ⟨ns 500, ns 600⟩].Pairwise (fun p q => p.start ≤ q.start) ∧
    resultOf (.acceptSeq 1 [⟨0, ns 25⟩, ⟨ns 499, ns 600⟩, ⟨ns 500, ns 600⟩])
      = some (.verdicts [.accept, .rejectDead, .accept]) := by decide +kernel

theorem witness_AcceptedPulsesAreDeadTimeApart :
    0 < State.reset.cfg.fSys ∧
    resultOf (.acceptSeq 0 [⟨0, ns 25⟩, ⟨ns 500, ns 600⟩, ⟨ns 525, ns 600⟩])
      = some (.verdicts [.accept, .rejectDead, .accept]) ∧
    [(⟨0, ns 25⟩ : Pulse), ⟨ns 500, ns 600⟩, ⟨ns 525, ns 600⟩][0]? = some ⟨0, ns 25⟩ ∧
    [(⟨0, ns 25⟩ : Pulse), ⟨ns 500, ns 600⟩, ⟨ns 525, ns 600⟩][2]? = some ⟨ns 525, ns 600⟩ := by decide +kernel

/-! ## Witnesses: packets (L2.6) -/

theorem witness_PacketAssemblyPlacesTheFields :
    resultOf (.pktAsm 0x0A28 6 0x3F0 15) = some (.word 0xA0A28001BF0F) ∧
    resultOf (.pktAsm 65535 16383 1023 15) = some (.word 0xAFFFFFFFFFFF) ∧
    resultOf (.pktAsm 65536 16384 1024 16) = rangeInt .address 65536 ∧
    resultOf (.pktAsm 65535 16384 1024 16) = rangeInt .toa 16384 ∧
    resultOf (.pktAsm 65535 16383 1024 16) = rangeInt .secondary 1024 ∧
    resultOf (.pktAsm 65535 16383 1023 16) = rangeInt .ftoa 16 := by decide

theorem witness_PacketDisassemblySlicesTheWord :
    0xA0A28001BF0F / 2 ^ 44 = 10 ∧ resultOf (.pktDis 0xA0A28001BF0F) = some (.packet 0x0A28 6 0x3F0 15) ∧
    0x5A2800018000 / 2 ^ 44 ≠ 10 ∧ resultOf (.pktDis 0x5A2800018000) = rangeInt .header 5 ∧
    resultOf (.pktDis 0x5A2800018000) ignoring = some (.packet 0xA280 6 0 0) ∧
    resultOf (.pktDis (2 ^ 48)) = rangeInt .word (2 ^ 48) ∧ resultOf (.pktDis (-1)) = rangeInt .word (-1) := by decide

theorem witness_PacketRoundTrips :
    0xAFFFF00F3E3F / 2 ^ 44 = 10 ∧ resultOf (.pktDis 0xAFFFF00F3E3F) = some (.packet 0xFFFF 0x3C 0x3E3 15) ∧
    resultOf (.pktAsm 0xFFFF 0x3C 0x3E3 15) = some (.word 0xAFFFF00F3E3F) := by decide

theorem witness_HitEncodingAssemblesTheTimeFields :
    tickCeil (ns 100) ≤ 16383 ∧ tickCeil (ns 409575) ≤ 16383 ∧
    resultOf (.hitEnc 2600 (ns 100) (ns 200) 0) = some (.word 0xA0A28001BF0F) ∧
    resultOf (.hitEnc 2600 (ns 100) (ns 200) 1) = some (.word 0xA0A28001800F) ∧
    resultOf (.hitEnc 65535 (ns 409575) (ns 409600) 0) = some (.word 0xAFFFF8003FEF) ∧
    resultOf (.hitEnc 65536 (ns 100) (ns 200) 2) = rangeMode 2 ∧
    resultOf (.hitEnc 65536 (ns (-1)) (ns (-2)) 0) = rangeInt .address 65536 ∧
    resultOf (.hitEnc 0 (ns 409576) (ns 409600) 0) = rangeRat .t (ns 409576) := by decide +kernel

theorem witness_HitDecodingRecoversTheRecord :
    resultOf (.hitDec 0xA0A28001BF0F 0 true true)
      = some (.hit ⟨10, 20, 4, 4, 15, some (ns 76.5625), some (ns 176.5625), false⟩) ∧
    resultOf (.hitDec 0xA0A28001800F 1 true true) = some (.hit ⟨10, 20, 4, 0, 15, some (ns 76.5625), none, false⟩) ∧
    resultOf (.hitDec 0xA0A28001800F 0 false true) = some (.hit ⟨10, 20, 4, 0, 15, none, none, true⟩) ∧
    resultOf (.hitDec 0xA0A28001BF0F 0 false false) = some (.hit ⟨10, 20, 6, 0x3F0, 15, none, none, false⟩) ∧
    resultOf (.hitDec 0 2 true true) = rangeMode 2 ∧ resultOf (.hitDec 0 0 true true) = rangeInt .header 0 := by
  decide +kernel

theorem witness_PacketSerialisesBigEndian :
    resultOf (.pktSer 0xA0A28001BF0F) = some (.bytes [0xA0, 0xA2, 0x80, 0x01, 0xBF, 0x0F]) ∧
    resultOf (.pktSer (2 ^ 48 - 1)) = some (.bytes [0xFF, 0xFF, 0xFF, 0xFF, 0xFF, 0xFF]) ∧
    resultOf (.pktSer (2 ^ 48)) = rangeInt .word (2 ^ 48) ∧ resultOf (.pktSer (-1)) = rangeInt .word (-1) := by decide

theorem witness_PacketDeserialisesBigEndian :
    resultOf (.pktDes 0xA0 0xA2 0x80 0x01 0xBF 0x0F) = some (.word 0xA0A28001BF0F) ∧
    resultOf (.pktDes 255 0 0 0 0 256) = rangeInt (.byte 5) 256 ∧
    resultOf (.pktDes (-1) 256 0 0 0 0) = rangeInt (.byte 0) (-1) := by decide

theorem witness_SerialisedWordsReadBack :
    (0x5A2800018000 : Nat) < 2 ^ 48 ∧
    resultOf (.pktSer 0x5A2800018000) = some (.bytes [0x5A, 0x28, 0x00, 0x01, 0x80, 0x00]) ∧
    resultOf (.pktDes 0x5A 0x28 0x00 0x01 0x80 0x00) = some (.word 0x5A2800018000) := by decide

/-- An emitting operation, one that fails, and one that emits nothing. -/
theorem witness_EmittedBytesAreTheOutputStream :
    emitsBytes (.pktSer 0xA0A28001BF0F) = true ∧
    resultOf (.pktSer 0xA0A28001BF0F) = some (.bytes [0xA0, 0xA2, 0x80, 0x01, 0xBF, 0x0F]) ∧
    resultOf (.pktSer (-1)) = rangeInt .word (-1) ∧ emitsBytes (.encToa 4) = false ∧
    resultOf (.encToa 4) = some (.value 6) := by decide

theorem witness_StreamSplitsIntoRecords :
    resultOf (.streamSplit []) = some (.words []) ∧
    resultOf (.streamSplit [0xA0, 0xA2, 0x80, 0x01, 0xBF, 0x0F, 0, 0, 0, 0, 0, 1])
      = some (.words [0xA0A28001BF0F, 1]) ∧
    resultOf (.streamSplit [0, 0, 0, 0, 0, 0, 256]) = some (.error (.malformedFile 7)) ∧
    resultOf (.streamSplit [0, 0, 0, 0, 0, 255, 0, 256, -1, 0, 0, 0]) = rangeInt (.byte 1) 256 := by decide

theorem witness_PresentedPacketReturnsItsFields :
    0xA0A28001BF0F / 2 ^ 44 = 10 ∧
    stepResult (present ⟨beBytes 6 0xA0A28001BF0F, []⟩ State.reset) = some (.packet 0x0A28 6 0x3F0 15) := by decide

/-! ## Witnesses: streams (L2.7, P3) -/

/-- The five accepted hits and the rejected ones of P3, in its input order. -/
def p3Hits : List Hit :=
  [⟨1, 0, ns 100, ns 200⟩, ⟨0, 0, ns 100, ns 150⟩, ⟨0, 0, ns 300, ns 400⟩, ⟨0, 1, ns 10, ns 15⟩,
    ⟨10, 20, ns 60, ns 110⟩, ⟨255, 255, ns 1000, ns 2000⟩, ⟨0, 0, ns 700, ns 800⟩]

/-- The 30 bytes P3 gives for them. -/
def p3Bytes : List Byte :=
  [0xA0, 0xA2, 0x80, 0x00, 0xBF, 0xC9, 0xA0, 0x00, 0x00, 0x01, 0xBF, 0xCF, 0xA0, 0x00, 0x40, 0x01, 0xBF, 0x0F,
    0xA0, 0x00, 0x00, 0x04, 0xBF, 0x0F, 0xAF, 0xFF, 0xF0, 0x0F, 0x3E, 0x3F]

theorem test_encStream_p3 : resultOf (.encStream p3Hits 0) = some (.bytes p3Bytes) := by decide +kernel

/-- One hit in range, so the batch is encodable. -/
theorem oneHit_encodable : encodable State.reset.cfg .toaAndTot [⟨10, 20, ns 100, ns 200⟩] := by
  refine ⟨?_, List.pairwise_singleton _ _, ?_⟩
  · intro h hh
    rw [List.mem_singleton] at hh; subst hh
    exact ⟨by decide, by decide, by decide, by decide, by decide +kernel, by decide +kernel⟩
  · intro a vs _ p hp _
    have h1 := List.mem_of_mem_filter (List.of_mem_zip hp).1
    rw [List.mem_singleton] at h1; rw [h1]
    decide +kernel

/-- A batch with a hit off the grid is not. -/
theorem offGrid_not_encodable : ¬ encodable State.reset.cfg .toaAndTot [⟨256, 0, 0, ns 25⟩] := by
  intro h
  have := (h.domain _ (List.mem_singleton_self _)).2.1
  simp at this

/-- The worked example's hit is in the domain. -/
theorem oneHit_inDomain : inDomain State.reset.cfg ⟨10, 20, ns 100, ns 200⟩ :=
  oneHit_encodable.domain _ (List.mem_singleton_self _)

theorem witness_EncStreamAnswersExactlyTheEncodableBatches :
    encodable State.reset.cfg .toaAndTot [⟨10, 20, ns 100, ns 200⟩] ∧
    resultOf (.encStream [⟨10, 20, ns 100, ns 200⟩] 0) = some (.bytes [0xA0, 0xA2, 0x80, 0x01, 0xBF, 0x0F]) ∧
    ¬ encodable State.reset.cfg .toaAndTot [⟨256, 0, 0, ns 25⟩] ∧
    resultOf (.encStream [⟨256, 0, 0, ns 25⟩] 0) = rangeInt .x 256 ∧
    resultOf (.encStream [⟨256, 0, 0, ns 25⟩] 3) = rangeMode 3 ∧
    inDomain State.reset.cfg ⟨10, 20, ns 100, ns 200⟩ ∧
    resultOf (.encStream [⟨10, 20, ns 100, ns 200⟩, ⟨-1, 256, 0, 0⟩, ⟨0, 0, 1, 0⟩] 0) = rangeInt .x (-1) ∧
    resultOf (.encStream [⟨10, 20, ns 100, ns 200⟩, ⟨255, 256, -1, 0⟩] 1) = rangeInt .y 256 ∧
    resultOf (.encStream [⟨10, 20, ns 100, ns 200⟩, ⟨0, 255, -1, -2⟩] 0) = rangeRat .start (-1) ∧
    resultOf (.encStream [⟨10, 20, ns 100, ns 200⟩, ⟨0, 0, 1, 0⟩] 0) = rangeRat .stop 0 :=
  ⟨oneHit_encodable, by decide +kernel, offGrid_not_encodable, by decide +kernel, by decide +kernel, oneHit_inDomain,
    by decide +kernel, by decide +kernel, by decide +kernel, by decide +kernel⟩

/-- The `ToaOnly` variant of P3 answers, so both stream statements have their hypotheses met. -/
theorem witness_EncStreamMergesTheAcceptedPackets :
    resultOf (.encStream p3Hits 1) = some (.bytes
      [0xA0, 0xA2, 0x80, 0x00, 0x80, 0x09, 0xA0, 0x00, 0x00, 0x01, 0x80, 0x0F, 0xA0, 0x00, 0x40, 0x01, 0x80, 0x0F,
        0xA0, 0x00, 0x00, 0x04, 0x80, 0x0F, 0xAF, 0xFF, 0xF0, 0x0F, 0x00, 0x0F]) := by decide +kernel

theorem witness_DecStreamDecodesEveryRecordInOrder :
    [0xA0, 0xA2, 0x80, 0x01, 0xBF, 0x0F].length % 6 = 0 ∧ State.reset.par.headerCheck = .strict ∧
    [0xA0, 0xA2, 0x80, 0x01, 0xBF, 0x0F].getD (6 * 0) 0 / 16 = 10 ∧
    resultOf (.decStream [0xA0, 0xA2, 0x80, 0x01, 0xBF, 0x0F] 0 false false)
      = some (.hits [⟨10, 20, 6, 0x3F0, 15, none, none, false⟩]) ∧
    resultOf (.decStream [] 1 true true) = some (.hits []) ∧
    resultOf (.decStream [0] 2 true true) = rangeMode 2 ∧
    resultOf (.decStream (List.replicate 13 0) 0 true true) = some (.error (.malformedFile 13)) ∧
    resultOf (.streamSplit [0xA0, 0xA2, 0x80, 1, 0xBF, 0xF, 0x5A, 0x28, 0, 1, 0x80, 0])
      = some (.words [0xA0A28001BF0F, 0x5A2800018000]) ∧
    resultOf (.hitDec 0x5A2800018000 0 false false) = rangeInt .header 5 ∧
    resultOf (.decStream [0xA0, 0xA2, 0x80, 1, 0xBF, 0xF, 0x5A, 0x28, 0, 1, 0x80, 0] 0 false false)
      = rangeInt .header 5 := by decide +kernel

theorem witness_StreamRoundTrip :
    resultOf (.encStream p3Hits 0) = some (.bytes p3Bytes) ∧
    resultOf (.decStream (p3Bytes.map fun b => (b.toNat : Int)) 0 false false) = some (.hits
      [⟨10, 20, 2, 0x3FC, 9, none, none, false⟩, ⟨0, 0, 6, 0x3FC, 15, none, none, false⟩,
        ⟨1, 0, 6, 0x3F0, 15, none, none, false⟩, ⟨0, 0, 0x12, 0x3F0, 15, none, none, false⟩,
        ⟨255, 255, 0x3C, 0x3E3, 15, none, none, false⟩]) := ⟨test_encStream_p3, by decide +kernel⟩

theorem witness_ToaOnlyPacketReadAsToaAndTotIsAmbiguous :
    State.reset.par.dummySecondary = 0#10 ∧ tickCeil (ns 100) ≤ 16383 ∧
    resultOf (.hitEnc 2600 (ns 100) (ns 200) 1) = some (.word 0xA0A28001800F) ∧
    resultOf (.hitDec 0xA0A28001800F 0 false true) = some (.hit ⟨10, 20, 4, 0, 15, none, none, true⟩) := by
  decide +kernel

/-! ## Witnesses: errors, writers, reset and the invariant -/

theorem witness_HardErrorsLeaveTheBlockAsItWas :
    resultOf (.accept 2600 (ns (-1)) 0) (onePixel .toaAndTot) = rangeRat .start (ns (-1)) ∧
    resultOf (.pktSer (-1)) (onePixel .toaAndTot) = rangeInt .word (-1) := by decide +kernel

theorem witness_OperandsOutsideTheirDomainAreRefused :
    Instr.wf (.tot2t 0 0 (some 16)) = false ∧ resultOf (.tot2t 0 0 (some 16)) = rangeInt .ftoa 16 := by decide +kernel

theorem witness_OnlyAcceptAndAcqStartWriteState :
    writesState (.encStream [] 0) = false ∧ resultOf (.encStream [] 0) = some (.bytes []) ∧
    writesState (.accept 0 0 0) = true ∧ writesState (.acqStart 0 none none none) = true := by decide +kernel

/-- Two states that differ in mode and pixels and share their clocks and parameters. -/
theorem witness_PureOperationsReadOnlyClocksAndParameters :
    writesState (.t2toa (ns 100)) = false ∧ State.reset.cfg.fSys = (onePixel .tick3).cfg.fSys ∧
    State.reset.cfg.fFine = (onePixel .tick3).cfg.fFine ∧ State.reset.cfg.epoch = (onePixel .tick3).cfg.epoch ∧
    State.reset.par = (onePixel .tick3).par ∧ State.reset.cfg.mode ≠ (onePixel .tick3).cfg.mode ∧
    State.reset.pix ≠ (onePixel .tick3).pix ∧ resultOf (.t2toa (ns 100)) = some (.value 6) ∧
    resultOf (.t2toa (ns 100)) (onePixel .tick3) = some (.value 6) := by decide +kernel

theorem witness_ResetState :
    resultOf (.acqStart 1 none none none) (onePixel .toaAndTot) = some .done := by decide +kernel

/-- Legal parameters that an instance can be given. -/
theorem witness_ResetHasTheInvariant : ∃ p, legalParams p ∧ p.itot ≠ none ∧ p.pc4b ≠ none :=
  ⟨(withOpen true).par, withOpen_legal true, by decide, by decide⟩

/-- A running acquisition with both OPEN kinds supplied, a pixel record, a record in the stream and an operation
presented. -/
def busy : State :=
  { onePixel .toaAndTot with
    par := (withOpen true).par
    stream := writeRecords [] 0 [0xA0A28001BF0F]
    pending := [⟨[0x32#8], [.int 2600, .rat (ns 525), .rat (ns 600)]⟩] }

theorem witness_EveryStepKeepsTheInvariant : busy.Inv ∧ stepResult busy = some (.verdict .accept) := by
  refine ⟨⟨⟨by decide +kernel, by decide +kernel⟩, withOpen_legal true, by decide +kernel, ?_, ?_,
    ⟨1, by decide +kernel⟩⟩, by decide +kernel⟩
  · intro e he
    have : e = (2600, afterPulse) := by simpa [busy, onePixel, running] using he
    subst this
    refine ⟨by simp [afterPulse], fun _ => ⟨by decide, by decide, by decide +kernel, by simp [afterPulse]⟩, ?_⟩
    intro ls h
    have : ls = 0 := by simpa [afterPulse, eq_comm] using h
    subst this; decide +kernel
  · intro h; simp [busy, onePixel, running] at h

/-- A write to one pixel leaves another as it was, and writing the initial record removes the entry. -/
theorem test_pixel_write_is_local :
    ((onePixel .toaAndTot).pix.write 7 afterPulse).read 2600 = afterPulse ∧
    ((onePixel .toaAndTot).pix.write 2600 PixRec.init) = [] := by decide +kernel

end Sys2Proof.Tests
end

section
/-! PROOFS. The address bijection (40_address.md): what ADDR_ENC and ADDR_DEC answer, R52's two maps as
arithmetic, and the two laws of R102. -/

namespace Sys2Proof.Proofs.Address

open Sys2Proof.Machine Sys2Proof.Laws

/-! The two maps of R52. -/

/-- R100's formula as a sum: on the grid the three fields do not overlap. -/
theorem addressOf_eq (x : Nat) {y : Nat} (hy : y ≤ 255) :
    addressOf x y = 512 * (x / 2) + 8 * (y / 4) + (y % 4 + 4 * (x % 2)) :=
  fields_or_eq_add (by omega) (by omega)

theorem addressOf_le {x y : Nat} (hx : x ≤ 255) (hy : y ≤ 255) : addressOf x y ≤ 65535 := by
  rw [addressOf_eq x hy]; omega

/-- R101's formula as divisions and remainders. -/
theorem coordinateOf_eq {a : Nat} (ha : a ≤ 65535) :
    coordinateOf a = (2 * (a / 512) + a % 8 / 4, 4 * (a / 8 % 64) + a % 4) := by
  have heoc : slice a 15 9 = a / 512 := by rw [slice_eq]; omega
  have hsupr : slice a 8 3 = a / 8 % 64 := slice_eq a 8 3
  have hpix : slice a 2 0 = a % 8 := by rw [slice_eq]; omega
  have hlow : a % 8 % 4 = a % 4 := Nat.mod_mod_of_dvd a (by norm_num)
  simp only [coordinateOf, heoc, hsupr, hpix, hlow]

theorem coordinateOf_onGrid {a : Nat} (ha : a ≤ 65535) : (coordinateOf a).1 ≤ 255 ∧ (coordinateOf a).2 ≤ 255 := by
  rw [coordinateOf_eq ha]; dsimp only; omega

/-- First law of R102. -/
theorem coordinateOf_addressOf {x y : Nat} (hx : x ≤ 255) (hy : y ≤ 255) :
    coordinateOf (addressOf x y) = (x, y) := by
  rw [coordinateOf_eq (addressOf_le hx hy), addressOf_eq x hy]
  ext <;> dsimp only <;> omega

/-- Second law of R102. -/
theorem addressOf_coordinateOf {a : Nat} (ha : a ≤ 65535) :
    addressOf (coordinateOf a).1 (coordinateOf a).2 = a := by
  rw [addressOf_eq _ (coordinateOf_onGrid ha).2, coordinateOf_eq ha]
  dsimp only; omega

/-! The checks of ADDR_ENC, `x` before `y` (D18). -/

theorem toAddress_onGrid {x y : Nat} (hx : x ≤ 255) (hy : y ≤ 255) : toAddress x y = .ok (addressOf x y) := by
  simp [toAddress, checkMax_natCast .x hx, checkMax_natCast .y hy]

theorem toAddress_x_outside {x : Int} (hx : x < 0 ∨ 255 < x) (y : Int) :
    toAddress x y = .error (.range .x (.int x)) := by
  simp [toAddress, checkMax_outside .x (hi := 255) hx]

theorem toAddress_y_outside {x y : Int} (hx0 : 0 ≤ x) (hx : x ≤ 255) (hy : y < 0 ∨ 255 < y) :
    toAddress x y = .error (.range .y (.int y)) := by
  simp [toAddress, checkMax_within .x (hi := 255) hx0 hx, checkMax_outside .y (hi := 255) hy]

/-! What the two operations answer. -/

theorem exec_addrEnc (x y : Int) (s : State) : exec (.addrEnc x y) s = execAddrEnc x y s := rfl

theorem exec_addrDec (a : Int) (s : State) : exec (.addrDec a) s = execAddrDec a s := rfl

theorem exec_addrEnc_of_address {x y : Int} {a : Nat} (h : toAddress x y = .ok a) (s : State) :
    exec (.addrEnc x y) s = .next { s with result := .address a } := by
  simp [exec_addrEnc, execAddrEnc, h]

theorem exec_addrEnc_of_error {x y : Int} {e : HardError} (h : toAddress x y = .error e) (s : State) :
    exec (.addrEnc x y) s = .next { s with result := .error e } := by
  simp [exec_addrEnc, execAddrEnc, h]

theorem exec_addrDec_within {a : Nat} (ha : a ≤ 65535) (s : State) :
    exec (.addrDec a) s = .next { s with result := .coordinate (coordinateOf a).1 (coordinateOf a).2 } := by
  simp [exec_addrDec, execAddrDec, checkMax_natCast .address ha]

theorem exec_addrDec_outside {a : Int} (ha : a < 0 ∨ 65535 < a) (s : State) :
    exec (.addrDec a) s = .next { s with result := .error (.range .address (.int a)) } := by
  simp [exec_addrDec, execAddrDec, checkMax_outside .address (hi := 65535) ha]

/-! The obligations. -/

/-- Settles O6: R100's value on the grid, and its two refusals in order. -/
theorem addrEncReturnsTheFieldAddress : Obligations.AddrEncReturnsTheFieldAddress := by
  refine ⟨fun s x y hx hy => ?_, fun s x y hx => exec_addrEnc_of_error (toAddress_x_outside hx y) s,
    fun s x y hx0 hx hy => exec_addrEnc_of_error (toAddress_y_outside hx0 hx hy) s⟩
  rw [exec_addrEnc_of_address (toAddress_onGrid hx hy), addressOf_eq x hy]

/-- Settles O7: R101's value for 16 bits, and the refusal of any other address. -/
theorem addrDecReturnsTheCoordinate : Obligations.AddrDecReturnsTheCoordinate := by
  refine ⟨fun s a ha => ?_, fun s a ha => exec_addrDec_outside ha s⟩
  rw [exec_addrDec_within ha, coordinateOf_eq ha]

/-- Settles O8: the two operations answer R52's two maps, which are inverse to each other. -/
theorem addressesAndCoordinatesAreInBijection : Obligations.AddressesAndCoordinatesAreInBijection := by
  constructor
  · intro s x y hx hy
    refine ⟨addressOf x y, addressOf_le hx hy, exec_addrEnc_of_address (toAddress_onGrid hx hy) s, ?_⟩
    rw [exec_addrDec_within (addressOf_le hx hy), coordinateOf_addressOf hx hy]
  · intro s a ha
    obtain ⟨hx, hy⟩ := coordinateOf_onGrid ha
    refine ⟨(coordinateOf a).1, (coordinateOf a).2, hx, hy, exec_addrDec_within ha s, ?_⟩
    rw [exec_addrEnc_of_address (toAddress_onGrid hx hy), addressOf_coordinateOf ha]

end Sys2Proof.Proofs.Address
end

section
/-! PROOFS. The counters with fixed parameters (41_counters.md): the sequence of the ToT and PC10b register as the
orbit of one LFSR step, and what the operations of ToT, PC10b, ToA and fToA answer. -/

namespace Sys2Proof.Proofs.Counters

open Sys2Proof.Machine Sys2Proof.Laws

/-! Any counter operation: its codec's answer, or the refusal of its operand (R119). -/

section CounterOps

variable {s : State} {k : Kind} {operand : Int} {n : Nat} {c : Codec} {e : HardError}

theorem encodeOp_ok (hn : checkCount k operand = .ok n) (hc : kindTable s.par k = .ok c) :
    encodeOp k operand s = .next { s with result := .value (c.encode n) } := by
  simp [encodeOp, encodeKind_ok hn hc]

theorem encodeOp_bad (hn : checkCount k operand = .error e) :
    encodeOp k operand s = .next { s with result := .error e } := by
  simp [encodeOp, encodeKind_bad hn]

theorem decodeOpPlain_ok (hn : checkValue k operand = .ok n) (hc : kindTable s.par k = .ok c) :
    decodeOpPlain k operand s = .next { s with result := .value (c.decode n).count } := by
  simp [decodeOpPlain, decodeKind_ok hn hc]

theorem decodeOpPlain_bad (hn : checkValue k operand = .error e) :
    decodeOpPlain k operand s = .next { s with result := .error e } := by
  simp [decodeOpPlain, decodeKind_bad hn]

theorem decodeOpMarked_ok (hn : checkValue k operand = .ok n) (hc : kindTable s.par k = .ok c) :
    decodeOpMarked k operand s =
      .next { s with result := .counted (c.decode n).count (c.decode n).ambiguous } := by
  simp [decodeOpMarked, decodeKind_ok hn hc]

theorem decodeOpMarked_bad (hn : checkValue k operand = .error e) :
    decodeOpMarked k operand s = .next { s with result := .error e } := by
  simp [decodeOpMarked, decodeKind_bad hn]

end CounterOps

/-! The operations of this family, each as the encode or decode of its kind. -/

theorem exec_encToa (n : Int) (s : State) : exec (.encToa n) s = encodeOp .toa n s := rfl
theorem exec_decToa (v : Int) (s : State) : exec (.decToa v) s = decodeOpPlain .toa v s := rfl
theorem exec_encFtoa (n : Int) (s : State) : exec (.encFtoa n) s = encodeOp .ftoa n s := rfl
theorem exec_decFtoa (v : Int) (s : State) : exec (.decFtoa v) s = decodeOpPlain .ftoa v s := rfl
theorem exec_encTot (n : Int) (s : State) : exec (.encTot n) s = encodeOp .tot n s := rfl
theorem exec_decTot (v : Int) (s : State) : exec (.decTot v) s = decodeOpMarked .tot v s := rfl
theorem exec_encPc10 (n : Int) (s : State) : exec (.encPc10 n) s = encodeOp .pc10b n s := rfl
theorem exec_decPc10 (v : Int) (s : State) : exec (.decPc10 v) s = decodeOpMarked .pc10b v s := rfl

/-! The decode search along an orbit that does not repeat (R114). -/

/-- While the register has not come back to the seed, the search finds each register at its own step index. -/
theorem lfsrSearch_iterate {k : LfsrSpec} {n fuel : Nat}
    (hn : n < Function.minimalPeriod (lfsrNext k.width k.taps) k.seed) (hf : n < fuel) :
    lfsrSearch k ((lfsrNext k.width k.taps)^[n] k.seed) fuel 0 k.seed = Decoded.found n := by
  have hfirst : ∀ j < n, (lfsrNext k.width k.taps)^[j] k.seed ≠ (lfsrNext k.width k.taps)^[n] k.seed :=
    fun j hj heq => hj.ne ((Function.iterate_eq_iterate_iff_of_lt_minimalPeriod (hj.trans hn) hn).1 heq)
  rw [lfsrSearch_found 0 hfirst rfl hf, Nat.zero_add]

/-! The ToT and PC10b sequence (R111). -/

/-- The step of the 10-bit register with taps 6 and 9, as arithmetic (R110). -/
def totNext (r : Nat) : Nat := 2 * r % 1024 + (r / 64 + r / 512) % 2

theorem lfsrNext_eq_totNext : lfsrNext 10 ⟨6, 9, 0, 0⟩ = totNext := by
  funext r
  rw [lfsrNext_eq (by norm_num), feedback_two r (.inl rfl), totNext]; norm_num

theorem totRegister_eq (n : Nat) : totRegister n = totNext^[n] 0x3FF := by rw [totRegister, lfsrNext_eq_totNext]

theorem totRegister_succ (n : Nat) : totRegister (n + 1) = totNext (totRegister n) := by
  rw [totRegister_eq, totRegister_eq, Function.iterate_succ_apply']

theorem totRegister_lt (n : Nat) : totRegister n < 1024 :=
  lfsr_iterate_lt (w := 10) (by norm_num) _ (by norm_num) n

/-- Only 0 steps to 0, so the sequence never reaches it. -/
theorem totRegister_pos (n : Nat) : 0 < totRegister n := by
  induction n with
  | zero => decide
  | succ n ih =>
    have hlt := totRegister_lt n
    rw [totRegister_succ, totNext]; omega

theorem totRegister_1020 : totRegister 1020 = 0x07F := by rw [totRegister_eq]; decide +kernel

theorem totRegister_1021 : totRegister 1021 = 0x0FF := by rw [totRegister_succ, totRegister_1020]; rfl

theorem totRegister_1022 : totRegister 1022 = 0x1FF := by rw [totRegister_succ, totRegister_1021]; rfl

theorem totRegister_1023 : totRegister 1023 = 0x3FF := by rw [totRegister_succ, totRegister_1022]; rfl

/-- A period is exact when none of its quotients by a prime is a period. -/
theorem minimalPeriod_eq_of_div_prime {f : Nat → Nat} {x n : Nat} (hback : Function.IsPeriodicPt f n x)
    (hno : ∀ p, p.Prime → p ∣ n → ¬ Function.IsPeriodicPt f (n / p) x) : Function.minimalPeriod f x = n := by
  obtain ⟨a, ha⟩ := hback.minimalPeriod_dvd
  by_contra hne
  have hp : a.minFac.Prime := Nat.minFac_prime fun h1 => hne (by simp [ha, h1])
  obtain ⟨b, hb⟩ := a.minFac_dvd
  have hdiv : n / a.minFac = Function.minimalPeriod f x * b :=
    Nat.div_eq_of_eq_mul_right hp.pos (by rw [ha]; nth_rw 1 [hb]; ring)
  exact hno _ hp (ha ▸ a.minFac_dvd.mul_left _) (Function.isPeriodicPt_iff_minimalPeriod_dvd.2 ⟨b, hdiv⟩)

theorem eq_of_prime_dvd_1023 {p : Nat} (hp : p.Prime) (h : p ∣ 1023) : p = 3 ∨ p = 11 ∨ p = 31 := by
  rw [show 1023 = 3 * (11 * 31) from rfl, hp.dvd_mul, hp.dvd_mul, Nat.prime_dvd_prime_iff_eq hp Nat.prime_three,
    Nat.prime_dvd_prime_iff_eq hp Nat.prime_eleven, Nat.prime_dvd_prime_iff_eq hp (by norm_num)] at h
  exact h

/-- The period of R111: the register is back after 1023 = 3 · 11 · 31 steps, and not after 341, 93 or 33. -/
theorem minimalPeriod_totRegister : Function.minimalPeriod (lfsrNext 10 ⟨6, 9, 0, 0⟩) 0x3FF = 1023 := by
  have hnot : totNext^[341] 0x3FF ≠ 0x3FF ∧ totNext^[93] 0x3FF ≠ 0x3FF ∧ totNext^[33] 0x3FF ≠ 0x3FF := by
    decide +kernel
  obtain ⟨h341, h93, h33⟩ := hnot
  refine minimalPeriod_eq_of_div_prime totRegister_1023 fun p hp hdvd => ?_
  rw [lfsrNext_eq_totNext]
  obtain rfl | rfl | rfl := eq_of_prime_dvd_1023 hp hdvd
  · exact h341
  · exact h93
  · exact h33

/-- Within one period no register repeats. -/
theorem totRegister_injOn : Set.InjOn totRegister (Finset.range 1023) := by
  have hinj := Function.iterate_injOn_Iio_minimalPeriod (f := lfsrNext 10 ⟨6, 9, 0, 0⟩) (x := 0x3FF)
  rw [minimalPeriod_totRegister] at hinj
  rwa [Finset.coe_range]

/-- Each of the 1023 non-zero values is reached: there are as many as indices in a period. -/
theorem exists_totRegister_eq {v : Nat} (h0 : 0 < v) (hv : v < 1024) : ∃ n < 1023, totRegister n = v := by
  have hsurj : Set.SurjOn totRegister (Finset.range 1023) (Finset.Ioo 0 1024) :=
    Finset.surjOn_of_injOn_of_card_le _
      (fun n _ => by simpa using ⟨totRegister_pos n, totRegister_lt n⟩) totRegister_injOn (by simp)
  obtain ⟨n, hn, rfl⟩ := hsurj (by simpa using ⟨h0, hv⟩ : v ∈ (Finset.Ioo 0 1024 : Finset Nat))
  exact ⟨n, by simpa using hn, rfl⟩

/-! The ToT codec (R112, R114) on that sequence. -/

/-- The overflow value 0x1FF is the register at index 1022, so encoding is stepping, capped there. -/
theorem lfsrEnc_totSpec (n : Nat) : lfsrEnc totSpec n = totRegister (min n 1022) := by
  rcases le_or_gt 1022 n with hn | hn
  · rw [lfsrEnc, if_pos ⟨rfl, hn⟩, min_eq_right hn, totRegister_1022]; rfl
  · rw [lfsrEnc, if_neg fun h => absurd h.2 (not_le.2 hn), min_eq_left hn.le]; rfl

/-- Decoding gives the index in the period; the overflow test agrees with the search at 1022. -/
theorem lfsrDec_totRegister {n : Nat} (hn : n ≤ 1022) : lfsrDec totSpec (totRegister n) = Decoded.found n := by
  rw [lfsrDec]
  split
  next h =>
    have heq : totRegister n = totRegister 1022 := h.2.trans totRegister_1022.symm
    obtain rfl : n = 1022 := totRegister_injOn (by simp; omega) (by simp) heq
    rfl
  next h =>
    refine lfsrSearch_iterate (k := totSpec) ?_ (show n < 1023 by omega)
    exact lt_of_lt_of_eq (by omega) minimalPeriod_totRegister.symm

/-- No register of the period is 0 (R125). -/
theorem lfsrDec_totSpec_zero : lfsrDec totSpec 0 = Decoded.unmatched := by
  rw [lfsrDec, if_neg (by decide)]
  exact lfsrSearch_unmatched 0 fun j _ => (totRegister_pos j).ne'

/-! The operations of the two kinds that share the ToT parameters (D6). -/

section TenBit

variable {k : Kind} (hk : k = .tot ∨ k = .pc10b) (s : State)
include hk

theorem encodeOp_tenBit (n : Nat) :
    encodeOp k n s = .next { s with result := .value (totRegister (min n 1022)) } := by
  rw [← lfsrEnc_totSpec]
  rcases hk with rfl | rfl <;> exact encodeOp_ok (c := .lfsr totSpec) (checkNat_natCast .count n) rfl

theorem encodeOp_tenBit_neg {n : Int} (hn : n < 0) :
    encodeOp k n s = .next { s with result := .error (.range .count (.int n)) } := by
  rcases hk with rfl | rfl <;> exact encodeOp_bad (checkNat_neg .count hn)

theorem decodeOpMarked_tenBit {v : Nat} (hv : v < 1024) :
    decodeOpMarked k v s =
      .next { s with result := .counted (lfsrDec totSpec v).count (lfsrDec totSpec v).ambiguous } := by
  have hmax : checkMax .value (2 ^ 10 - 1) v = .ok v := checkMax_natCast .value (by omega)
  rcases hk with rfl | rfl <;> exact decodeOpMarked_ok (c := .lfsr totSpec) hmax rfl

theorem decodeOpMarked_tenBit_totRegister {n : Nat} (hn : n ≤ 1022) :
    decodeOpMarked k (totRegister n) s = .next { s with result := .counted n false } := by
  rw [decodeOpMarked_tenBit hk s (totRegister_lt n), lfsrDec_totRegister hn]; rfl

theorem decodeOpMarked_tenBit_zero :
    decodeOpMarked k 0 s = .next { s with result := .counted 0 true } := by
  have h := decodeOpMarked_tenBit hk s (v := 0) (by norm_num)
  rwa [lfsrDec_totSpec_zero] at h

theorem decodeOpMarked_tenBit_outside {v : Int} (hv : v < 0 ∨ 1024 ≤ v) :
    decodeOpMarked k v s = .next { s with result := .error (.range .value (.int v)) } := by
  have hmax : checkMax .value (2 ^ 10 - 1) v = .error (.range .value (.int v)) :=
    checkMax_outside .value (by norm_num; omega)
  rcases hk with rfl | rfl <;> exact decodeOpMarked_bad hmax

end TenBit

theorem exec_lfsrStep (r w t1 t2 t3 t4 : Int) (s : State) :
    exec (.lfsrStep r w t1 t2 t3 t4) s = execLfsrStep r w t1 t2 t3 t4 s := rfl

/-- LFSR_STEP on operands that pass its three checks (R110). -/
theorem exec_lfsrStep_ok {r w t1 t2 t3 t4 : Int} {w' r' : Nat} {t : Taps} (hw : checkWidth w = .ok w')
    (ht : checkTaps w' t1 t2 t3 t4 = .ok t) (hr : checkMax .register (2 ^ w' - 1) r = .ok r') (s : State) :
    exec (.lfsrStep r w t1 t2 t3 t4) s = .next { s with result := .value (lfsrNext w' t r') } := by
  simp [exec_lfsrStep, execLfsrStep, hw, ht, hr]

theorem exec_lfsrStep_totRegister (s : State) (n : Nat) :
    exec (.lfsrStep (totRegister n) 10 6 9 0 0) s = .next { s with result := .value (totRegister (n + 1)) } := by
  have hr : checkMax .register (2 ^ 10 - 1) (totRegister n) = .ok (totRegister n) :=
    checkMax_natCast .register (Nat.le_pred_of_lt (totRegister_lt n))
  rw [totRegister_succ, ← lfsrNext_eq_totNext]
  exact exec_lfsrStep_ok (t := ⟨6, 9, 0, 0⟩) rfl (by decide) hr s

/-! The Gray counter ToA (R116, R117) and the saturating counter fToA (R118). -/

theorem exec_encToa_within {n : Nat} (hn : n ≤ 16383) (s : State) :
    exec (.encToa n) s = .next { s with result := .value (bin2gray n) } := by
  rw [exec_encToa]
  exact encodeOp_ok (c := .gray) (checkMax_natCast .count hn) rfl

theorem exec_encToa_outside {n : Int} (hn : n < 0 ∨ 16383 < n) (s : State) :
    exec (.encToa n) s = .next { s with result := .error (.range .count (.int n)) } := by
  rw [exec_encToa]
  exact encodeOp_bad (checkMax_outside .count hn)

theorem exec_decToa_within {g : Nat} (hg : g ≤ 16383) (s : State) :
    exec (.decToa g) s = .next { s with result := .value (gray2bin g) } := by
  rw [exec_decToa]
  exact decodeOpPlain_ok (c := .gray) (checkMax_natCast .value hg) rfl

theorem exec_decToa_outside {g : Int} (hg : g < 0 ∨ 16383 < g) (s : State) :
    exec (.decToa g) s = .next { s with result := .error (.range .value (.int g)) } := by
  rw [exec_decToa]
  exact decodeOpPlain_bad (checkMax_outside .value hg)

theorem bin2gray_le {n : Nat} (hn : n ≤ 16383) : bin2gray n ≤ 16383 :=
  Nat.le_of_lt_succ (bin2gray_lt (Nat.lt_succ_of_le hn))

theorem gray2bin_le {g : Nat} (hg : g ≤ 16383) : gray2bin g ≤ 16383 :=
  Nat.le_of_lt_succ (gray2bin_lt (Nat.lt_succ_of_le hg))

theorem exec_encFtoa_natCast (s : State) (n : Nat) :
    exec (.encFtoa n) s = .next { s with result := .value (min n 15) } := by
  rw [exec_encFtoa]
  exact encodeOp_ok (c := .saturating) (checkNat_natCast .count n) rfl

theorem exec_encFtoa_neg {n : Int} (hn : n < 0) (s : State) :
    exec (.encFtoa n) s = .next { s with result := .error (.range .count (.int n)) } := by
  rw [exec_encFtoa]
  exact encodeOp_bad (checkNat_neg .count hn)

theorem exec_decFtoa_within {v : Nat} (hv : v ≤ 15) (s : State) :
    exec (.decFtoa v) s = .next { s with result := .value v } := by
  rw [exec_decFtoa]
  exact decodeOpPlain_ok (c := .saturating) (checkMax_natCast .value hv) rfl

theorem exec_decFtoa_outside {v : Int} (hv : v < 0 ∨ 15 < v) (s : State) :
    exec (.decFtoa v) s = .next { s with result := .error (.range .value (.int v)) } := by
  rw [exec_decFtoa]
  exact decodeOpPlain_bad (checkMax_outside .value hv)

/-! The obligations. -/

/-- Settles O10: the listed states are computed, and the period 1023 makes the sequence a bijection onto the
non-zero values. -/
theorem totSequenceVisitsEveryNonzeroValueOnce : Obligations.TotSequenceVisitsEveryNonzeroValueOnce := by
  refine ⟨exec_lfsrStep_totRegister, by decide, totRegister_1020, totRegister_1021, totRegister_1022,
    totRegister_1023, fun v h0 hv => ?_⟩
  obtain ⟨n, hn, rfl⟩ := exists_totRegister_eq h0 hv
  exact ⟨n, ⟨hn, rfl⟩, fun m ⟨hm, heq⟩ => totRegister_injOn (by simpa using hm) (by simpa using hn) heq⟩

/-- Settles O11: stepping, capped at index 1022, whose register is the overflow value. -/
theorem totAndPc10EncodeByStepping : Obligations.TotAndPc10EncodeByStepping := by
  refine ⟨fun s n hn => ?_, fun s n hn => ?_, fun s n hn => ?_⟩
  · rw [exec_encTot, exec_encPc10, encodeOp_tenBit (.inl rfl), encodeOp_tenBit (.inr rfl), min_eq_left hn.le]
    exact ⟨rfl, rfl⟩
  · rw [exec_encTot, exec_encPc10, encodeOp_tenBit (.inl rfl), encodeOp_tenBit (.inr rfl), min_eq_right hn,
      totRegister_1022]
    exact ⟨rfl, rfl⟩
  · exact ⟨encodeOp_tenBit_neg (.inl rfl) s hn, encodeOp_tenBit_neg (.inr rfl) s hn⟩

/-- Settles O12: every non-zero value is a register of the period, and 0 is none. -/
theorem totAndPc10DecodeToTheStepIndex : Obligations.TotAndPc10DecodeToTheStepIndex := by
  refine ⟨fun s v h0 hv => ?_, fun s => ?_, fun s v hv => ?_⟩
  · obtain ⟨n, hn, rfl⟩ := exists_totRegister_eq h0 hv
    have hn : n ≤ 1022 := by omega
    exact ⟨n, hn, rfl, decodeOpMarked_tenBit_totRegister (.inl rfl) s hn,
      decodeOpMarked_tenBit_totRegister (.inr rfl) s hn⟩
  · exact ⟨decodeOpMarked_tenBit_zero (.inl rfl) s, decodeOpMarked_tenBit_zero (.inr rfl) s⟩
  · exact ⟨decodeOpMarked_tenBit_outside (.inl rfl) s hv, decodeOpMarked_tenBit_outside (.inr rfl) s hv⟩

/-- Settles O13: encoding answers the register at index `min n 1022`, which decodes to that index. -/
theorem totRoundTripSaturatesAt1022 : Obligations.TotRoundTripSaturatesAt1022 := by
  intro s n
  have hcap : min n 1022 ≤ 1022 := min_le_right n 1022
  refine ⟨totRegister (min n 1022), fun hn => ?_, encodeOp_tenBit (.inl rfl) s n,
    decodeOpMarked_tenBit_totRegister (.inl rfl) s hcap, encodeOp_tenBit (.inr rfl) s n,
    decodeOpMarked_tenBit_totRegister (.inr rfl) s hcap⟩
  rw [min_eq_right hn, totRegister_1022]

/-- Settles O18: R116's value, R117's bits, and the refusals of anything beyond 14 bits. -/
theorem toaIsGrayCoded : Obligations.ToaIsGrayCoded := by
  refine ⟨fun s n hn => ?_, fun s n hn => exec_encToa_outside hn s, fun s g hg => ?_,
    fun s g hg => exec_decToa_outside hg s⟩
  · rw [exec_encToa_within hn, bin2gray, Nat.shiftRight_eq_div_pow, pow_one]
  · exact ⟨gray2bin g, gray2bin_le hg, fun i hi => gray2bin_testBit (Nat.lt_succ_of_le hg) hi.le,
      exec_decToa_within hg s⟩

/-- Settles O19: the two functions of R116 and R117 undo each other on 14 bits. -/
theorem grayCodecIsABijectionOn14Bits : Obligations.GrayCodecIsABijectionOn14Bits := by
  constructor
  · intro s n hn
    refine ⟨bin2gray n, bin2gray_le hn, rfl, exec_encToa_within hn s, ?_⟩
    rw [exec_decToa_within (bin2gray_le hn), gray2bin_bin2gray (Nat.lt_succ_of_le hn)]
  · intro s g hg
    refine ⟨gray2bin g, gray2bin_le hg, exec_decToa_within hg s, ?_⟩
    rw [exec_encToa_within (gray2bin_le hg), bin2gray_gray2bin (Nat.lt_succ_of_le hg)]

/-- Settles O21: saturation as a minimum, the identity on 4 bits, and the two refusals. -/
theorem ftoaSaturatesAtFifteen : Obligations.FtoaSaturatesAtFifteen := by
  refine ⟨fun s n => ?_, fun s n hn => exec_encFtoa_neg hn s, fun s v hv => exec_decFtoa_within hv s,
    fun s v hv => exec_decFtoa_outside hv s⟩
  rw [exec_encFtoa_natCast, Nat.min_def]

end Sys2Proof.Proofs.Counters
end

section
/-! PROOFS. The time quantiser (42_time.md): the times of its fields and of the system edges, what its seven
operations answer inside and outside their domains, and the quantisation laws of R158. -/

namespace Sys2Proof.Proofs.Time

open Sys2Proof.Machine Sys2Proof.Laws Sys2Proof.Proofs.Counters

/-! The fields: the Gray value of a count (R116), the ToT value of a count (R112). -/

theorem bin2gray_eq (n : Nat) : bin2gray n = n ^^^ (n / 2) := by
  rw [bin2gray, Nat.shiftRight_eq_div_pow, pow_one]

theorem gray2bin_xor_half {g : Nat} (hg : g ≤ 16383) : gray2bin g ^^^ (gray2bin g / 2) = g := by
  rw [← bin2gray_eq, bin2gray_gray2bin (Nat.lt_succ_of_le hg)]

theorem lfsrEnc_totSpec_eq_ite (n : Nat) : lfsrEnc totSpec n = if 1022 ≤ n then 0x1FF else totRegister n := by
  rw [lfsrEnc_totSpec]
  split
  next hn => rw [min_eq_right hn, totRegister_1022]
  next hn => rw [min_eq_left (not_le.1 hn).le]

/-! The times of field values (R152, R154, R156). -/

theorem toaTime_bin2gray (c : Cfg) {n : Nat} (hn : n ≤ 16383) :
    toaTime c (bin2gray n) = c.epoch + (n : Rat) / c.fSys := by
  rw [toaTime, gray2bin_bin2gray (Nat.lt_succ_of_le hn), Cfg.tSys, mul_one_div, add_comm]

/-- An fToA of 0 takes nothing off the ToA time, so it counts as one not supplied (R156). -/
theorem startOf_eq (c : Cfg) (ftoa : Option Nat) (toa : Nat) :
    startOf c ftoa toa =
      (gray2bin toa : Rat) / c.fSys + c.epoch - ((ftoa.getD 0 : Nat) : Rat) / c.fFine := by
  have hfield (f : Nat) :
      ftoaTime c f toa = (gray2bin toa : Rat) / c.fSys + c.epoch - (f : Rat) / c.fFine := by
    simp [ftoaTime, toaTime, satDec, Cfg.tSys, Cfg.tFine, div_eq_mul_inv]
  have hzero : toaTime c toa = ftoaTime c 0 toa := by simp [ftoaTime, satDec]
  cases ftoa with
  | none => rw [startOf, hzero, hfield]; rfl
  | some f =>
    rw [startOf]
    split
    next => exact hfield f
    next hf =>
      obtain rfl : f = 0 := not_not.1 hf
      exact hzero.trans (hfield 0)

/-! Positions in the time base (R150, R153). -/

theorem epoch_add_ticks {c : Cfg} (hf : 0 < c.fSys) (t : Rat) : c.epoch + c.ticks t / c.fSys = t := by
  rw [Cfg.ticks, mul_div_cancel_right₀ _ hf.ne']; ring

theorem nextEdge_eq {c : Cfg} {t : Rat} {k : Nat} (hf : 0 < c.fSys) (h : c.epoch + (k : Rat) / c.fSys ≤ t)
    (h' : t < c.epoch + ((k : Rat) + 1) / c.fSys) : nextEdge c t = c.epoch + ((k : Rat) + 1) / c.fSys := by
  rw [nextEdge, floor_ticks hf h h', Cfg.tSys, mul_one_div]

theorem fineTicks_floor (c : Cfg) (t : Rat) :
    fineTicks c .floor t = ⌊(nextEdge c t - t) * c.fFine⌋.toNat := (Int.floor_toNat _).symm

theorem fineTicks_ceil (c : Cfg) (t : Rat) :
    fineTicks c .ceil t = ⌈(nextEdge c t - t) * c.fFine⌉.toNat := (Int.ceil_toNat _).symm

/-! The operations of this family, each as its arm. -/

theorem exec_t2toa (t : Rat) (s : State) : exec (.t2toa t) s = execT2toa t s := rfl
theorem exec_toa2t (toa : Int) (s : State) : exec (.toa2t toa) s = execToa2t toa s := rfl
theorem exec_t2ftoa (t : Rat) (s : State) : exec (.t2ftoa t) s = execT2ftoa t s := rfl
theorem exec_ftoa2t (ftoa toa : Int) (s : State) : exec (.ftoa2t ftoa toa) s = execFtoa2t ftoa toa s := rfl
theorem exec_t2tot (start stop : Rat) (s : State) : exec (.t2tot start stop) s = execT2tot start stop s := rfl
theorem exec_tot2t (tot toa : Int) (ftoa : Option Int) (s : State) :
    exec (.tot2t tot toa ftoa) s = execTot2t tot toa ftoa s := rfl
theorem exec_t2val (start stop : Rat) (mode : ModeCode) (s : State) :
    exec (.t2val start stop mode) s = execT2val start stop mode s := rfl

/-! T2TOA and TOA2T (R151, R152). -/

theorem exec_t2toa_of_value {t : Rat} {s : State} {g : Nat} (h : timeToToa s.cfg .t t = .ok g) :
    exec (.t2toa t) s = .next { s with result := .value g } := by
  simp [exec_t2toa, execT2toa, h]

theorem exec_t2toa_of_error {t : Rat} {s : State} {e : HardError} (h : timeToToa s.cfg .t t = .error e) :
    exec (.t2toa t) s = .next { s with result := .error e } := by
  simp [exec_t2toa, execT2toa, h]

theorem timeToToa_early {c : Cfg} (n : OperandName) {t : Rat} (h : t < c.epoch) :
    timeToToa c n t = .error (.range n (.rat t)) := by
  simp [timeToToa, checkTime_early n h]

theorem exec_toa2t_within {g : Nat} (hg : g ≤ 16383) (s : State) :
    exec (.toa2t g) s = .next { s with result := .seconds (toaTime s.cfg g) } := by
  simp [exec_toa2t, execToa2t, checkMax_natCast .toa hg]

theorem exec_toa2t_outside {toa : Int} (h : toa < 0 ∨ 16383 < toa) (s : State) :
    exec (.toa2t toa) s = .next { s with result := .error (.range .toa (.int toa)) } := by
  simp [exec_toa2t, execToa2t, checkMax_outside .toa (hi := 16383) h]

/-! T2FTOA and FTOA2T (R153, R154). -/

theorem exec_t2ftoa_within {t : Rat} {s : State} (h : s.cfg.epoch ≤ t) :
    exec (.t2ftoa t) s = .next { s with result := .value (ftoaOf s.cfg s.par.ftoaCount t) } := by
  simp [exec_t2ftoa, execT2ftoa, checkTime_ok .t h]

theorem exec_t2ftoa_early {t : Rat} {s : State} (h : t < s.cfg.epoch) :
    exec (.t2ftoa t) s = .next { s with result := .error (.range .t (.rat t)) } := by
  simp [exec_t2ftoa, execT2ftoa, checkTime_early .t h]

theorem exec_ftoa2t_within {f g : Nat} (hf : f ≤ 15) (hg : g ≤ 16383) (s : State) :
    exec (.ftoa2t f g) s = .next { s with result := .seconds (ftoaTime s.cfg f g) } := by
  simp [exec_ftoa2t, execFtoa2t, checkMax_natCast .ftoa hf, checkMax_natCast .toa hg]

theorem exec_ftoa2t_ftoa_outside {f : Int} (hf : f < 0 ∨ 15 < f) (toa : Int) (s : State) :
    exec (.ftoa2t f toa) s = .next { s with result := .error (.range .ftoa (.int f)) } := by
  simp [exec_ftoa2t, execFtoa2t, checkMax_outside .ftoa (hi := 15) hf]

theorem exec_ftoa2t_toa_outside {f : Nat} (hf : f ≤ 15) {toa : Int} (h : toa < 0 ∨ 16383 < toa) (s : State) :
    exec (.ftoa2t f toa) s = .next { s with result := .error (.range .toa (.int toa)) } := by
  simp [exec_ftoa2t, execFtoa2t, checkMax_natCast .ftoa hf, checkMax_outside .toa (hi := 16383) h]

/-! T2TOT and TOT2T (R155, R156). -/

theorem exec_t2tot_within {start stop : Rat} {s : State} (h : s.cfg.epoch ≤ start) (h' : start ≤ stop) :
    exec (.t2tot start stop) s = .next { s with result := .value (totOf s.cfg start stop) } := by
  simp [exec_t2tot, execT2tot, checkPulse_ok h h']

theorem exec_t2tot_of_error {start stop : Rat} {s : State} {e : HardError}
    (h : checkPulse s.cfg start stop = .error e) :
    exec (.t2tot start stop) s = .next { s with result := .error e } := by
  simp [exec_t2tot, execT2tot, h]

theorem checkFtoaOpt_within {ftoa : Option Nat} (h : ∀ f, ftoa = some f → f ≤ 15) :
    checkFtoaOpt (ftoa.map Int.ofNat) = .ok ftoa := by
  cases ftoa with
  | none => rfl
  | some f => simp [checkFtoaOpt, checkMax_natCast .ftoa (h f rfl), Except.map]

theorem checkFtoaOpt_outside {f : Int} (h : f < 0 ∨ 15 < f) :
    checkFtoaOpt (some f) = .error (.range .ftoa (.int f)) := by
  simp [checkFtoaOpt, checkMax_outside .ftoa (hi := 15) h, Except.map]

section Tot2t

variable {tot toa : Nat} (htot : tot ≤ 1023) (s : State)
include htot

theorem exec_tot2t_within (htoa : toa ≤ 16383) {ftoa : Option Int} {f : Option Nat}
    (hf : checkFtoaOpt ftoa = .ok f) :
    exec (.tot2t tot toa ftoa) s = .next { s with
      result := .interval (startOf s.cfg f toa)
        (startOf s.cfg f toa + ((lfsrDec totSpec tot).count : Rat) / s.cfg.fSys)
        (lfsrDec totSpec tot).ambiguous } := by
  simp [exec_tot2t, execTot2t, checkMax_natCast .tot htot, checkMax_natCast .toa htoa, hf]

theorem exec_tot2t_ftoa_outside (htoa : toa ≤ 16383) {f : Int} (hf : f < 0 ∨ 15 < f) :
    exec (.tot2t tot toa (some f)) s = .next { s with result := .error (.range .ftoa (.int f)) } := by
  simp [exec_tot2t, execTot2t, checkMax_natCast .tot htot, checkMax_natCast .toa htoa, checkFtoaOpt_outside hf]

theorem exec_tot2t_toa_outside {toa : Int} (h : toa < 0 ∨ 16383 < toa) (ftoa : Option Int) :
    exec (.tot2t tot toa ftoa) s = .next { s with result := .error (.range .toa (.int toa)) } := by
  simp [exec_tot2t, execTot2t, checkMax_natCast .tot htot, checkMax_outside .toa (hi := 16383) h]

end Tot2t

theorem exec_tot2t_tot_outside {tot : Int} (h : tot < 0 ∨ 1023 < tot) (toa : Int) (ftoa : Option Int) (s : State) :
    exec (.tot2t tot toa ftoa) s = .next { s with result := .error (.range .tot (.int tot)) } := by
  simp [exec_tot2t, execTot2t, checkMax_outside .tot (hi := 1023) h]

/-! T2VAL (R157). -/

/-- The mode of a packet mode's code (R23, R24). -/
def packetMode (code : ModeCode) : Mode := if code = 0#2 then .toaAndTot else .toaOnly

theorem checkMode_packet {code : ModeCode} (h : code = 0#2 ∨ code = 1#2) :
    checkMode admitsPacket code = .ok (packetMode code) := by
  rcases h with rfl | rfl <;> rfl

theorem checkMode_packet_refused {code : ModeCode} (h : code = 2#2 ∨ code = 3#2) :
    checkMode admitsPacket code = .error (.range .mode (.code code)) := by
  rcases h with rfl | rfl <;> rfl

theorem totInMode_packetMode (c : Cfg) (code : ModeCode) (start stop : Rat) :
    totInMode c (packetMode code) start stop = if code = 0#2 then totOf c start stop else 0 := by
  rw [totInMode, packetMode]
  split <;> rfl

section Values

variable {c : Cfg} (r : FineRounding) (m : Mode) {start stop : Rat}

theorem timeToValues_within {g : Nat} (hp : checkPulse c start stop = .ok ())
    (hg : timeToToa c .start start = .ok g) :
    timeToValues c r m start stop = .ok (g, ftoaOf c r start, totInMode c m start stop) := by
  simp [timeToValues, hp, hg]

theorem timeToValues_bad_pulse {e : HardError} (hp : checkPulse c start stop = .error e) :
    timeToValues c r m start stop = .error e := by
  simp [timeToValues, hp]

theorem timeToValues_bad_toa {e : HardError} (hp : checkPulse c start stop = .ok ())
    (hg : timeToToa c .start start = .error e) : timeToValues c r m start stop = .error e := by
  simp [timeToValues, hp, hg]

end Values

theorem exec_t2val_mode_refused {code : ModeCode} (h : code = 2#2 ∨ code = 3#2) (start stop : Rat) (s : State) :
    exec (.t2val start stop code) s = .next { s with result := .error (.range .mode (.code code)) } := by
  simp [exec_t2val, execT2val, checkMode_packet_refused h]

section T2val

variable {code : ModeCode} (hm : code = 0#2 ∨ code = 1#2) {start stop : Rat} {s : State}
include hm

theorem exec_t2val_of_values {v : Nat × Nat × Nat}
    (h : timeToValues s.cfg s.par.ftoaCount (packetMode code) start stop = .ok v) :
    exec (.t2val start stop code) s = .next { s with result := .timeFields v.1 v.2.1 v.2.2 } := by
  simp [exec_t2val, execT2val, checkMode_packet hm, h]

theorem exec_t2val_of_error {e : HardError}
    (h : timeToValues s.cfg s.par.ftoaCount (packetMode code) start stop = .error e) :
    exec (.t2val start stop code) s = .next { s with result := .error e } := by
  simp [exec_t2val, execT2val, checkMode_packet hm, h]

end T2val

/-! Quantisation (R158): where the coarse and the fine time stand around `t`. -/

/-- The coarse time is the first system edge at or after `t`. -/
theorem toaTicks_edge_bounds {c : Cfg} {t : Rat} (hf : 0 < c.fSys) (h : c.epoch ≤ t) :
    t ≤ c.epoch + (toaTicks c t : Rat) / c.fSys ∧
      c.epoch + (toaTicks c t : Rat) / c.fSys < t + 1 / c.fSys := by
  have hlow : c.ticks t ≤ toaTicks c t := Nat.le_ceil _
  have hhigh : (toaTicks c t : Rat) < c.ticks t + 1 := Nat.ceil_lt_add_one (ticks_nonneg hf h)
  constructor
  · calc t = c.epoch + c.ticks t / c.fSys := (epoch_add_ticks hf t).symm
      _ ≤ c.epoch + (toaTicks c t : Rat) / c.fSys := by gcongr
  · calc c.epoch + (toaTicks c t : Rat) / c.fSys
        < c.epoch + (c.ticks t + 1) / c.fSys := by gcongr
      _ = t + 1 / c.fSys := by rw [add_div, ← add_assoc, epoch_add_ticks hf]

theorem toaTicks_on_edge {c : Cfg} (hf : 0 < c.fSys) (k : Nat) : toaTicks c (c.epoch + (k : Rat) / c.fSys) = k := by
  rw [toaTicks, Cfg.ticks, add_sub_cancel_left, div_mul_cancel₀ _ hf.ne', Nat.ceil_natCast]

/-- The edge that follows an edge is a whole tick later (R153). -/
theorem nextEdge_on_edge {c : Cfg} (hf : 0 < c.fSys) (k : Nat) :
    nextEdge c (c.epoch + (k : Rat) / c.fSys) = c.epoch + ((k : Rat) + 1) / c.fSys :=
  nextEdge_eq hf le_rfl (by gcongr; linarith)

/-- Off the edges the coarse time is the edge that the fine ticks count down to, less than a tick away. -/
theorem nextEdge_off_edge {c : Cfg} {t : Rat} (hf : 0 < c.fSys) (h : c.epoch ≤ t)
    (hoff : ∀ k : Nat, t ≠ c.epoch + (k : Rat) / c.fSys) :
    c.epoch + (toaTicks c t : Rat) / c.fSys = nextEdge c t ∧
      t < nextEdge c t ∧ nextEdge c t < t + 1 / c.fSys := by
  obtain ⟨hlow, hhigh⟩ := toaTicks_edge_bounds hf h
  have hne : toaTicks c t ≠ 0 := fun h0 => hoff 0 (le_antisymm (h0 ▸ hlow) (by simpa using h))
  obtain ⟨k, hk⟩ := Nat.exists_eq_succ_of_ne_zero hne
  have hcast : (toaTicks c t : Rat) = k + 1 := by rw [hk, Nat.cast_succ]
  have hlt : t < c.epoch + (toaTicks c t : Rat) / c.fSys := lt_of_le_of_ne hlow (hoff _)
  have hedge : nextEdge c t = c.epoch + (toaTicks c t : Rat) / c.fSys := by
    rw [hcast] at hlt hhigh ⊢
    exact nextEdge_eq hf (by rw [add_div] at hhigh; linarith) hlt
  rw [hedge]
  exact ⟨rfl, hlt, hhigh⟩

section Fine

variable {c : Cfg} {t : Rat} (hf : 0 < c.fSys) (hratio : c.fFine = 16 * c.fSys)
include hf hratio

/-- Sixteen fine ticks remain on an edge, and the field holds 15 of them. -/
theorem ftoaOf_on_edge (k : Nat) : ftoaOf c .floor (c.epoch + (k : Rat) / c.fSys) = 15 := by
  have hd : (nextEdge c (c.epoch + (k : Rat) / c.fSys) - (c.epoch + (k : Rat) / c.fSys)) * c.fFine = (16 : Nat) := by
    rw [nextEdge_on_edge hf k, hratio]; field_simp; ring
  rw [ftoaOf, satEnc, fineTicks, hd, Nat.floor_natCast]; rfl

/-- Off the edges fewer than sixteen remain, so the field holds all the whole ones. -/
theorem ftoaOf_off_edge (h : c.epoch ≤ t) (hoff : ∀ k : Nat, t ≠ c.epoch + (k : Rat) / c.fSys) :
    (ftoaOf c .floor t : Rat) ≤ (nextEdge c t - t) * c.fFine ∧
      (nextEdge c t - t) * c.fFine < ftoaOf c .floor t + 1 := by
  obtain ⟨-, hlt, hnear⟩ := nextEdge_off_edge hf h hoff
  have hfine : 0 < c.fFine := by linarith
  have hpos : 0 ≤ (nextEdge c t - t) * c.fFine := mul_nonneg (by linarith) hfine.le
  have hbound : (nextEdge c t - t) * c.fFine < (16 : Nat) := by
    have : nextEdge c t - t < 1 / c.fSys := by linarith
    rw [lt_div_iff₀ hf] at this
    rw [hratio]; push_cast; linarith
  have hfield : ftoaOf c .floor t = ⌊(nextEdge c t - t) * c.fFine⌋₊ :=
    min_eq_left (Nat.le_of_lt_succ ((Nat.floor_lt hpos).2 hbound))
  rw [hfield]
  exact ⟨Nat.floor_le hpos, Nat.lt_floor_add_one _⟩

/-- Off the edges ToA and fToA give back a time less than one fine tick after `t` (R158, 2). -/
theorem ftoaTime_off_edge (h : c.epoch ≤ t) (hn : toaTicks c t ≤ 16383)
    (hoff : ∀ k : Nat, t ≠ c.epoch + (k : Rat) / c.fSys) :
    t ≤ ftoaTime c (ftoaOf c .floor t) (bin2gray (toaTicks c t)) ∧
      ftoaTime c (ftoaOf c .floor t) (bin2gray (toaTicks c t)) < t + 1 / c.fFine := by
  have hfine : 0 < c.fFine := by linarith
  obtain ⟨hcoarse, -, -⟩ := nextEdge_off_edge hf h hoff
  obtain ⟨hlow, hhigh⟩ := ftoaOf_off_edge hf hratio h hoff
  have htime : ftoaTime c (ftoaOf c .floor t) (bin2gray (toaTicks c t)) =
      nextEdge c t - (ftoaOf c .floor t : Rat) / c.fFine := by
    rw [ftoaTime, toaTime_bin2gray c hn, hcoarse, satDec, Cfg.tFine, mul_one_div]
  rw [← div_le_iff₀ hfine] at hlow
  rw [← lt_div_iff₀ hfine, add_div] at hhigh
  rw [htime]
  constructor <;> linarith

end Fine

/-- On edge `k` the fine field's 15 ticks come off the edge itself (R158, 3). -/
theorem ftoaTime_on_edge (c : Cfg) {k : Nat} (hk : k ≤ 16383) :
    ftoaTime c 15 (bin2gray k) = c.epoch + (k : Rat) / c.fSys - 15 / c.fFine := by
  rw [ftoaTime, toaTime_bin2gray c hk, satDec, Cfg.tFine, mul_one_div]; norm_num

/-! The obligations. -/

/-- Settles O22: R151's value, and its two refusals. -/
theorem timeToToaRoundsUpToTicks : Obligations.TimeToToaRoundsUpToTicks := by
  refine ⟨fun s t h h' => ⟨toaTicks s.cfg t, toaTicks_eq_toNat s.cfg t, ?_⟩,
    fun s t h => exec_t2toa_of_error (timeToToa_early .t h),
    fun s t h h' => exec_t2toa_of_error (timeToToa_late .t h h')⟩
  rw [exec_t2toa_of_value (timeToToa_ok .t h h'), bin2gray_eq]

/-- Settles O23: the count is the Gray decode of `toa`, and both operations are its time by definition. -/
theorem toaAndFtoaGiveBackTheTime : Obligations.ToaAndFtoaGiveBackTheTime := by
  refine ⟨fun s toa htoa => ?_, fun s toa htoa => ?_, fun s ftoa toa hf => exec_ftoa2t_ftoa_outside hf toa s⟩
  · exact ⟨gray2bin toa, gray2bin_le htoa, gray2bin_xor_half htoa, exec_toa2t_within htoa s,
      fun ftoa hf => exec_ftoa2t_within hf htoa s⟩
  · exact ⟨exec_toa2t_outside htoa s, fun ftoa hf => exec_ftoa2t_toa_outside hf htoa s⟩

/-- Settles O24: the next edge is edge `k + 1`, and the two roundings are R153's. -/
theorem timeToFtoaCountsFineTicksToTheNextEdge : Obligations.TimeToFtoaCountsFineTicksToTheNextEdge := by
  refine ⟨fun s t k hf h h' => ?_, fun s t h => exec_t2ftoa_early h⟩
  have hepoch : s.cfg.epoch ≤ t := le_trans (le_add_of_nonneg_right (by positivity)) h
  rw [exec_t2ftoa_within hepoch, ftoaOf, satEnc, ← nextEdge_eq hf h h']
  cases s.par.ftoaCount with
  | floor => rw [fineTicks_floor]
  | ceil => rw [fineTicks_ceil]

/-- Settles O25: the tick count is the number of edges, and its ToT value is R112's. -/
theorem timeToTotCountsTheEdgesOfThePulse : Obligations.TimeToTotCountsTheEdgesOfThePulse := by
  refine ⟨fun s start stop n hf h h' hn => ?_,
    fun s start stop h => exec_t2tot_of_error (checkPulse_early stop h),
    fun s start stop h h' => exec_t2tot_of_error (checkPulse_reversed h h')⟩
  have hticks : totTicks s.cfg start stop = n := Nat.cast_injective ((totTicks_eq hf h h').trans hn)
  rw [exec_t2tot_within h h', totOf, hticks, lfsrEnc_totSpec_eq_ite]

/-- Settles O26: DEC_TOT and TOT2T share the ToT decode, and `startOf_eq` gives the start. -/
theorem totGivesBackTheInterval : Obligations.TotGivesBackTheInterval := by
  refine ⟨fun s tot toa ftoa htot htoa hf => ?_, fun s tot toa ftoa h => exec_tot2t_tot_outside h toa ftoa s,
    fun s tot toa ftoa htot h => exec_tot2t_toa_outside htot s h ftoa,
    fun s tot toa f htot htoa h => exec_tot2t_ftoa_outside htot s htoa h⟩
  refine ⟨gray2bin toa, (lfsrDec totSpec tot).count, (lfsrDec totSpec tot).ambiguous, gray2bin_le htoa,
    gray2bin_xor_half htoa, ?_, ?_⟩
  · rw [exec_decTot, decodeOpMarked_tenBit (.inl rfl) s (by omega)]
  · rw [exec_tot2t_within htot s htoa (checkFtoaOpt_within hf), startOf_eq]

/-- Settles O27: T2VAL runs the three conversions' own functions after its mode and pulse checks. -/
theorem timeToValuesIsTheThreeConversions : Obligations.TimeToValuesIsTheThreeConversions := by
  refine ⟨fun s start stop code hm h h' hspan => ?_,
    fun s start stop code hm => exec_t2val_mode_refused hm start stop s,
    fun s start stop code hm h => ?_, fun s start stop code hm h h' => ?_,
    fun s start stop code hm h h' hspan => ⟨.t, ?_⟩⟩
  · refine ⟨_, _, _, exec_t2toa_of_value (timeToToa_ok .t h hspan), exec_t2ftoa_within h,
      exec_t2tot_within h h', ?_⟩
    rw [exec_t2val_of_values hm (timeToValues_within _ _ (checkPulse_ok h h') (timeToToa_ok .start h hspan)),
      totInMode_packetMode]
  · exact exec_t2val_of_error hm (timeToValues_bad_pulse _ _ (checkPulse_early stop h))
  · exact exec_t2val_of_error hm (timeToValues_bad_pulse _ _ (checkPulse_reversed h h'))
  · exact exec_t2val_of_error hm (timeToValues_bad_toa _ _ (checkPulse_ok h h') (timeToToa_late .start h hspan))

/-- Settles O28: the coarse time is the edge at or after `t`; off the edges the fine ticks count down to that same
edge, and on an edge they count down to the one after it. -/
theorem quantisationLaws : Obligations.QuantisationLaws := by
  constructor
  · intro s t hf h hspan
    have hn := toaTicks_le hspan
    obtain ⟨hlow, hhigh⟩ := toaTicks_edge_bounds hf h
    refine ⟨_, _, exec_t2toa_of_value (timeToToa_ok .t h hspan), exec_toa2t_within (bin2gray_le hn) s, ?_⟩
    rw [toaTime_bin2gray _ hn]
    refine ⟨?_, hlow, hhigh⟩
    rw [toaTicks, natCast_ceil_eq_intCast_ceil (ticks_nonneg hf h), mul_one_div]; rfl
  · intro s t hf hratio hfloor h hspan
    have hn := toaTicks_le hspan
    refine ⟨_, _, _, exec_t2toa_of_value (timeToToa_ok .t h hspan), exec_t2ftoa_within h,
      exec_ftoa2t_within (ftoaOf_le _ _ _) (bin2gray_le hn) s, fun hoff => ?_, ?_⟩
    · rw [hfloor]
      exact ftoaTime_off_edge hf hratio h hn hoff
    · rintro ⟨k, rfl⟩
      rw [toaTicks_on_edge hf] at hn ⊢
      rw [hfloor, ftoaOf_on_edge hf hratio, ftoaTime_on_edge _ hn]

end Sys2Proof.Proofs.Time
end

section
/-! PROOFS. The hit dead-time acceptor (43_acceptor.md): the start of an acquisition, the outcomes of a pulse, and
the spacing of the accepted pulses of one pixel. -/

namespace Sys2Proof.Proofs.Acceptor

open Sys2Proof.Machine Sys2Proof.Laws Sys2Proof.Proofs.Counters

/-! The operations of this file, each as its arm. -/

theorem exec_acqStart (code : ModeCode) (fSys fFine epoch : Option Rat) (s : State) :
    exec (.acqStart code fSys fFine epoch) s = execAcqStart code fSys fFine epoch s := rfl
theorem exec_accept (a : Int) (start stop : Rat) (s : State) :
    exec (.accept a start stop) s = execAccept a start stop s := rfl
theorem exec_acceptSeq (code : ModeCode) (ps : List Pulse) (s : State) :
    exec (.acceptSeq code ps) s = execAcceptSeq code ps s := rfl

/-! The mode operand (R23, R24). -/

theorem checkMode_acceptor {code : ModeCode} {m : Mode}
    (h : (code = 0#2 ∧ m = .toaAndTot) ∨ (code = 1#2 ∧ m = .toaOnly) ∨ (code = 2#2 ∧ m = .tick3)) :
    checkMode admitsAny code = .ok m := by
  obtain ⟨rfl, rfl⟩ | ⟨rfl, rfl⟩ | ⟨rfl, rfl⟩ := h <;> rfl

theorem checkMode_reserved : checkMode admitsAny 3#2 = .error (.range .mode (.code 3#2)) := rfl

/-- Every code but the reserved one names a mode (R23). -/
theorem exists_checkMode_of_ne_reserved {code : ModeCode} (h : code ≠ 3#2) :
    ∃ m, checkMode admitsAny code = .ok m := by
  have hcases : code = 0#2 ∨ code = 1#2 ∨ code = 2#2 := by bv_omega
  obtain rfl | rfl | rfl := hcases <;> exact ⟨_, rfl⟩

/-! ACQ_START (R181). -/

section AcqConfig

variable {code : ModeCode} {m : Mode} {fSys fFine : Option Rat} (epoch : Option Rat)

theorem acqConfig_ok (hm : checkMode admitsAny code = .ok m) (hs : 0 < fSys.getD 40000000)
    (hfine : 0 < fFine.getD 640000000) :
    acqConfig code fSys fFine epoch =
      .ok ⟨some m, fSys.getD 40000000, fFine.getD 640000000, epoch.getD 0⟩ := by
  simp [acqConfig, hm, checkClock_ok .fSys hs, checkClock_ok .fFine hfine]

theorem acqConfig_reserved (fSys fFine : Option Rat) :
    acqConfig 3#2 fSys fFine epoch = .error (.range .mode (.code 3#2)) := by
  simp [acqConfig, checkMode_reserved]

theorem acqConfig_bad_fSys (hm : checkMode admitsAny code = .ok m) {f : Rat} (hs : f ≤ 0) (fFine : Option Rat) :
    acqConfig code (some f) fFine epoch = .error (.range .fSys (.rat f)) := by
  simp [acqConfig, hm, checkClock_bad .fSys hs]

theorem acqConfig_bad_fFine (hm : checkMode admitsAny code = .ok m) (hs : 0 < fSys.getD 40000000) {f : Rat}
    (hfine : f ≤ 0) : acqConfig code fSys (some f) epoch = .error (.range .fFine (.rat f)) := by
  simp [acqConfig, hm, checkClock_ok .fSys hs, checkClock_bad .fFine hfine]

end AcqConfig

section AcqStart

variable {code : ModeCode} {fSys fFine epoch : Option Rat}

theorem exec_acqStart_of_config {c : Cfg} (h : acqConfig code fSys fFine epoch = .ok c) (s : State) :
    exec (.acqStart code fSys fFine epoch) s = .next (s.startAcquisition c) := by
  rw [exec_acqStart, execAcqStart, h]

theorem exec_acqStart_of_error {e : HardError} (h : acqConfig code fSys fFine epoch = .error e) (s : State) :
    exec (.acqStart code fSys fFine epoch) s = .next { s with result := .error e } := by
  rw [exec_acqStart, execAcqStart, h]; rfl

end AcqStart

/-! The acceptor's tick count (R182). -/

/-- The ToT round trip caps the tick count at 1022. -/
theorem accTot_eq (c : Cfg) (start stop : Rat) : accTot c start stop = min (totTicks c start stop) 1022 := by
  rw [accTot, totOf, lfsrEnc_totSpec, lfsrDec_totRegister (min_le_right _ _)]; rfl

theorem totTicks_eq_edges {c : Cfg} {start stop : Rat} (hf : 0 < c.fSys) (h : c.epoch ≤ start)
    (h' : start ≤ stop) : (totTicks c start stop : Int) = edgeIndex c stop - edgeIndex c start :=
  totTicks_eq hf h h'

/-! The three outcomes of the acceptor's step (R183). -/

section Step

variable {c : Cfg} {m : Mode} {p : PixRec} {start stop : Rat}

theorem acceptStep_eq_rejectWidth (h : accTot c start stop = 0) :
    acceptStep c m p start stop = ({ p with lastStart := some start }, .rejectWidth) := by
  rw [acceptStep, if_pos (by omega)]

theorem acceptStep_eq_rejectDead (h : accTot c start stop ≠ 0)
    (hd : p.hasPrev = true ∧ start - p.prevEnd < deadTime p.prevTot m c.fSys) :
    acceptStep c m p start stop = ({ p with lastStart := some start }, .rejectDead) := by
  rw [acceptStep, if_neg (by omega), if_pos hd]

theorem acceptStep_eq_accept (h : accTot c start stop ≠ 0)
    (hd : ¬ (p.hasPrev = true ∧ start - p.prevEnd < deadTime p.prevTot m c.fSys)) :
    acceptStep c m p start stop =
      ({ prevTot := accTot c start stop, prevEnd := stop, hasPrev := true, lastStart := some start }, .accept) := by
  rw [acceptStep, if_neg (by omega), if_neg hd]

end Step

/-- ACCEPT on operands that pass its checks records the step's outcome (R184). -/
theorem exec_accept_within {s : State} {m : Mode} {a : Nat} {start stop : Rat} (hm : s.cfg.mode = some m)
    (ha : a ≤ 65535) (h : s.cfg.epoch ≤ start) (h' : start ≤ stop)
    (hlast : ∀ ls, (s.pix.read a).lastStart = some ls → ls ≤ start) {r : PixRec} {v : Verdict}
    (hstep : acceptStep s.cfg m (s.pix.read a) start stop = (r, v)) :
    exec (.accept a start stop) s = .next (s.recordPulse a r v) := by
  have hpulse : acceptPulse s.cfg s.pix a start stop = .ok (a, r, v) :=
    acceptPulse_eq_ok.2 ⟨m, hm, rfl, ha, presentPulse_eq_ok.2 ⟨h, h', hlast, hstep⟩⟩
  rw [exec_accept, execAccept, hpulse]

/-! The dead-time window that follows an accepted pulse (R186). -/

/-- The first time at which a pulse may start after the record's accepted pulse. -/
def windowEnd (c : Cfg) (m : Mode) (p : PixRec) : Rat := p.prevEnd + deadTime p.prevTot m c.fSys

section Window

variable {c : Cfg} {m : Mode} {p r : PixRec} {start stop : Rat} {v : Verdict}

/-- What an accepted pulse says of its operands and of the record before it, and what it writes. -/
theorem presentPulse_accepted (h : presentPulse c m p start stop = .ok (r, .accept)) :
    c.epoch ≤ start ∧ start ≤ stop ∧ 1 ≤ accTot c start stop ∧ (p.hasPrev = true → windowEnd c m p ≤ start) ∧
      r = { prevTot := accTot c start stop, prevEnd := stop, hasPrev := true, lastStart := some start } := by
  obtain ⟨hepoch, hpulse, -, hstep⟩ := presentPulse_eq_ok.1 h
  obtain ⟨hwidth, hdead, hrec⟩ := acceptStep_accept (congrArg Prod.snd hstep)
  rw [hstep] at hrec
  exact ⟨hepoch, hpulse, hwidth, hdead, hrec⟩

theorem presentPulse_rejected (h : presentPulse c m p start stop = .ok (r, v)) (hv : v ≠ .accept) :
    r = { p with lastStart := some start } := by
  obtain ⟨-, -, -, hstep⟩ := presentPulse_eq_ok.1 h
  have hrec := acceptStep_reject (c := c) (m := m) (p := p) (start := start) (stop := stop) (by rwa [hstep])
  rwa [hstep] at hrec

/-- A rejected pulse leaves the window, and an accepted one moves it later. -/
theorem presentPulse_windowEnd_le (hf : 0 < c.fSys) (hprev : p.hasPrev = true)
    (h : presentPulse c m p start stop = .ok (r, v)) : r.hasPrev = true ∧ windowEnd c m p ≤ windowEnd c m r := by
  by_cases hv : v = .accept
  · subst hv
    obtain ⟨-, hpulse, hwidth, hdead, rfl⟩ := presentPulse_accepted h
    have hpos : 0 ≤ deadTime (accTot c start stop) m c.fSys := le_trans (by positivity) (deadTime_ge m hf hwidth)
    refine ⟨rfl, ?_⟩
    calc windowEnd c m p ≤ start := hdead hprev
      _ ≤ stop := hpulse
      _ ≤ stop + deadTime (accTot c start stop) m c.fSys := le_add_of_nonneg_right hpos
  · obtain rfl := presentPulse_rejected h hv
    exact ⟨hprev, le_rfl⟩

end Window

/-! Folds of the acceptor (R185). -/

section Fold

variable {c : Cfg} {m : Mode} {p : PixRec} {ps : List Pulse} {vs : List Verdict}

/-- The pulse at index `i` of a fold that answers is presented, and the fold goes on from the record it leaves. -/
theorem acceptFold_at {i : Nat} {q : Pulse} {v : Verdict} (h : acceptFold c m p ps = .ok vs)
    (hq : ps[i]? = some q) (hv : vs[i]? = some v) :
    ∃ p' r, presentPulse c m p' q.start q.stop = .ok (r, v) ∧
      acceptFold c m r (ps.drop (i + 1)) = .ok (vs.drop (i + 1)) := by
  induction ps generalizing p vs i with
  | nil => simp at hq
  | cons q₀ qs ih =>
    obtain ⟨⟨r, v₀⟩, ws, hpresent, hrest, rfl⟩ := acceptFold_cons_eq_ok.1 h
    cases i with
    | zero =>
      obtain rfl : q₀ = q := by simpa using hq
      obtain rfl : v₀ = v := by simpa using hv
      exact ⟨p, r, hpresent, hrest⟩
    | succ i => exact ih hrest (by simpa using hq) (by simpa using hv)

/-- Nothing in the rest of a sequence is accepted before the window ends (R186). -/
theorem windowEnd_le_of_accepted (hf : 0 < c.fSys) (hprev : p.hasPrev = true) (h : acceptFold c m p ps = .ok vs)
    {j : Nat} {q : Pulse} (hq : ps[j]? = some q) (hv : vs[j]? = some .accept) : windowEnd c m p ≤ q.start := by
  induction ps generalizing p vs j with
  | nil => simp at hq
  | cons q₀ qs ih =>
    obtain ⟨⟨r, v⟩, ws, hpresent, hrest, rfl⟩ := acceptFold_cons_eq_ok.1 h
    cases j with
    | zero =>
      obtain rfl : q₀ = q := by simpa using hq
      obtain rfl : v = .accept := by simpa using hv
      obtain ⟨-, -, -, hdead, -⟩ := presentPulse_accepted hpresent
      exact hdead hprev
    | succ j =>
      obtain ⟨hprev', hle⟩ := presentPulse_windowEnd_le hf hprev hpresent
      exact hle.trans (ih hprev' hrest (by simpa using hq) (by simpa using hv))

/-- Of two accepted pulses the later one starts no sooner than the earlier one's window ends (R187). -/
theorem accepted_spacing (hf : 0 < c.fSys) (h : acceptFold c m p ps = .ok vs) {i j : Nat} (hij : i < j)
    {q q' : Pulse} (hq : ps[i]? = some q) (hq' : ps[j]? = some q') (hv : vs[i]? = some .accept)
    (hv' : vs[j]? = some .accept) :
    c.epoch ≤ q.start ∧ q.start ≤ q.stop ∧ 1 ≤ accTot c q.start q.stop ∧
      q.stop + deadTime (accTot c q.start q.stop) m c.fSys ≤ q'.start := by
  obtain ⟨_, r, hpresent, hrest⟩ := acceptFold_at h hq hv
  obtain ⟨hepoch, hpulse, hwidth, -, rfl⟩ := presentPulse_accepted hpresent
  obtain ⟨k, rfl⟩ := Nat.exists_eq_add_of_le (Nat.succ_le_of_lt hij)
  exact ⟨hepoch, hpulse, hwidth, windowEnd_le_of_accepted hf rfl hrest (by rwa [List.getElem?_drop])
    (by rwa [List.getElem?_drop])⟩

end Fold

/-- Starts at least a tick apart have rising ToA tick counts (R151). -/
theorem ceil_ticks_lt {c : Cfg} {t t' : Rat} (hf : 0 < c.fSys) (h : t + 1 / c.fSys ≤ t') :
    ⌈(t - c.epoch) * c.fSys⌉ < ⌈(t' - c.epoch) * c.fSys⌉ := by
  have hstep : (t - c.epoch) * c.fSys + 1 ≤ (t' - c.epoch) * c.fSys := by
    calc (t - c.epoch) * c.fSys + 1 = (t + 1 / c.fSys - c.epoch) * c.fSys := by field_simp; ring
      _ ≤ (t' - c.epoch) * c.fSys := by gcongr
  rw [← Int.add_one_le_iff, ← Int.ceil_add_one]
  exact Int.ceil_mono hstep

/-- ACCEPT_SEQ answers outcomes exactly when its fold does (R185). -/
theorem exec_acceptSeq_eq_verdicts {s : State} {code : ModeCode} {m : Mode} {ps : List Pulse} {vs : List Verdict}
    (hm : checkMode admitsAny code = .ok m) :
    exec (.acceptSeq code ps) s = .next { s with result := .verdicts vs } ↔
      acceptFold s.cfg m PixRec.init ps = .ok vs := by
  rw [exec_acceptSeq, execAcceptSeq, hm]
  cases hfold : acceptFold s.cfg m PixRec.init ps with
  | ok ws => simp [hfold]
  | error e => simp [hfold]

/-! The obligations. -/

/-- Settles O30: the configuration is R181's, and the emptied pixel space reads as initial at every address. -/
theorem acqStartWritesCfgAndResetsEveryPixel : Obligations.AcqStartWritesCfgAndResetsEveryPixel := by
  refine ⟨fun s code m fSys fFine epoch hcode hs hfine => ⟨[], ?_, pixSpace_read_nil⟩,
    fun s fSys fFine epoch => exec_acqStart_of_error (acqConfig_reserved epoch fSys fFine) s,
    fun s code f fFine epoch hcode hs => ?_, fun s code fSys f epoch hcode hs hfine => ?_⟩
  · exact exec_acqStart_of_config (acqConfig_ok epoch (checkMode_acceptor hcode) hs hfine) s
  · obtain ⟨m, hm⟩ := exists_checkMode_of_ne_reserved hcode
    exact exec_acqStart_of_error (acqConfig_bad_fSys epoch hm hs fFine) s
  · obtain ⟨m, hm⟩ := exists_checkMode_of_ne_reserved hcode
    exact exec_acqStart_of_error (acqConfig_bad_fFine epoch hm hs hfine) s

/-- Settles O31: the three outcomes of the acceptor's step, with its tick count read as the pulse's edges. -/
theorem acceptTestsWidthThenDeadTime : Obligations.AcceptTestsWidthThenDeadTime := by
  intro s m a k start stop hf hm ha h h' hlast hk
  have hticks : totTicks s.cfg start stop = k := Nat.cast_injective ((totTicks_eq_edges hf h h').trans hk)
  have htot : accTot s.cfg start stop = min k 1022 := by rw [accTot_eq, hticks]
  split_ifs with hzero hdead
  · exact exec_accept_within hm ha h h' hlast (acceptStep_eq_rejectWidth (by omega))
  · exact exec_accept_within hm ha h h' hlast (acceptStep_eq_rejectDead (by omega) hdead)
  · rw [← htot]
    exact exec_accept_within hm ha h h' hlast (acceptStep_eq_accept (by omega) hdead)

/-- Settles O37: the later pulse starts after the earlier one's window, which is at least 4 ticks long. -/
theorem acceptedPulsesAreDeadTimeApart : Obligations.AcceptedPulsesAreDeadTimeApart := by
  intro s code m ps vs hf hcode hexec i j p q hij hp hq hvp hvq
  have hfold := (exec_acceptSeq_eq_verdicts (checkMode_acceptor hcode)).1 hexec
  obtain ⟨hepoch, hpulse, hwidth, hspace⟩ := accepted_spacing hf hfold hij hp hq hvp hvq
  have hdead := deadTime_ge m hf hwidth
  have hfour : p.start + 4 / s.cfg.fSys ≤ q.start := by linarith
  have hone : (1 : Rat) / s.cfg.fSys ≤ 4 / s.cfg.fSys := by gcongr; norm_num
  refine ⟨accTot s.cfg p.start p.stop, hwidth, ?_, hspace, hfour, ceil_ticks_lt hf (by linarith)⟩
  rw [accTot_eq, ← totTicks_eq_edges hf hepoch hpulse]
  exact Nat.cast_min _ _

end Sys2Proof.Proofs.Acceptor
end

section
/-! PROOFS. The packet (44_packet.md sections 1, 2): what assembly, disassembly, hit encoding, hit decoding and the
byte port answer, and the two laws of R207. -/

namespace Sys2Proof.Proofs.Packet

open Sys2Proof.Machine Sys2Proof.Laws Sys2Proof.Proofs.Address Sys2Proof.Proofs.Counters Sys2Proof.Proofs.Time

/-! The operations of this file, each as its arm. -/

theorem exec_pktAsm (a toa sec ftoa : Int) (s : State) :
    exec (.pktAsm a toa sec ftoa) s = execPktAsm a toa sec ftoa s := rfl
theorem exec_pktDis (w : Int) (s : State) : exec (.pktDis w) s = execPktDis w s := rfl
theorem exec_hitEnc (a : Int) (start stop : Rat) (code : ModeCode) (s : State) :
    exec (.hitEnc a start stop code) s = execHitEnc a start stop code s := rfl
theorem exec_hitDec (w : Int) (code : ModeCode) (wt wd : Bool) (s : State) :
    exec (.hitDec w code wt wd) s = execHitDec w code wt wd s := rfl
theorem exec_pktSer (w : Int) (s : State) : exec (.pktSer w) s = execPktSer w s := rfl
theorem exec_pktDes (b0 b1 b2 b3 b4 b5 : Int) (s : State) :
    exec (.pktDes b0 b1 b2 b3 b4 b5) s = execPktDes b0 b1 b2 b3 b4 b5 s := rfl
theorem exec_streamSplit (bs : List Int) (s : State) : exec (.streamSplit bs) s = execStreamSplit bs s := rfl

/-! PKT_ASM (R200): its value, and its refusals in field order. -/

theorem exec_pktAsm_of_word {a toa sec ftoa : Int} {w : Nat} (h : assemble a toa sec ftoa = .ok w) (s : State) :
    exec (.pktAsm a toa sec ftoa) s = .next { s with result := .word w } := by
  simp [exec_pktAsm, execPktAsm, h]

theorem exec_pktAsm_of_error {a toa sec ftoa : Int} {e : HardError} (h : assemble a toa sec ftoa = .error e)
    (s : State) : exec (.pktAsm a toa sec ftoa) s = .next { s with result := .error e } := by
  simp [exec_pktAsm, execPktAsm, h]

theorem assemble_address_outside {a : Int} (ha : a < 0 ∨ 65535 < a) (toa sec ftoa : Int) :
    assemble a toa sec ftoa = .error (.range .address (.int a)) := by
  simp [assemble, checkMax_outside .address (hi := 65535) ha]

section Assembly

variable {a : Nat} (ha : a ≤ 65535)
include ha

theorem assemble_toa_outside {toa : Int} (hg : toa < 0 ∨ 16383 < toa) (sec ftoa : Int) :
    assemble a toa sec ftoa = .error (.range .toa (.int toa)) := by
  simp [assemble, checkMax_natCast .address ha, checkMax_outside .toa (hi := 16383) hg]

variable {toa : Nat} (hg : toa ≤ 16383)
include hg

theorem assemble_secondary_outside {sec : Int} (hs : sec < 0 ∨ 1023 < sec) (ftoa : Int) :
    assemble a toa sec ftoa = .error (.range .secondary (.int sec)) := by
  simp [assemble, checkMax_natCast .address ha, checkMax_natCast .toa hg,
    checkMax_outside .secondary (hi := 1023) hs]

theorem assemble_ftoa_outside {sec : Nat} (hs : sec ≤ 1023) {ftoa : Int} (hf : ftoa < 0 ∨ 15 < ftoa) :
    assemble a toa sec ftoa = .error (.range .ftoa (.int ftoa)) := by
  simp [assemble, checkMax_natCast .address ha, checkMax_natCast .toa hg, checkMax_natCast .secondary hs,
    checkMax_outside .ftoa (hi := 15) hf]

end Assembly

/-! PKT_DIS (R201). -/

theorem exec_pktDis_of_fields {w : Int} {f : Fields} {s : State} (h : disassemble s.par.headerCheck w = .ok f) :
    exec (.pktDis w) s = .next { s with result := .packet f.address f.toa f.secondary f.ftoa } := by
  simp [exec_pktDis, execPktDis, h]

theorem exec_pktDis_eq_error {w : Int} {e : HardError} {s : State} :
    exec (.pktDis w) s = .next { s with result := .error e } ↔ disassemble s.par.headerCheck w = .error e := by
  cases h : disassemble s.par.headerCheck w with
  | ok f => simp [exec_pktDis_of_fields h]
  | error e' => simp [exec_pktDis, execPktDis, h]

/-- The slices of R72 as quotients and remainders. -/
theorem fieldsOf_eq (w : Nat) :
    fieldsOf w = ⟨w / 2 ^ 28 % 2 ^ 16, w / 2 ^ 14 % 2 ^ 14, w / 2 ^ 4 % 2 ^ 10, w % 2 ^ 4⟩ := by
  simp [fieldsOf, slice_eq]

theorem fieldsOf_le (w : Nat) : (fieldsOf w).address ≤ 65535 ∧ (fieldsOf w).toa ≤ 16383 ∧
    (fieldsOf w).secondary ≤ 1023 ∧ (fieldsOf w).ftoa ≤ 15 := by
  rw [fieldsOf_eq]; dsimp only; omega

/-! HIT_ENC (R202): the packet of an address and of the fields of R157. -/

theorem totOf_le (c : Cfg) (start stop : Rat) : totOf c start stop ≤ 1023 := by
  rw [totOf, lfsrEnc_totSpec]
  exact Nat.le_of_lt_succ (totRegister_lt _)

/-- All that the time conversion of a hit can answer. -/
theorem timeToValues_eq_ok {c : Cfg} {r : FineRounding} {m : Mode} {start stop : Rat} {v : Nat × Nat × Nat} :
    timeToValues c r m start stop = .ok v ↔
      (c.epoch ≤ start ∧ start ≤ stop) ∧ ⌈(start - c.epoch) * c.fSys⌉ ≤ 16383 ∧
        v = (bin2gray (toaTicks c start), ftoaOf c r start, totInMode c m start stop) := by
  simp only [timeToValues, bind_eq_ok, except_pure, Except.ok.injEq, timeToToa_eq_ok]
  constructor
  · rintro ⟨⟨⟩, hpulse, _, ⟨-, hspan, rfl⟩, rfl⟩
    exact ⟨checkPulse_eq_ok.1 hpulse, hspan, rfl⟩
  · rintro ⟨hpulse, hspan, rfl⟩
    exact ⟨(), checkPulse_eq_ok.2 hpulse, _, ⟨hpulse.1, hspan, rfl⟩, rfl⟩

/-- The packet of a pulse of pixel `a` (R202). -/
def pulsePacket (c : Cfg) (p : Params) (m : Mode) (a : Nat) (start stop : Rat) : Nat :=
  packetWord a (bin2gray (toaTicks c start)) (secondaryOf p m (totOf c start stop)) (ftoaOf c p.ftoaCount start)

theorem secondaryOf_totInMode (c : Cfg) (p : Params) (m : Mode) (start stop : Rat) :
    secondaryOf p m (totInMode c m start stop) = secondaryOf p m (totOf c start stop) := by
  rw [totInMode, secondaryOf, secondaryOf]
  split <;> rfl

theorem secondaryOf_totOf_le (c : Cfg) (p : Params) (m : Mode) (start stop : Rat) :
    secondaryOf p m (totOf c start stop) ≤ 1023 := by
  rw [secondaryOf]
  split
  · exact totOf_le c start stop
  · exact Nat.le_of_lt_succ p.dummySecondary.isLt

section Encoding

variable {c : Cfg} {p : Params} {m : Mode} {a : Nat} {start stop : Rat}

/-- The fields of a hit in the ToA range fit their widths (R71). -/
theorem pulsePacket_fields (hspan : ⌈(start - c.epoch) * c.fSys⌉ ≤ 16383) :
    bin2gray (toaTicks c start) ≤ 16383 ∧ secondaryOf p m (totOf c start stop) ≤ 1023 ∧
      ftoaOf c p.ftoaCount start ≤ 15 :=
  ⟨bin2gray_le (toaTicks_le hspan), secondaryOf_totOf_le c p m start stop, ftoaOf_le c p.ftoaCount start⟩

theorem encodeHit_ok (ha : a ≤ 65535) (h : c.epoch ≤ start) (h' : start ≤ stop)
    (hspan : ⌈(start - c.epoch) * c.fSys⌉ ≤ 16383) :
    encodeHit c p m a start stop = .ok (pulsePacket c p m a start stop) := by
  obtain ⟨htoa, hsec, hftoa⟩ := pulsePacket_fields (p := p) (m := m) (stop := stop) hspan
  simp [encodeHit, checkMax_natCast .address ha, timeToValues_eq_ok.2 ⟨⟨h, h'⟩, hspan, rfl⟩,
    secondaryOf_totInMode, assemble_ok ha htoa hsec hftoa, pulsePacket]

theorem encodeHit_bad_address {a : Int} (ha : a < 0 ∨ 65535 < a) (start stop : Rat) :
    encodeHit c p m a start stop = .error (.range .address (.int a)) := by
  simp [encodeHit, checkMax_outside .address (hi := 65535) ha]

theorem encodeHit_bad_values (ha : a ≤ 65535) {e : HardError}
    (h : timeToValues c p.ftoaCount m start stop = .error e) : encodeHit c p m a start stop = .error e := by
  simp [encodeHit, checkMax_natCast .address ha, h]

/-- All that encoding a hit can answer. -/
theorem encodeHit_eq_ok {w : Nat} : encodeHit c p m a start stop = .ok w ↔
    a ≤ 65535 ∧ (c.epoch ≤ start ∧ start ≤ stop) ∧ ⌈(start - c.epoch) * c.fSys⌉ ≤ 16383 ∧
      w = pulsePacket c p m a start stop := by
  constructor
  · intro hw
    obtain ⟨n, hn, hrest⟩ := bind_eq_ok.1 hw
    obtain ⟨v, hv, -⟩ := bind_eq_ok.1 hrest
    obtain ⟨hcast, hle⟩ := checkMax_eq_ok.1 hn
    obtain ⟨hpulse, hspan, -⟩ := timeToValues_eq_ok.1 hv
    have ha : a ≤ 65535 := by omega
    rw [encodeHit_ok ha hpulse.1 hpulse.2 hspan, Except.ok.injEq] at hw
    exact ⟨ha, hpulse, hspan, hw.symm⟩
  · rintro ⟨ha, ⟨h, h'⟩, hspan, rfl⟩
    exact encodeHit_ok ha h h' hspan

end Encoding

section HitEnc

variable {code : ModeCode} (hm : code = 0#2 ∨ code = 1#2) {a : Int} {start stop : Rat} {s : State}
include hm

theorem exec_hitEnc_of_word {w : Nat} (h : encodeHit s.cfg s.par (packetMode code) a start stop = .ok w) :
    exec (.hitEnc a start stop code) s = .next { s with result := .word w } := by
  simp [exec_hitEnc, execHitEnc, checkMode_packet hm, h]

theorem exec_hitEnc_of_error {e : HardError}
    (h : encodeHit s.cfg s.par (packetMode code) a start stop = .error e) :
    exec (.hitEnc a start stop code) s = .next { s with result := .error e } := by
  simp [exec_hitEnc, execHitEnc, checkMode_packet hm, h]

theorem exec_t2val_eq_error {e : HardError} :
    exec (.t2val start stop code) s = .next { s with result := .error e } ↔
      timeToValues s.cfg s.par.ftoaCount (packetMode code) start stop = .error e := by
  cases h : timeToValues s.cfg s.par.ftoaCount (packetMode code) start stop with
  | ok v => simp [exec_t2val_of_values hm h]
  | error e' => simp [exec_t2val_of_error hm h]

end HitEnc

theorem exec_hitEnc_mode_refused {code : ModeCode} (h : code = 2#2 ∨ code = 3#2) (a : Int) (start stop : Rat)
    (s : State) :
    exec (.hitEnc a start stop code) s = .next { s with result := .error (.range .mode (.code code)) } := by
  simp [exec_hitEnc, execHitEnc, checkMode_packet_refused h]

/-! HIT_DEC (R203). -/

theorem decodeHit_of_fields {p : Params} {w : Int} {f : Fields} (h : disassemble p.headerCheck w = .ok f)
    (c : Cfg) (m : Mode) (wt wd : Bool) : decodeHit c p m wt wd w = .ok (recordOf c m wt wd f) := by
  simp [decodeHit, h]

theorem decodeHit_of_error {p : Params} {w : Int} {e : HardError} (h : disassemble p.headerCheck w = .error e)
    (c : Cfg) (m : Mode) (wt wd : Bool) : decodeHit c p m wt wd w = .error e := by
  simp [decodeHit, h]

section HitDec

variable {code : ModeCode} (hm : code = 0#2 ∨ code = 1#2) {w : Int} {wt wd : Bool} {s : State}
include hm

theorem exec_hitDec_eq_hit {r : HitRecord} :
    exec (.hitDec w code wt wd) s = .next { s with result := .hit r } ↔
      decodeHit s.cfg s.par (packetMode code) wt wd w = .ok r := by
  cases h : decodeHit s.cfg s.par (packetMode code) wt wd w <;>
    simp [exec_hitDec, execHitDec, checkMode_packet hm, h]

theorem exec_hitDec_eq_error {e : HardError} :
    exec (.hitDec w code wt wd) s = .next { s with result := .error e } ↔
      decodeHit s.cfg s.par (packetMode code) wt wd w = .error e := by
  cases h : decodeHit s.cfg s.par (packetMode code) wt wd w <;>
    simp [exec_hitDec, execHitDec, checkMode_packet hm, h]

end HitDec

theorem exec_hitDec_mode_refused {code : ModeCode} (h : code = 2#2 ∨ code = 3#2) (w : Int) (wt wd : Bool)
    (s : State) :
    exec (.hitDec w code wt wd) s = .next { s with result := .error (.range .mode (.code code)) } := by
  simp [exec_hitDec, execHitDec, checkMode_packet_refused h]

theorem ftoaTime_eq (c : Cfg) (f toa : Nat) :
    ftoaTime c f toa = (gray2bin toa : Rat) / c.fSys + c.epoch - (f : Rat) / c.fFine := by
  simp [ftoaTime, toaTime, satDec, Cfg.tSys, Cfg.tFine, div_eq_mul_inv]

theorem packetMode_eq_toaAndTot {code : ModeCode} : packetMode code = .toaAndTot ↔ code = 0#2 := by
  rw [packetMode]; split <;> simp_all

/-- A record in the terms of R203: the ToT decode counts in `ToaAndTot` alone. -/
theorem recordOf_packetMode (c : Cfg) (code : ModeCode) (wt wd : Bool) (f : Fields) :
    recordOf c (packetMode code) wt wd f =
      { x := (coordinateOf f.address).1
        y := (coordinateOf f.address).2
        toa := if wd = true then gray2bin f.toa else f.toa
        secondary := if wd = true ∧ code = 0#2 then (lfsrDec totSpec f.secondary).count else f.secondary
        ftoa := f.ftoa
        start := if wt = true then some (ftoaTime c f.ftoa f.toa) else none
        stop := if wt = true ∧ code = 0#2 then
          some (ftoaTime c f.ftoa f.toa + ((lfsrDec totSpec f.secondary).count : Rat) / c.fSys) else none
        ambiguous := decide (code = 0#2) && (lfsrDec totSpec f.secondary).ambiguous } := by
  by_cases h : code = 0#2 <;> simp [recordOf, packetMode, h, satDec, Decoded.found]

/-! PKT_SER (R204). -/

theorem beBytes_six_eq (w : Nat) : beBytes 6 w = [BitVec.ofNat 8 (w / 2 ^ 40), BitVec.ofNat 8 (w / 2 ^ 32),
    BitVec.ofNat 8 (w / 2 ^ 24), BitVec.ofNat 8 (w / 2 ^ 16), BitVec.ofNat 8 (w / 2 ^ 8), BitVec.ofNat 8 w] := by
  have inj : Function.Injective (List.map (BitVec.toNat : Byte → Nat)) :=
    List.map_injective_iff.2 fun _ _ h => BitVec.eq_of_toNat_eq h
  exact inj (beBytes_six w)

theorem exec_pktSer_within {w : Nat} (hw : w < 2 ^ 48) (s : State) :
    exec (.pktSer w) s = .next (s.emit [w]) := by
  rw [exec_pktSer, execPktSer, checkMax_natCast .word (by omega)]; rfl

theorem exec_pktSer_outside {w : Int} (hw : w < 0 ∨ 2 ^ 48 ≤ w) (s : State) :
    exec (.pktSer w) s = .next { s with result := .error (.range .word (.int w)) } := by
  rw [exec_pktSer, execPktSer, checkMax_outside .word (by norm_num; omega)]; rfl

/-! PKT_DES (R205): the word of a record, or its first entry that is no byte. -/

theorem beNat_six_eq_sum {b : Nat → Nat} (h : ∀ j < 6, b j ≤ 255) :
    beNat ((List.range 6).map b) = ∑ j ∈ Finset.range 6, b j * 2 ^ (40 - 8 * j) := by
  have hlt : ∀ j < 6, b j < 256 := fun j hj => Nat.lt_succ_of_le (h j hj)
  have hlist : (List.range 6).map b = [b 0, b 1, b 2, b 3, b 4, b 5] := rfl
  rw [hlist, beNat_six (hlt 1 (by omega)) (hlt 2 (by omega)) (hlt 3 (by omega)) (hlt 4 (by omega))
    (hlt 5 (by omega))]
  simp [Finset.sum_range_succ]

theorem deserialise_ok {l : List Nat} (h : ∀ b ∈ l, b ≤ 255) : deserialise (l.map Int.ofNat) = .ok (beNat l) := by
  rw [deserialise, checkBytes_ok 0 h]; rfl

theorem deserialise_first_bad {l : List Int} {k : Nat} {v : Int} (hk : l[k]? = some v)
    (hl : ∀ i < k, ∀ b, l[i]? = some b → 0 ≤ b ∧ b ≤ 255) (hv : v < 0 ∨ 255 < v) :
    deserialise l = .error (.range (.byte k) (.int v)) := by
  rw [deserialise, checkBytes_first_bad 0 hk hl hv, Nat.zero_add]; rfl

theorem exec_pktDes_of_word {b0 b1 b2 b3 b4 b5 : Int} {w : Nat}
    (h : deserialise [b0, b1, b2, b3, b4, b5] = .ok w) (s : State) :
    exec (.pktDes b0 b1 b2 b3 b4 b5) s = .next { s with result := .word w } := by
  simp [exec_pktDes, execPktDes, h]

theorem exec_pktDes_of_error {b0 b1 b2 b3 b4 b5 : Int} {e : HardError}
    (h : deserialise [b0, b1, b2, b3, b4, b5] = .error e) (s : State) :
    exec (.pktDes b0 b1 b2 b3 b4 b5) s = .next { s with result := .error e } := by
  simp [exec_pktDes, execPktDes, h]

/-! STREAM_SPLIT (R206): the records of a stream. -/

theorem memRead_getElem? (bs : List Int) (off n i : Nat) :
    (memRead bs off n)[i]? = if i < n then bs[off + i]? else none := by
  rw [memRead, List.getElem?_take]
  simp

/-- A whole record, entry by entry (R55). -/
theorem memRead_ofNat {bs : List Nat} {off n : Nat} (h : off + n ≤ bs.length) :
    memRead (bs.map Int.ofNat) off n = ((List.range n).map fun j => bs.getD (off + j) 0).map Int.ofNat := by
  refine List.ext_getElem? fun i => ?_
  rw [memRead_getElem?]
  split
  next hi =>
    have hlt : off + i < bs.length := by omega
    simp [hi, hlt]
  next hi => simp [hi]

/-- A stream splits into words when each of its records deserialises to its word. -/
theorem splitStream_of_records {bytes : List Int} {ws : List Nat} (hlen : bytes.length = 6 * ws.length)
    (h : ∀ i (hi : i < ws.length), deserialise (memRead bytes (6 * i) 6) = .ok ws[i]) :
    splitStream bytes = .ok ws := by
  have hcount : bytes.length / 6 = ws.length := by omega
  rw [splitStream, if_neg (by omega), hcount, mapUntilError_eq_ok, List.forall₂_iff_get]
  exact ⟨by simp, fun i _ hi => by simpa using h i hi⟩

theorem splitStream_malformed {bytes : List Int} (h : bytes.length % 6 ≠ 0) :
    splitStream bytes = .error (.malformedFile bytes.length) := by
  rw [splitStream, if_pos h]

/-- The word of record `i` of a stream of bytes (R55, R205). -/
def recordWord (bs : List Nat) (i : Nat) : Nat := ∑ j ∈ Finset.range 6, bs.getD (6 * i + j) 0 * 2 ^ (40 - 8 * j)

section Bytes

variable {bs : List Nat} (hbs : ∀ b ∈ bs, b ≤ 255)
include hbs

theorem getD_le (i : Nat) : bs.getD i 0 ≤ 255 := by
  rw [List.getD_eq_getElem?_getD]
  cases h : bs[i]? with
  | none => simp
  | some b => exact hbs b (List.mem_of_getElem? h)

theorem splitStream_bytes (hlen : bs.length % 6 = 0) :
    splitStream (bs.map Int.ofNat) = .ok ((List.range (bs.length / 6)).map (recordWord bs)) := by
  refine splitStream_of_records (by simp; omega) fun i hi => ?_
  have hi' : i < bs.length / 6 := by simpa using hi
  have hbytes : ∀ b ∈ (List.range 6).map fun j => bs.getD (6 * i + j) 0, b ≤ 255 := by
    intro b hb
    obtain ⟨j, -, rfl⟩ := List.mem_map.1 hb
    exact getD_le hbs _
  rw [memRead_ofNat (by omega), deserialise_ok hbytes, beNat_six_eq_sum fun j _ => getD_le hbs _]
  simp [recordWord]

end Bytes

theorem exists_deserialise_ok {l : List Int} (h : ∀ b ∈ l, 0 ≤ b ∧ b ≤ 255) : ∃ w, deserialise l = .ok w := by
  have hcast : (l.map Int.toNat).map Int.ofNat = l := by
    rw [List.map_map]
    exact (List.map_congr_left fun b hb => Int.toNat_of_nonneg (h b hb).1).trans (List.map_id l)
  refine ⟨beNat (l.map Int.toNat), ?_⟩
  rw [← deserialise_ok, hcast]
  intro b hb
  obtain ⟨x, hx, rfl⟩ := List.mem_map.1 hb
  have := h x hx; omega

/-- Over a range, the first index that fails gives the error (R245). -/
theorem mapUntilError_range_eq_error {β : Type} {f : Nat → Except HardError β} {n q : Nat} {e : HardError}
    (hq : q < n) (hpre : ∀ i < q, ∃ b, f i = .ok b) (he : f q = .error e) :
    mapUntilError f (List.range n) = .error e := by
  refine mapUntilError_eq_error.2 ⟨List.range q, q, (List.range n).drop (q + 1), ?_,
    fun i hi => hpre i (List.mem_range.1 hi), he⟩
  have hsplit := (List.take_append_drop q (List.range n)).symm
  rwa [List.take_range, min_eq_left hq.le, List.drop_eq_getElem_cons (by simpa using hq),
    List.getElem_range] at hsplit

/-- The first entry of a stream that is no byte is refused by its place in its record (R245). -/
theorem splitStream_first_bad {bs : List Int} {k : Nat} {v : Int} (hlen : bs.length % 6 = 0) (hk : bs[k]? = some v)
    (hl : ∀ i < k, ∀ b, bs[i]? = some b → 0 ≤ b ∧ b ≤ 255) (hv : v < 0 ∨ 255 < v) :
    splitStream bs = .error (.range (.byte (k % 6)) (.int v)) := by
  have hklt : k < bs.length := (List.getElem?_eq_some_iff.1 hk).1
  have hrecord : ∀ (i j : Nat) (b : Int), (memRead bs (6 * i) 6)[j]? = some b → j < 6 ∧ bs[6 * i + j]? = some b := by
    intro i j b hb
    rwa [memRead_getElem?, Option.ite_none_right_eq_some] at hb
  rw [splitStream, if_neg (by omega)]
  refine mapUntilError_range_eq_error (q := k / 6) (by omega) (fun i hi => exists_deserialise_ok fun b hb => ?_)
    (deserialise_first_bad ?_ (fun j hj b hb => ?_) hv)
  · obtain ⟨j, hj⟩ := List.mem_iff_getElem?.1 hb
    obtain ⟨hlt, hget⟩ := hrecord i j b hj
    exact hl _ (by omega) b hget
  · rw [memRead_getElem?, if_pos (by omega), Nat.div_add_mod, hk]
  · obtain ⟨-, hget⟩ := hrecord _ j b hb
    exact hl _ (by omega) b hget

section StreamSplit

variable {bs : List Int} {s : State}

theorem exec_streamSplit_eq_words {ws : List Nat} :
    exec (.streamSplit bs) s = .next { s with result := .words ws } ↔ splitStream bs = .ok ws := by
  cases h : splitStream bs <;> simp [exec_streamSplit, execStreamSplit, h]

theorem exec_streamSplit_eq_error {e : HardError} :
    exec (.streamSplit bs) s = .next { s with result := .error e } ↔ splitStream bs = .error e := by
  cases h : splitStream bs <;> simp [exec_streamSplit, execStreamSplit, h]

end StreamSplit

/-! The obligations. -/

/-- Settles O38: R200's value is the assembled word, and each refusal follows the checks before it. -/
theorem packetAssemblyPlacesTheFields : Obligations.PacketAssemblyPlacesTheFields := by
  refine ⟨fun s a toa sec ftoa ha hg hs hf => ?_,
    fun s a toa sec ftoa ha => exec_pktAsm_of_error (assemble_address_outside ha toa sec ftoa) s,
    fun s a toa sec ftoa ha hg => exec_pktAsm_of_error (assemble_toa_outside ha hg sec ftoa) s,
    fun s a toa sec ftoa ha hg hs => exec_pktAsm_of_error (assemble_secondary_outside ha hg hs ftoa) s,
    fun s a toa sec ftoa ha hg hs hf => exec_pktAsm_of_error (assemble_ftoa_outside ha hg hs hf) s⟩
  rw [exec_pktAsm_of_word (assemble_ok ha hg hs hf), packetWord_eq (by omega) (by omega) (by omega) (by omega)]

/-- Settles O40: the slices of an assembled word are its fields, and the slices of a word with header 1010 assemble
to the word. -/
theorem packetRoundTrips : Obligations.PacketRoundTrips := by
  constructor
  · intro s a toa sec ftoa ha hg hs hf
    obtain ⟨hlt, hheader, hfields⟩ := packetWord_parts (a := a) (g := toa) (sec := sec) (f := ftoa) (by omega)
      (by omega) (by omega) (by omega)
    refine ⟨packetWord a toa sec ftoa, exec_pktAsm_of_word (assemble_ok ha hg hs hf) s, ?_⟩
    rw [exec_pktDis_of_fields (disassemble_ok hlt (.inl hheader)), hfields]
  · intro s w hlt hheader
    obtain ⟨ha, hg, hs, hf⟩ := fieldsOf_le w
    refine ⟨_, _, _, _, exec_pktDis_of_fields (disassemble_ok hlt (.inl hheader)), ?_⟩
    have hword : packetWord (fieldsOf w).address (fieldsOf w).toa (fieldsOf w).secondary (fieldsOf w).ftoa = w :=
      packetWord_slices hheader
    rw [exec_pktAsm_of_word (assemble_ok ha hg hs hf), hword]

/-- Settles O41: HIT_ENC assembles what T2VAL's function answers, after its mode and address checks. -/
theorem hitEncodingAssemblesTheTimeFields : Obligations.HitEncodingAssemblesTheTimeFields := by
  refine ⟨fun s a start stop code hm ha h h' hspan => ?_,
    fun s a start stop code hm => exec_hitEnc_mode_refused hm a start stop s,
    fun s a start stop code hm ha => exec_hitEnc_of_error hm (encodeHit_bad_address ha start stop),
    fun s a start stop code e hm ha he =>
      exec_hitEnc_of_error hm (encodeHit_bad_values ha ((exec_t2val_eq_error hm).1 he))⟩
  refine ⟨_, _, _, exec_t2val_of_values hm (timeToValues_eq_ok.2 ⟨⟨h, h'⟩, hspan, rfl⟩), ?_⟩
  obtain ⟨htoa, hsec, hftoa⟩ := pulsePacket_fields (p := s.par) (m := packetMode code) (stop := stop) hspan
  rw [exec_hitEnc_of_word hm (encodeHit_ok ha h h' hspan), pulsePacket,
    packetWord_eq (by omega) (by omega) (by omega) (by omega), ← secondaryOf_totInMode]
  simp only [secondaryOf, packetMode_eq_toaAndTot]

/-- Settles O42: HIT_DEC takes the word apart as PKT_DIS does and decodes each field as its own operation does. -/
theorem hitDecodingRecoversTheRecord : Obligations.HitDecodingRecoversTheRecord := by
  refine ⟨fun s w code wt wd hm hw hheader => ?_, fun s w code wt wd hm => exec_hitDec_mode_refused hm w wt wd s,
    fun s w code wt wd e hm he =>
      (exec_hitDec_eq_error hm).2 (decodeHit_of_error (exec_pktDis_eq_error.1 he) _ _ wt wd)⟩
  have hfields := disassemble_ok hw hheader
  obtain ⟨ha, hg, hs, -⟩ := fieldsOf_le w
  refine ⟨_, _, _, _, _, _, _, _, _, exec_pktDis_of_fields hfields, exec_addrDec_within ha s,
    exec_decToa_within hg s, decodeOpMarked_tenBit (.inl rfl) s (Nat.lt_succ_of_le hs), ?_⟩
  rw [(exec_hitDec_eq_hit hm).2 (decodeHit_of_fields hfields s.cfg (packetMode code) wt wd), recordOf_packetMode,
    ftoaTime_eq]

/-- Settles O43: the bytes emitted for one word are its big-endian image. -/
theorem packetSerialisesBigEndian : Obligations.PacketSerialisesBigEndian := by
  refine ⟨fun s w hw => ⟨writeRecords [] 0 [w], ?_⟩, fun s w hw => exec_pktSer_outside hw s⟩
  rw [exec_pktSer_within hw, State.emit, List.flatMap_singleton, beBytes_six_eq]

/-- Settles O44: R205's sum for six bytes, and the first operand that is no byte. -/
theorem packetDeserialisesBigEndian : Obligations.PacketDeserialisesBigEndian := by
  refine ⟨fun s b h => exec_pktDes_of_word ?_ s, fun s b j hj hbefore hbad => exec_pktDes_of_error ?_ s⟩
  · rw [← beNat_six_eq_sum h]
    refine deserialise_ok (l := (List.range 6).map b) fun x hx => ?_
    obtain ⟨j, hj, rfl⟩ := List.mem_map.1 hx
    exact h j (List.mem_range.1 hj)
  · have hget : ∀ i < 6, ((List.range 6).map b)[i]? = some (b i) := fun i hi => by simp [hi]
    refine deserialise_first_bad (l := (List.range 6).map b) (hget j hj) (fun i hi x hx => ?_) hbad
    obtain rfl : b i = x := by simpa [hget i (hi.trans hj)] using hx
    exact hbefore i hi

/-- Settles O47: each record deserialises to its word; the length is checked first, then the bytes in order. -/
theorem streamSplitsIntoRecords : Obligations.StreamSplitsIntoRecords :=
  ⟨fun _ _ hlen hbs => exec_streamSplit_eq_words.2 (splitStream_bytes hbs hlen),
    fun _ _ hlen => exec_streamSplit_eq_error.2 (splitStream_malformed hlen),
    fun _ _ _ _ hlen hk hl hv => exec_streamSplit_eq_error.2 (splitStream_first_bad hlen hk hl hv)⟩

end Sys2Proof.Proofs.Packet
end

section
/-! PROOFS. The stream (44_packet.md section 3): DEC_STREAM as HIT_DEC over the words of STREAM_SPLIT, the packets
that ENC_STREAM merges, and the round trip of R222. -/

namespace Sys2Proof.Proofs.Stream

open Sys2Proof.Machine Sys2Proof.Laws Sys2Proof.Proofs.Address Sys2Proof.Proofs.Time Sys2Proof.Proofs.Packet

/-! The operations of this file, each as its arm. -/

theorem exec_encStream (hits : List Hit) (code : ModeCode) (s : State) :
    exec (.encStream hits code) s = execEncStream hits code s := rfl
theorem exec_decStream (bs : List Int) (code : ModeCode) (wt wd : Bool) (s : State) :
    exec (.decStream bs code wt wd) s = execDecStream bs code wt wd s := rfl

/-- The two packet modes, each under its code (R23, R24). -/
theorem packetMode_of_code {code : ModeCode} {m : Mode}
    (h : (code = 0#2 ∧ m = .toaAndTot) ∨ (code = 1#2 ∧ m = .toaOnly)) :
    (code = 0#2 ∨ code = 1#2) ∧ packetMode code = m := by
  obtain ⟨rfl, rfl⟩ | ⟨rfl, rfl⟩ := h
  · exact ⟨.inl rfl, rfl⟩
  · exact ⟨.inr rfl, rfl⟩

/-! DEC_STREAM (R221): split whole, then decoded word by word. -/

theorem exec_decStream_mode_refused {code : ModeCode} (h : code = 2#2 ∨ code = 3#2) (bs : List Int) (wt wd : Bool)
    (s : State) :
    exec (.decStream bs code wt wd) s = .next { s with result := .error (.range .mode (.code code)) } := by
  simp [exec_decStream, execDecStream, checkMode_packet_refused h]

section DecStream

variable {code : ModeCode} (hm : code = 0#2 ∨ code = 1#2) {bs : List Int} {ws : List Nat} {wt wd : Bool} {s : State}
  {e : HardError}
include hm

theorem exec_decStream_of_split_error (h : splitStream bs = .error e) :
    exec (.decStream bs code wt wd) s = .next { s with result := .error e } := by
  simp [exec_decStream, execDecStream, checkMode_packet hm, h]

theorem exec_decStream_of_records (h : splitStream bs = .ok ws) {rs : List HitRecord}
    (hrs : List.Forall₂ (fun (w : Nat) r => decodeHit s.cfg s.par (packetMode code) wt wd w = .ok r) ws rs) :
    exec (.decStream bs code wt wd) s = .next { s with result := .hits rs } := by
  have hmap : mapUntilError (fun w : Nat => decodeHit s.cfg s.par (packetMode code) wt wd w) ws = .ok rs :=
    mapUntilError_eq_ok.2 hrs
  simp [exec_decStream, execDecStream, checkMode_packet hm, h, hmap]

theorem exec_decStream_of_decode_error (h : splitStream bs = .ok ws)
    (he : mapUntilError (fun w : Nat => decodeHit s.cfg s.par (packetMode code) wt wd w) ws = .error e) :
    exec (.decStream bs code wt wd) s = .next { s with result := .error e } := by
  simp [exec_decStream, execDecStream, checkMode_packet hm, h, he]

end DecStream

/-- Every word whose header passes has its record (R201, R203). -/
theorem decodeHit_records {c : Cfg} {p : Params} {m : Mode} {wt wd : Bool} {ws : List Nat}
    (h : ∀ w ∈ ws, w < 2 ^ 48 ∧ (w / 2 ^ 44 = 10 ∨ p.headerCheck = .ignore)) :
    List.Forall₂ (fun (w : Nat) r => decodeHit c p m wt wd w = .ok r) ws
      (ws.map fun w => recordOf c m wt wd (fieldsOf w)) := by
  rw [List.forall₂_map_right_iff, List.forall₂_same]
  intro w hw
  obtain ⟨hlt, hheader⟩ := h w hw
  exact decodeHit_of_fields (disassemble_ok hlt hheader) c m wt wd

/-- The header of a record's word is the upper half of its first byte (R71). -/
theorem recordWord_header {bs : List Nat} (hbs : ∀ b ∈ bs, b ≤ 255) (i : Nat) :
    recordWord bs i < 2 ^ 48 ∧ recordWord bs i / 2 ^ 44 = bs.getD (6 * i) 0 / 16 := by
  have h0 := getD_le hbs (6 * i)
  have h1 := getD_le hbs (6 * i + 1)
  have h2 := getD_le hbs (6 * i + 2)
  have h3 := getD_le hbs (6 * i + 3)
  have h4 := getD_le hbs (6 * i + 4)
  have h5 := getD_le hbs (6 * i + 5)
  simp only [recordWord, Finset.sum_range_succ, Finset.sum_range_zero, Nat.add_zero]
  omega

/-! A stream of big-endian records splits into its words (R55, R206). -/

/-- Record `i` of a list of six-entry blocks is block `i`. -/
theorem memRead_flatMap {f : Nat → List Int} (hf : ∀ w, (f w).length = 6) {ws : List Nat} {i : Nat}
    (hi : i < ws.length) : memRead (ws.flatMap f) (6 * i) 6 = f ws[i] := by
  induction ws generalizing i with
  | nil => simp at hi
  | cons w ws ih =>
    cases i with
    | zero => rw [memRead, List.flatMap_cons]; exact List.take_left' (hf w)
    | succ i =>
      have hdrop : (f w ++ ws.flatMap f).drop (6 * (i + 1)) = (ws.flatMap f).drop (6 * i) := by
        rw [List.drop_append, List.drop_eq_nil_of_le (by rw [hf]; omega), List.nil_append, hf]
        congr 1
      rw [memRead, List.flatMap_cons, hdrop]
      exact ih (by simpa using hi)

theorem splitStream_beBytes {ws : List Nat} (h : ∀ w ∈ ws, w < 2 ^ 48) :
    splitStream ((ws.flatMap (beBytes 6)).map fun b => (b.toNat : Int)) = .ok ws := by
  have hf : ∀ w, ((beBytes 6 w).map fun b => (b.toNat : Int)).length = 6 := by simp [beBytes_length]
  rw [List.map_flatMap]
  refine splitStream_of_records ?_ fun i hi => ?_
  · simp [List.length_flatMap, beBytes_length, Nat.mul_comm]
  · rw [memRead_flatMap hf hi]
    exact deserialise_beBytes (h _ (List.getElem_mem hi))

/-! Functions over a list that stop at the first error (R245). -/

section MapUntilError

variable {α β γ : Type} {f : α → Except HardError β} {as : List α} {bs : List β}

theorem mem_of_mapUntilError (h : mapUntilError f as = .ok bs) {b : β} (hb : b ∈ bs) : ∃ a ∈ as, f a = .ok b := by
  have hall := mapUntilError_eq_ok.1 h
  induction hall with
  | nil => simp at hb
  | @cons a b' as bs ha hrest ih =>
    rcases List.mem_cons.1 hb with rfl | hb
    · exact ⟨a, by simp, ha⟩
    · obtain ⟨x, hx, hfx⟩ := ih (mapUntilError_eq_ok.2 hrest) hb
      exact ⟨x, List.mem_cons_of_mem _ hx, hfx⟩

theorem map_of_mapUntilError (h : mapUntilError f as = .ok bs) {g : β → γ} {k : α → γ}
    (hgk : ∀ a ∈ as, ∀ b, f a = .ok b → g b = k a) : bs.map g = as.map k := by
  have hall := mapUntilError_eq_ok.1 h
  clear h
  induction hall with
  | nil => rfl
  | @cons a b as bs ha _ ih =>
    rw [List.map_cons, List.map_cons, hgk a (by simp) b ha, ih fun x hx => hgk x (List.mem_cons_of_mem _ hx)]

end MapUntilError

/-! Step 2 of R220: the addressed hits are the hits of the batch. -/

/-- The hit that an addressed hit stands for (R101). -/
def hitOf (g : AddressedHit) : Hit := ⟨(coordinateOf g.addr).1, (coordinateOf g.addr).2, g.start, g.stop⟩

/-- The pulse of an addressed hit. -/
def pulseOf (g : AddressedHit) : Pulse := ⟨g.start, g.stop⟩

theorem toAddress_eq_ok {x y : Int} {a : Nat} (h : toAddress x y = .ok a) :
    a ≤ 65535 ∧ x = (coordinateOf a).1 ∧ y = (coordinateOf a).2 := by
  obtain ⟨x', hx, hrest⟩ := bind_eq_ok.1 h
  obtain ⟨y', hy, ha⟩ := bind_eq_ok.1 hrest
  obtain ⟨rfl, hx'⟩ := checkMax_eq_ok.1 hx
  obtain ⟨rfl, hy'⟩ := checkMax_eq_ok.1 hy
  obtain rfl : addressOf x' y' = a := by simpa using ha
  rw [coordinateOf_addressOf hx' hy']
  exact ⟨addressOf_le hx' hy', rfl, rfl⟩

theorem addressHits_eq_ok {c : Cfg} {i : Nat} {hits : List Hit} {hs : List AddressedHit}
    (h : addressHits c i hits = .ok hs) : hs.map hitOf = hits ∧ ∀ g ∈ hs, g.addr ≤ 65535 := by
  induction hits generalizing i hs with
  | nil =>
    obtain rfl : [] = hs := by simpa [addressHits] using h
    simp
  | cons hit hits ih =>
    simp only [addressHits, bind_eq_ok, except_pure, Except.ok.injEq] at h
    obtain ⟨a, ha, -, -, rest, hrest, rfl⟩ := h
    obtain ⟨hmap, haddr⟩ := ih hrest
    obtain ⟨hle, hx, hy⟩ := toAddress_eq_ok ha
    refine ⟨?_, by simpa using ⟨hle, haddr⟩⟩
    rw [List.map_cons, hmap, hitOf, ← hx, ← hy]

/-- The hits of one pixel are those its addressed hits stand for (R102). -/
theorem pixelHits_map_hitOf {hs : List AddressedHit} (haddr : ∀ g ∈ hs, g.addr ≤ 65535) (a : Nat) :
    pixelHits a (hs.map hitOf) = (hitsOf a hs).map hitOf := by
  rw [pixelHits, hitsOf, List.filter_map]
  congr 1
  refine List.filter_congr fun g hg => ?_
  simp [hitOf, addressOf_coordinateOf (haddr g hg)]

/-! Step 3 of R220: the packets of the accepted hits of one pixel. -/

/-- What the merge relies on: the sort key is that of the word, and the word is a packet's (R64, R71). -/
structure KeyOfWord (k : KeyedWord) : Prop where
  toa : k.toa = gray2bin (slice k.word 27 14)
  addr : k.addr = slice k.word 43 28
  header : k.word / 2 ^ 44 = 10

theorem KeyOfWord.word_lt {k : KeyedWord} (h : KeyOfWord k) : k.word < 2 ^ 48 := by
  have := h.header; omega

section Pixel

variable {s : State} {m : Mode}

theorem keyedPacket_eq_ok {g : AddressedHit} {k : KeyedWord} (h : keyedPacket s.cfg s.par m g = .ok k) :
    k.word = hitPacket s m g.addr (hitOf g) ∧ KeyOfWord k := by
  obtain ⟨w, hw, hk⟩ := bind_eq_ok.1 h
  obtain rfl : _ = k := by simpa using hk
  obtain ⟨ha, -, hspan, rfl⟩ := encodeHit_eq_ok.1 hw
  obtain ⟨htoa, hsec, hftoa⟩ := pulsePacket_fields (p := s.par) (m := m) (stop := g.stop) hspan
  obtain ⟨-, hheader, hfields⟩ := packetWord_parts (Nat.lt_succ_of_le ha) (Nat.lt_succ_of_le htoa)
    (Nat.lt_succ_of_le hsec) (Nat.lt_succ_of_le hftoa)
  exact ⟨rfl, rfl, (congrArg Fields.address hfields).symm, hheader⟩

theorem acceptedPackets_map_hitOf {hs : List AddressedHit} (haddr : ∀ g ∈ hs, g.addr ≤ 65535) {a : Nat}
    {vs : List Verdict} (hfold : acceptFold s.cfg m PixRec.init ((hitsOf a hs).map pulseOf) = .ok vs) :
    acceptedPackets s m a (hs.map hitOf) = (acceptedOf (hitsOf a hs) vs).map fun g => hitPacket s m a (hitOf g) := by
  have hpulses : ((hitsOf a hs).map hitOf).map (fun h => (⟨h.start, h.stop⟩ : Pulse)) = (hitsOf a hs).map pulseOf := by
    rw [List.map_map]; rfl
  rw [acceptedPackets, pixelHits_map_hitOf haddr, hpulses, hfold, acceptedOf]
  simp only [List.zip_map_left, List.filter_map, List.map_map]
  rfl

theorem mem_acceptedOf {hs : List AddressedHit} {vs : List Verdict} {g : AddressedHit} (h : g ∈ acceptedOf hs vs) :
    g ∈ hs := by
  obtain ⟨⟨g', v⟩, hmem, rfl⟩ := List.mem_map.1 h
  exact (List.of_mem_zip (List.mem_of_mem_filter hmem)).1

theorem encodePixel_eq_ok {hs : List AddressedHit} (haddr : ∀ g ∈ hs, g.addr ≤ 65535) {a : Nat}
    {ks : List KeyedWord} (h : encodePixel s.cfg s.par m (hitsOf a hs) = .ok ks) :
    ks.map KeyedWord.word = acceptedPackets s m a (hs.map hitOf) ∧ ∀ k ∈ ks, KeyOfWord k := by
  obtain ⟨vs, hfold, hks⟩ := bind_eq_ok.1 h
  constructor
  · rw [acceptedPackets_map_hitOf haddr hfold]
    refine map_of_mapUntilError hks fun g hg k hk => ?_
    have hga : g.addr = a := by simpa using (List.mem_filter.1 (mem_acceptedOf hg)).2
    rw [(keyedPacket_eq_ok hk).1, hga]
  · intro k hk
    obtain ⟨g, -, hg⟩ := mem_of_mapUntilError hks hk
    exact (keyedPacket_eq_ok hg).2

/-- A pixel without a hit has no packet (R185). -/
theorem acceptedPackets_of_not_mem {hs : List AddressedHit} (haddr : ∀ g ∈ hs, g.addr ≤ 65535) {a : Nat}
    (ha : a ∉ pixelsOf hs) : acceptedPackets s m a (hs.map hitOf) = [] := by
  have hnone : hitsOf a hs = [] :=
    List.filter_eq_nil_iff.2 fun g hg hga => ha (mem_pixelsOf.2 ⟨g, hg, by simpa using hga⟩)
  rw [acceptedPackets_map_hitOf (vs := []) haddr (by rw [hnone]; rfl), hnone]; rfl

/-! Every pixel (R220, steps 3 and 4). -/

/-- The pixels that have a hit are those of the grid's addresses that name one. -/
theorem pixelsOf_perm {hs : List AddressedHit} (haddr : ∀ g ∈ hs, g.addr ≤ 65535) :
    (pixelsOf hs).Perm ((List.range 65536).filter fun a => a ∈ pixelsOf hs) := by
  have hnodup : (pixelsOf hs).Nodup := (pixelsOf_rising hs).imp fun h => h.ne
  rw [List.perm_ext_iff_of_nodup hnodup (List.nodup_range.filter _)]
  intro a
  simp only [List.mem_filter, List.mem_range, decide_eq_true_eq, iff_and_self]
  intro ha
  obtain ⟨g, hg, rfl⟩ := mem_pixelsOf.1 ha
  exact Nat.lt_succ_of_le (haddr g hg)

theorem flatMap_filter_eq {α β : Type} {f : α → List β} {p : α → Bool} (l : List α)
    (h : ∀ a, p a = false → f a = []) : (l.filter p).flatMap f = l.flatMap f := by
  induction l with
  | nil => rfl
  | cons a l ih =>
    cases ha : p a with
    | true => simp [ha, ih]
    | false => simp [ha, h a ha, ih]

theorem acceptedPackets_of_pixels_perm {hs : List AddressedHit} (haddr : ∀ g ∈ hs, g.addr ≤ 65535) :
    ((pixelsOf hs).flatMap fun a => acceptedPackets s m a (hs.map hitOf)).Perm
      ((List.range 65536).flatMap fun a => acceptedPackets s m a (hs.map hitOf)) := by
  rw [← flatMap_filter_eq (p := fun a => a ∈ pixelsOf hs) (List.range 65536) fun a ha =>
    acceptedPackets_of_not_mem haddr (by simpa using ha)]
  exact (pixelsOf_perm haddr).flatMap_right _

theorem encodePixels_eq_ok {hs : List AddressedHit} (haddr : ∀ g ∈ hs, g.addr ≤ 65535) {ks : List KeyedWord}
    (h : encodePixels s.cfg s.par m hs = .ok ks) :
    ks.map KeyedWord.word = ((pixelsOf hs).flatMap fun a => acceptedPackets s m a (hs.map hitOf)) ∧
      ∀ k ∈ ks, KeyOfWord k := by
  obtain ⟨kss, hkss, hks⟩ := bind_eq_ok.1 h
  obtain rfl : kss.flatten = ks := by simpa using hks
  constructor
  · rw [List.map_flatten, List.flatMap_def,
      map_of_mapUntilError hkss fun a _ ks hks => (encodePixel_eq_ok haddr hks).1]
  · intro k hk
    obtain ⟨ks, hmem, hkmem⟩ := List.mem_flatten.1 hk
    obtain ⟨a, -, ha⟩ := mem_of_mapUntilError hkss hmem
    exact (encodePixel_eq_ok haddr ha).2 k hkmem

theorem streamOrder_of_le {u v : KeyedWord} (hu : KeyOfWord u) (hv : KeyOfWord v) (h : u.le v = true) :
    streamOrder u.word v.word := by
  rw [streamOrder, ← hu.toa, ← hv.toa, ← hu.addr, ← hv.addr]
  simp only [KeyedWord.le, Bool.or_eq_true, Bool.and_eq_true, decide_eq_true_eq] at h
  omega

/-- The words of an encoded stream (R220, R64): the packets of the accepted hits, in the order of the stream. -/
theorem encodeStream_eq_ok {hits : List Hit} {ws : List Nat} (h : encodeStream s.cfg s.par m hits = .ok ws) :
    ws.Perm ((List.range 65536).flatMap fun a => acceptedPackets s m a hits) ∧ ws.Pairwise streamOrder ∧
      ∀ w ∈ ws, w < 2 ^ 48 ∧ w / 2 ^ 44 = 10 := by
  obtain ⟨hs, hhs, hrest⟩ := bind_eq_ok.1 h
  obtain ⟨ks, hks, hws⟩ := bind_eq_ok.1 hrest
  obtain rfl : (mergeByToa ks).map KeyedWord.word = ws := by simpa using hws
  obtain ⟨rfl, haddr⟩ := addressHits_eq_ok hhs
  obtain ⟨hwords, hkey⟩ := encodePixels_eq_ok haddr hks
  have hkey' : ∀ k ∈ mergeByToa ks, KeyOfWord k := fun k hk => hkey k ((mergeByToa_perm ks).mem_iff.1 hk)
  refine ⟨?_, ?_, ?_⟩
  · have hmerge := (mergeByToa_perm ks).map KeyedWord.word
    rw [hwords] at hmerge
    exact hmerge.trans (acceptedPackets_of_pixels_perm haddr)
  · rw [List.pairwise_map]
    exact (mergeByToa_sorted ks).imp_of_mem fun hu hv => streamOrder_of_le (hkey' _ hu) (hkey' _ hv)
  · intro w hw
    obtain ⟨k, hk, rfl⟩ := List.mem_map.1 hw
    exact ⟨(hkey' k hk).word_lt, (hkey' k hk).header⟩

end Pixel

/-- The bytes ENC_STREAM returns are those of the stream's words (R220). -/
theorem exec_encStream_eq_bytes {s t : State} {code : ModeCode} {hits : List Hit} {bytes : List Byte}
    (hm : code = 0#2 ∨ code = 1#2) (h : exec (.encStream hits code) s = .next t) (hb : t.result = .bytes bytes) :
    ∃ ws, encodeStream s.cfg s.par (packetMode code) hits = .ok ws ∧ bytes = ws.flatMap (beBytes 6) := by
  rw [exec_encStream, execEncStream, checkMode_packet hm, except_ok_bind] at h
  cases hws : encodeStream s.cfg s.par (packetMode code) hits with
  | ok ws =>
    obtain rfl : s.emit ws = t := by simpa [hws] using h
    exact ⟨ws, rfl, by simpa using hb.symm⟩
  | error e =>
    obtain rfl : _ = t := by simpa [hws] using h
    simp at hb

/-! The obligations. -/

/-- Settles O51: DEC_STREAM runs the functions of STREAM_SPLIT and HIT_DEC, and a word's header is its first
byte's. -/
theorem decStreamDecodesEveryRecordInOrder : Obligations.DecStreamDecodesEveryRecordInOrder := by
  refine ⟨fun s bs code wt wd hm hlen hbs hheader => ?_,
    fun s bs code wt wd hm => exec_decStream_mode_refused hm bs wt wd s,
    fun s bs code wt wd e hm he => exec_decStream_of_split_error hm (exec_streamSplit_eq_error.1 he),
    fun s bs pre w post code wt wd e hm hsplit hpre he => ?_⟩
  · have hsplit := splitStream_bytes hbs hlen
    have hwords : ∀ w ∈ (List.range (bs.length / 6)).map (recordWord bs),
        w < 2 ^ 48 ∧ (w / 2 ^ 44 = 10 ∨ s.par.headerCheck = .ignore) := by
      intro w hw
      obtain ⟨i, hi, rfl⟩ := List.mem_map.1 hw
      obtain ⟨hlt, heq⟩ := recordWord_header hbs i
      rw [heq]
      exact ⟨hlt, hheader.symm.imp_left fun h => h i (List.mem_range.1 hi)⟩
    have hrecords := decodeHit_records (c := s.cfg) (m := packetMode code) (wt := wt) (wd := wd) hwords
    exact ⟨_, _, exec_streamSplit_eq_words.2 hsplit, hrecords.imp fun _ _ => (exec_hitDec_eq_hit hm).2,
      exec_decStream_of_records hm hsplit hrecords⟩
  · refine exec_decStream_of_decode_error hm (exec_streamSplit_eq_words.1 hsplit)
      (mapUntilError_eq_error.2 ⟨pre, w, post, rfl, fun v hv => ?_, (exec_hitDec_eq_error hm).1 he⟩)
    obtain ⟨r, hr⟩ := hpre v hv
    exact ⟨r, (exec_hitDec_eq_hit hm).1 hr⟩

/-- Settles O52: the bytes split back into the merged packets, whose headers pass, and a record without times has the
packet's own fields. -/
theorem streamRoundTrip : Obligations.StreamRoundTrip := by
  intro s t u code m hits bytes hcode hexec hbytes
  obtain ⟨hm, rfl⟩ := packetMode_of_code hcode
  obtain ⟨ws, hws, rfl⟩ := exec_encStream_eq_bytes hm hexec hbytes
  obtain ⟨hperm, hsorted, hpackets⟩ := encodeStream_eq_ok hws
  have hrecords := decodeHit_records (c := u.cfg) (p := u.par) (m := packetMode code) (wt := false) (wd := false)
    fun w hw => ⟨(hpackets w hw).1, .inl (hpackets w hw).2⟩
  refine ⟨ws, _, hperm, hsorted,
    exec_decStream_of_records hm (splitStream_beBytes fun w hw => (hpackets w hw).1) hrecords, ?_⟩
  rw [List.forall₂_map_right_iff, List.forall₂_same]
  intro w _
  have haddress : w / 2 ^ 28 % 2 ^ 16 ≤ 65535 := by omega
  simp only [recordOf_packetMode, fieldsOf_eq]
  exact ⟨exec_addrDec_within haddress u, by simp⟩

end Sys2Proof.Proofs.Stream
end

section
/-! PROOFS. Hard errors (60_exceptions.md): every way an operation can end, and that none writes state with an error
as its result (R244). -/

namespace Sys2Proof.Proofs.Exceptions

open Sys2Proof.Machine Sys2Proof.Laws Sys2Proof.Proofs.Acceptor Sys2Proof.Proofs.Packet Sys2Proof.Proofs.Stream

/-- The states in which an operation run in `s` can end: a result, which may be a hard error, and nothing else
written; or one of the four writes of R59 and R50, each only after its operation's checks. -/
inductive Ending (s : State) : Instr → State → Prop
  | resultOnly (i : Instr) (r : Result) : Ending s i { s with result := r }
  | acqStart {code : ModeCode} {fSys fFine epoch : Option Rat} {c : Cfg}
      (hc : acqConfig code fSys fFine epoch = .ok c) :
      Ending s (.acqStart code fSys fFine epoch) (s.startAcquisition c)
  | accept {address : Int} {start stop : Rat} {a : Nat} {p : PixRec} {v : Verdict}
      (hp : acceptPulse s.cfg s.pix address start stop = .ok (a, p, v)) :
      Ending s (.accept address start stop) (s.recordPulse a p v)
  | pktSer {word : Int} {w : Nat} (hw : checkMax .word (2 ^ 48 - 1) word = .ok w) :
      Ending s (.pktSer word) (s.emit [w])
  | encStream {hits : List Hit} {code : ModeCode} {m : Mode} {ws : List Nat}
      (hm : checkMode admitsPacket code = .ok m) (hws : encodeStream s.cfg s.par m hits = .ok ws) :
      Ending s (.encStream hits code) (s.emit ws)

theorem complete_ending (i : Instr) (r : Except HardError Result) (s : State) :
    ∃ t, complete r s = .next t ∧ Ending s i t := by
  obtain ⟨v, -, h⟩ | ⟨e, -, h⟩ := complete_cases r s
  · exact ⟨_, h, .resultOnly i v⟩
  · exact ⟨_, h, .resultOnly i (.error e)⟩

theorem completeEmit_ending {i : Instr} {r : Except HardError (List Nat)} {s : State}
    (hemit : ∀ ws, r = .ok ws → Ending s i (s.emit ws)) : ∃ t, completeEmit r s = .next t ∧ Ending s i t := by
  obtain ⟨ws, hr, h⟩ | ⟨e, -, h⟩ := completeEmit_cases r s
  · exact ⟨_, h, hemit ws hr⟩
  · exact ⟨_, h, .resultOnly i (.error e)⟩

/-- All that an operation can do: the operations not named below only complete with their result (PKT48 always with its
fields). -/
theorem exec_ending (i : Instr) (s : State) : ∃ t, exec i s = .next t ∧ Ending s i t := by
  cases i with
  | acqStart code fSys fFine epoch =>
    cases hc : acqConfig code fSys fFine epoch with
    | error e => exact ⟨_, exec_acqStart_of_error hc s, .resultOnly _ _⟩
    | ok c => exact ⟨_, exec_acqStart_of_config hc s, .acqStart hc⟩
  | accept address start stop =>
    rw [exec_accept, execAccept]
    cases hp : acceptPulse s.cfg s.pix address start stop with
    | error e => exact ⟨_, rfl, .resultOnly _ _⟩
    | ok r => exact ⟨_, rfl, .accept hp⟩
  | pktSer word =>
    rw [exec_pktSer, execPktSer]
    refine completeEmit_ending fun ws hr => ?_
    obtain ⟨w, hw, hws⟩ := bind_eq_ok.1 hr
    obtain rfl : [w] = ws := Except.ok.inj hws
    exact .pktSer hw
  | encStream hits code =>
    rw [exec_encStream, execEncStream]
    refine completeEmit_ending fun ws hr => ?_
    obtain ⟨m, hm, hws⟩ := bind_eq_ok.1 hr
    exact .encStream hm hws
  | pkt48 address toa secondary ftoa => exact ⟨_, rfl, .resultOnly _ _⟩
  | _ => exact complete_ending _ _ s

/-- An ending that wrote state has no error as its result. -/
theorem Ending.eq_of_error {s t : State} {i : Instr} {e : HardError} (h : Ending s i t) (he : t.result = .error e) :
    t = { s with result := .error e } := by
  cases h with
  | resultOnly i r =>
    obtain rfl : r = .error e := he
    rfl
  | acqStart _ | accept _ | pktSer _ | encStream _ _ => cases he

/-! The obligation. -/

/-- Settles O54: the next state is an ending of the operation, and only the ending that writes nothing has an error
as its result. -/
theorem hardErrorsLeaveTheBlockAsItWas : Obligations.HardErrorsLeaveTheBlockAsItWas := by
  intro i s t e hexec he
  obtain ⟨u, hu, hend⟩ := exec_ending i s
  obtain rfl : u = t := Host.Outcome.next.inj (hu.symm.trans hexec)
  exact hend.eq_of_error he

end Sys2Proof.Proofs.Exceptions
end

section
/-! PROOFS. Presentation (30_encoding.md): the decoder and the encoder undo each other, the selectors that are no
operation, and what one step does with the presentation at the front. -/

namespace Sys2Proof.Proofs.Encoding

open Sys2Proof.Machine Sys2Proof.Laws

/-! The 48-bit packet (R71, R72). -/

/-- The operation that a 48-bit word presents: PKT48 with the word's slices. -/
def packetInstr (w : Nat) : Instr :=
  .pkt48 (BitVec.ofNat 16 (slice w 43 28)) (BitVec.ofNat 14 (slice w 27 14)) (BitVec.ofNat 10 (slice w 13 4))
    (BitVec.ofNat 4 (slice w 3 0))

theorem decodePacket_eq_ok {w : Nat} {ops : List Operand} {i : Instr} :
    decodePacket w ops = .ok i ↔ ops = [] ∧ slice w 47 44 = 0b1010 ∧ packetInstr w = i := by
  cases ops with
  | nil =>
    rw [decodePacket]
    split
    next h => simp [h, packetInstr]
    next h => simp [h]
  | cons o ops => simp [decodePacket]

theorem slice_header_eq {w : Nat} (hw : w < 2 ^ 48) : slice w 47 44 = w / 2 ^ 44 := by
  rw [slice_eq]; omega

/-- The encoding of a word's operation is the word's six bytes: no bit is dropped. -/
theorem encode_packetInstr {w : Nat} (hh : w / 2 ^ 44 = 10) : encode (packetInstr w) = ⟨beBytes 6 w, []⟩ := by
  have ha := slice_lt w 43 28
  have hg := slice_lt w 27 14
  have hs := slice_lt w 13 4
  have hf := slice_lt w 3 0
  rw [packetInstr, encode, BitVec.toNat_ofNat, BitVec.toNat_ofNat, BitVec.toNat_ofNat, BitVec.toNat_ofNat,
    Nat.mod_eq_of_lt ha, Nat.mod_eq_of_lt hg, Nat.mod_eq_of_lt hs, Nat.mod_eq_of_lt hf, packetWord_slices hh]

/-- A packet's assembled word presents that packet. -/
theorem packetInstr_packetWord (a : BitVec 16) (toa : BitVec 14) (sec : BitVec 10) (ftoa : BitVec 4) :
    packetInstr (packetWord a.toNat toa.toNat sec.toNat ftoa.toNat) = .pkt48 a toa sec ftoa := by
  obtain ⟨-, -, hfields⟩ := packetWord_parts a.isLt toa.isLt sec.isLt ftoa.isLt
  obtain ⟨ha, hg, hs, hf⟩ := Fields.mk.inj hfields
  rw [packetInstr, ha, hg, hs, hf]
  simp

/-- Six bytes with no operands are decoded as the packet of the word they spell. -/
theorem decode_beBytes_six {w : Nat} (hw : w < 2 ^ 48) : decode ⟨beBytes 6 w, []⟩ = decodePacket w [] := by
  conv_rhs => rw [← beNat_beBytes_six hw]
  rfl

theorem decode_packet {w : Nat} (hw : w < 2 ^ 48) (hh : w / 2 ^ 44 = 10) :
    decode ⟨beBytes 6 w, []⟩ = .ok (packetInstr w) := by
  rw [decode_beBytes_six hw]
  exact decodePacket_eq_ok.2 ⟨rfl, (slice_header_eq hw).trans hh, rfl⟩

theorem encode_of_decode_packet {b0 b1 b2 b3 b4 b5 : Byte} {ops : List Operand} {i : Instr}
    (h : decode ⟨[b0, b1, b2, b3, b4, b5], ops⟩ = .ok i) : encode i = ⟨[b0, b1, b2, b3, b4, b5], ops⟩ := by
  obtain ⟨rfl, hheader, rfl⟩ := decodePacket_eq_ok.1 h
  rw [← beBytes_six_beNat b0 b1 b2 b3 b4 b5]
  generalize hw : beNat [b0.toNat, b1.toNat, b2.toNat, b3.toNat, b4.toNat, b5.toNat] = w at hheader ⊢
  have hlt : w < 2 ^ 48 := by
    rw [beNat_six b1.isLt b2.isLt b3.isLt b4.isLt b5.isLt] at hw
    omega
  exact encode_packetInstr ((slice_header_eq hlt).symm.trans hheader)

/-! One-byte selectors (R73, R75). -/

theorem eq_ofNat_of_toNat_eq {b : Byte} {n : Nat} (h : b.toNat = n) : b = BitVec.ofNat 8 n := by
  rw [← h, BitVec.ofNat_toNat, BitVec.setWidth_eq]

/-- Each row of the operation map answers under its own selector with all its operands. -/
theorem encode_of_decodeOp {b : Byte} {ops : List Operand} {i : Instr} (h : decodeOp b ops = .ok i) :
    encode i = ⟨[b], ops⟩ := by
  unfold decodeOp at h
  split at h
  case h_36 => cases h -- no row of the map
  all_goals
    rename_i hsel
    rw [eq_ofNat_of_toNat_eq hsel]
    split at h <;> cases h
    rfl

/-- The selectors of the operation map (R75). -/
def legalSelectors : List Nat :=
  [0x01, 0x02, 0x08, 0x10, 0x11, 0x12, 0x13, 0x14, 0x15, 0x16, 0x17, 0x18, 0x19, 0x1A, 0x1B, 0x20, 0x21, 0x22, 0x23,
    0x24, 0x25, 0x26, 0x30, 0x31, 0x32, 0x33, 0x40, 0x41, 0x42, 0x43, 0x44, 0x45, 0x46, 0x50, 0x51]

/-- Every selector of the map decodes with operands that are all zero. -/
theorem decodeOp_zeroOperands : ∀ n ∈ legalSelectors,
    (decodeOp (BitVec.ofNat 8 n) (zeroOperands (BitVec.ofNat 8 n))).isOk = true := by decide

theorem decodeOp_illegal {b : Byte} (h : b.toNat ∉ legalSelectors) (ops : List Operand) :
    decodeOp b ops = .error (.illegalOpsel b) := by
  unfold decodeOp
  split
  case h_36 => rfl -- no row of the map
  all_goals
    rename_i hsel
    exact absurd (by rw [hsel]; decide) h

/-! One step (R62, R70, R78). -/

section Step

variable {s : State} {r : Request} {rest : List Request} (hp : s.pending = r :: rest)
include hp

theorem consume_eq : consume s = { s with pending := rest } := by rw [consume, hp]; rfl

theorem step_of_decode {i : Instr} (h : decode r = .ok i) : step s = exec i { s with pending := rest } := by
  rw [step, nextRequest, hp, List.head?_cons, ← consume_eq hp]
  simp only [h]

theorem step_of_reject {e : DecodeError} (h : decode r = .error e) : step s = reject e { s with pending := rest } := by
  rw [step, nextRequest, hp, List.head?_cons, ← consume_eq hp]
  simp only [h]

end Step

theorem step_idle {s : State} (hp : s.pending = []) : step s = .next s := by
  rw [step, nextRequest, hp]; rfl

theorem exec_pkt48 (a : BitVec 16) (toa : BitVec 14) (sec : BitVec 10) (ftoa : BitVec 4) (s : State) :
    exec (.pkt48 a toa sec ftoa) s =
      .next { s with result := .packet a.toNat toa.toNat sec.toNat ftoa.toNat } := rfl

/-! The obligations. -/

/-- Settles O1: a selector's row gives the operands back as they stand; a packet's word gives its fields back. -/
theorem decodingAnEncodingGivesTheOperation : Obligations.DecodingAnEncodingGivesTheOperation := by
  intro i
  cases i with
  | pkt48 a toa sec ftoa =>
    obtain ⟨hlt, hheader, -⟩ := packetWord_parts a.isLt toa.isLt sec.isLt ftoa.isLt
    rw [← packetInstr_packetWord a toa sec ftoa, encode_packetInstr hheader]
    exact decode_packet hlt hheader
  | _ => rfl

/-- Settles O2: a code that decodes is one selector byte or the six bytes of a packet. -/
theorem anythingThatDecodesIsItsEncoding : Obligations.AnythingThatDecodesIsItsEncoding := by
  rintro ⟨code, ops⟩ i h
  match code with
  | [b] => exact encode_of_decodeOp h
  | [b0, b1, b2, b3, b4, b5] => exact encode_of_decode_packet h
  | [] | [_, _] | [_, _, _] | [_, _, _, _] | [_, _, _, _, _] | _ :: _ :: _ :: _ :: _ :: _ :: _ :: _ => cases h

/-- Settles O3: each word is run through the decoder. -/
theorem selectorAndPacketWordsDecode : Obligations.SelectorAndPacketWordsDecode :=
  ⟨rfl, rfl, rfl, rfl, by decide, rfl⟩

/-- Settles O4: a presentation that decodes is executed once taken, and an idle block stays. -/
theorem stepRunsThePresentedOperation : Obligations.StepRunsThePresentedOperation :=
  ⟨fun _ _ _ _ hp h => step_of_decode hp h, fun _ hp => step_idle hp⟩

/-- Settles O5: the map's selectors decode with zero operands; any other byte is rejected whatever its operands. -/
theorem illegalSelectorsRaiseRangeError : Obligations.IllegalSelectorsRaiseRangeError := by
  refine fun b => ⟨fun h => ?_, fun h s ops rest hp => ?_⟩
  · have hok := decodeOp_zeroOperands b.toNat h
    rw [← eq_ofNat_of_toNat_eq rfl] at hok
    cases hi : decodeOp b (zeroOperands b) with
    | ok i => exact ⟨_, i, hi⟩
    | error e => simp [hi, Except.isOk, Except.toBool] at hok
  · exact step_of_reject hp (decodeOp_illegal h ops)

/-- Settles O48: PKT48 answers its fields, which for six bytes are the slices of their word. -/
theorem presentedPacketReturnsItsFields : Obligations.PresentedPacketReturnsItsFields := by
  refine ⟨fun s a toa sec ftoa => exec_pkt48 a toa sec ftoa s, fun s w rest hw hheader hp => ?_⟩
  rw [step_of_decode hp (decode_packet hw hheader), packetInstr, exec_pkt48]
  simp [slice_eq]

end Sys2Proof.Proofs.Encoding
end

section
/-! PROOFS. What the state keeps (10_state.md, 20_memory.md, 70_reset_and_hazards.md): the invariant at reset and over
every step, which operations write CFG and PIX, and what the output stream holds. -/

namespace Sys2Proof.Proofs.Invariant

open Sys2Proof.Machine Sys2Proof.Laws Sys2Proof.Proofs.Packet Sys2Proof.Proofs.Stream Sys2Proof.Proofs.Acceptor
  Sys2Proof.Proofs.Counters Sys2Proof.Proofs.Encoding Sys2Proof.Proofs.Exceptions

/-! Legal configurations (R22, R181). -/

theorem checkClock_eq_ok {n : OperandName} {q : Rat} : checkClock n q = .ok () ↔ 0 < q := by
  rw [checkClock]
  split
  next h => simpa using h
  next h => simpa using h

/-- The configuration that an ACQ_START writes has positive clocks and a mode. -/
theorem acqConfig_legal {code : ModeCode} {fSys fFine epoch : Option Rat} {c : Cfg}
    (h : acqConfig code fSys fFine epoch = .ok c) : c.legal ∧ c.mode ≠ none := by
  simp only [acqConfig, bind_eq_ok, except_pure, Except.ok.injEq] at h
  obtain ⟨m, -, ⟨⟩, hsys, ⟨⟩, hfine, rfl⟩ := h
  exact ⟨⟨checkClock_eq_ok.1 hsys, checkClock_eq_ok.1 hfine⟩, Option.some_ne_none m⟩

/-! Legal pixel records (R30, R183). -/

section Records

variable {c : Cfg} {m : Mode} {p r : PixRec} {start stop : Rat} {v : Verdict}

theorem init_legal (c : Cfg) : PixRec.init.legal c := by
  refine ⟨fun _ => ⟨rfl, rfl⟩, fun h => ?_, fun ls h => ?_⟩ <;> cases h

theorem accepted_legal (hepoch : c.epoch ≤ start) (hpulse : start ≤ stop) (hwidth : 1 ≤ accTot c start stop) :
    PixRec.legal c ⟨accTot c start stop, stop, true, some start⟩ := by
  refine ⟨fun h => (by cases h),
    fun _ => ⟨hwidth, ?_, hepoch.trans hpulse, Option.some_ne_none start⟩, fun ls h => ?_⟩
  · show accTot c start stop ≤ 1022
    rw [accTot_eq]; exact min_le_right _ _
  · obtain rfl : start = ls := Option.some.inj h
    exact hepoch

theorem withLastStart_legal (hp : p.legal c) (hepoch : c.epoch ≤ start) :
    PixRec.legal c { p with lastStart := some start } := by
  obtain ⟨hfresh, hused, -⟩ := hp
  refine ⟨hfresh, fun h => ?_, fun ls h => ?_⟩
  · obtain ⟨hlow, hhigh, hend, -⟩ := hused h
    exact ⟨hlow, hhigh, hend, Option.some_ne_none start⟩
  · obtain rfl : start = ls := Option.some.inj h
    exact hepoch

/-- A pulse presented to a legal record leaves a legal record, accepted or not. -/
theorem presentPulse_legal (hp : p.legal c) (h : presentPulse c m p start stop = .ok (r, v)) : r.legal c := by
  by_cases hv : v = .accept
  · subst hv
    obtain ⟨hepoch, hpulse, hwidth, -, rfl⟩ := presentPulse_accepted h
    exact accepted_legal hepoch hpulse hwidth
  · obtain ⟨hepoch, -, -, -⟩ := presentPulse_eq_ok.1 h
    obtain rfl := presentPulse_rejected h hv
    exact withLastStart_legal hp hepoch

end Records

/-! Pixel spaces of legal records. -/

section Pixels

variable {c : Cfg} {p : PixSpace}

theorem read_legal (hp : ∀ e ∈ p, e.2.legal c) (a : Nat) : (p.read a).legal c := by
  rw [PixSpace.read]
  cases h : lookupAt a p with
  | none => exact init_legal c
  | some r => exact hp (a, r) (mem_of_lookupAt_eq_some h)

theorem write_legal (hp : ∀ e ∈ p, e.2.legal c) {a : Nat} {r : PixRec} (hr : r.legal c) :
    ∀ e ∈ p.write a r, e.2.legal c := by
  intro e he
  obtain ⟨-, hnew⟩ | hold := mem_putAt he
  · rw [Option.ite_none_left_eq_some] at hnew
    obtain rfl : r = e.2 := Option.some.inj hnew.2
    exact hr
  · exact hp e hold

end Pixels

/-! Streams of whole records (R54, R58): bytes are appended to a stream without gaps. -/

section Offsets

variable {m : Memory} {n : Nat}

theorem putAt_append {α : Type} {l : List (Nat × α)} (h : ∀ q ∈ l, q.1 < n) (v : α) :
    putAt n (some v) l = l ++ [(n, v)] := by
  induction l with
  | nil => rfl
  | cons q l ih =>
    have hq : q.1 < n := h q (by simp)
    rw [putAt, if_neg (by omega), if_neg (by omega), ih fun x hx => h x (by simp [hx])]; rfl

theorem write_offsets (hm : m.map Prod.fst = List.range n) (b : Byte) :
    (m.write n b).map Prod.fst = List.range (n + 1) := by
  have hlt : ∀ q ∈ m, q.1 < n := fun q hq => List.mem_range.1 (hm ▸ List.mem_map_of_mem hq)
  rw [Memory.write, putAt_append hlt, List.map_append, hm, List.range_succ]; rfl

theorem writeBytes_offsets (hm : m.map Prod.fst = List.range n) (bs : List Byte) :
    (m.writeBytes n bs).map Prod.fst = List.range (n + bs.length) := by
  induction bs generalizing m n with
  | nil => exact hm
  | cons b bs ih =>
    rw [Memory.writeBytes, ih (write_offsets hm b), List.length_cons]
    congr 1; omega

theorem writeRecords_offsets {i : Nat} (hm : m.map Prod.fst = List.range (6 * i)) (ws : List Nat) :
    (writeRecords m i ws).map Prod.fst = List.range (6 * (i + ws.length)) := by
  induction ws generalizing m i with
  | nil => exact hm
  | cons w ws ih =>
    have hw : (memWrite m (6 * i) 6 w).map Prod.fst = List.range (6 * (i + 1)) := by
      rw [memWrite, writeBytes_offsets hm, beBytes_length]; rfl
    rw [writeRecords, ih hw, List.length_cons]
    congr 1; omega

end Offsets

theorem writeRecords_wholeRecords (ws : List Nat) : (writeRecords [] 0 ws).wholeRecords :=
  ⟨0 + ws.length, writeRecords_offsets rfl ws⟩

/-! The invariant, one lemma per write of the state. -/

section Inv

variable {s t : State} (h : s.Inv)
include h

theorem inv_withResult (r : Result) : State.Inv { s with result := r } :=
  ⟨h.clocks, h.params, h.pixCanonical, h.pixLegal, h.noPixelBeforeStart, h.stream⟩

theorem inv_withPending (rest : List Request) : State.Inv { s with pending := rest } :=
  ⟨h.clocks, h.params, h.pixCanonical, h.pixLegal, h.noPixelBeforeStart, h.stream⟩

theorem inv_emit (ws : List Nat) : (s.emit ws).Inv :=
  ⟨h.clocks, h.params, h.pixCanonical, h.pixLegal, h.noPixelBeforeStart, writeRecords_wholeRecords ws⟩

theorem inv_startAcquisition {c : Cfg} (hc : c.legal) : (s.startAcquisition c).Inv :=
  ⟨hc, h.params, reset_pix_wf, fun _ he => absurd he List.not_mem_nil, fun _ => rfl, h.stream⟩

theorem inv_recordPulse {a : Nat} (ha : a ≤ 65535) {m : Mode} (hm : s.cfg.mode = some m) {r : PixRec}
    (hr : r.legal s.cfg) (v : Verdict) : (s.recordPulse a r v).Inv :=
  ⟨h.clocks, h.params, pixSpace_write_wf h.pixCanonical (Nat.lt_succ_of_le ha) r, write_legal h.pixLegal hr,
    fun hnone => absurd (hm.symm.trans hnone) (Option.some_ne_none m), h.stream⟩

/-- Whatever way an operation ends keeps the invariant. -/
theorem inv_ending {i : Instr} (hend : Ending s i t) : t.Inv := by
  cases hend with
  | resultOnly i r => exact inv_withResult h r
  | acqStart hc => exact inv_startAcquisition h (acqConfig_legal hc).1
  | accept hp =>
    obtain ⟨m, hm, -, ha, hpresent⟩ := acceptPulse_eq_ok.1 hp
    exact inv_recordPulse h ha hm (presentPulse_legal (read_legal h.pixLegal _) hpresent) _
  | pktSer _ | encStream _ _ => exact inv_emit h _

theorem inv_exec {i : Instr} (hexec : exec i s = .next t) : t.Inv := by
  obtain ⟨u, hu, hend⟩ := exec_ending i s
  obtain rfl : u = t := Host.Outcome.next.inj (hu.symm.trans hexec)
  exact inv_ending h hend

/-- A presentation that is no operation writes an error at most. -/
theorem inv_reject {e : DecodeError} (hreject : reject e s = .next t) : t.Inv := by
  cases e with
  | illegalOpsel b | badHeader b =>
    obtain rfl := Host.Outcome.next.inj hreject
    exact inv_withResult h _
  | codeLength n | operandTypes b => cases hreject

end Inv

/-- At reset there is no pixel record and no byte, whatever legal parameters the block was given. -/
theorem inv_resetWith {p : Params} (h : legalParams p) : (State.resetWith p h).Inv :=
  ⟨⟨by norm_num [State.resetWith, State.reset, Cfg.init], by norm_num [State.resetWith, State.reset, Cfg.init]⟩, h,
    reset_pix_wf, fun _ he => absurd he List.not_mem_nil, fun _ => rfl, ⟨0, rfl⟩⟩

theorem specChoice_legal : legalParams Params.specChoice :=
  ⟨fun _ h => (by cases h), fun _ h => (by cases h)⟩

/-! What the operations leave unchanged (R59). -/

theorem ending_frame {s t : State} {i : Instr} (hend : Ending s i t) :
    t.par = s.par ∧ t.pending = s.pending ∧ (writesState i = false → t.cfg = s.cfg ∧ t.pix = s.pix) ∧
      ((∀ c f g e, i ≠ .acqStart c f g e) → t.cfg = s.cfg) := by
  cases hend with
  | resultOnly _ _ | pktSer _ | encStream _ _ => exact ⟨rfl, rfl, fun _ => ⟨rfl, rfl⟩, fun _ => rfl⟩
  | acqStart _ => exact ⟨rfl, rfl, fun h => (by cases h), fun h => absurd rfl (h _ _ _ _)⟩
  | accept _ => exact ⟨rfl, rfl, fun h => (by cases h), fun _ => rfl⟩

/-- An operation that emits no bytes leaves the stream. -/
theorem ending_stream {s t : State} {i : Instr} (hend : Ending s i t) (hi : emitsBytes i = false) :
    t.stream = s.stream := by
  cases hend with
  | resultOnly _ _ | acqStart _ | accept _ => rfl
  | pktSer _ | encStream _ _ => cases hi

/-! The output stream (R54, R55). -/

/-- After words are emitted the stream reads as their bytes, and as nothing past them. -/
theorem read_emit (s : State) (ws : List Nat) (j : Nat) :
    (s.emit ws).stream.read j = (ws.flatMap (beBytes 6))[j]? := by
  have hlen : (ws.flatMap (beBytes 6)).length = 6 * ws.length := by
    simp [List.length_flatMap, beBytes_length, Nat.mul_comm]
  rw [emit_stream, memory_read_writeRecords List.Pairwise.nil]
  split
  next => rw [Nat.mul_zero, Nat.sub_zero]
  next hj => rw [List.getElem?_eq_none (by omega)]; rfl

theorem exec_emitting {i : Instr} (hi : emitsBytes i = true) (s : State) : ∃ r, exec i s = completeEmit r s := by
  cases i with
  | pktSer word => exact ⟨_, rfl⟩
  | encStream hits code => exact ⟨_, rfl⟩
  | _ => cases hi

/-- The bytes that an operation emits are what the stream then holds. -/
theorem read_of_emitted {i : Instr} {s t : State} {bs : List Byte} (hi : emitsBytes i = true)
    (hexec : exec i s = .next t) (hbs : t.result = .bytes bs) (j : Nat) : t.stream.read j = bs[j]? := by
  obtain ⟨r, hr⟩ := exec_emitting hi s
  rw [hr] at hexec
  obtain ⟨ws, -, h⟩ | ⟨e, -, h⟩ := completeEmit_cases r s <;>
    obtain rfl := Host.Outcome.next.inj (h.symm.trans hexec)
  · obtain rfl : _ = bs := Result.bytes.inj hbs
    exact read_emit s ws j
  · cases hbs

/-! The obligations. -/

/-- Settles O60: a step takes a presentation and then ends an operation or writes an error; each of these keeps the
invariant. -/
theorem everyStepKeepsTheInvariant : Obligations.EveryStepKeepsTheInvariant := by
  intro s t h hstep
  cases hp : s.pending with
  | nil =>
    rw [step_idle hp] at hstep
    obtain rfl := Host.Outcome.next.inj hstep
    exact h
  | cons r rest =>
    have htaken := inv_withPending h rest
    cases hd : decode r with
    | ok i => exact inv_exec htaken ((step_of_decode hp hd).symm.trans hstep)
    | error e => exact inv_reject htaken ((step_of_reject hp hd).symm.trans hstep)

/-- Settles O59: reset is the reset of a block given no OPEN parameters, which is legal. -/
theorem resetHasTheInvariant : Obligations.ResetHasTheInvariant :=
  ⟨inv_resetWith specChoice_legal, fun _ h => inv_resetWith h⟩

/-- Settles O58: an ACQ_START that answers `done` did not end in an error, so it emptied the pixel space. -/
theorem resetState : Obligations.ResetState := by
  refine ⟨rfl, pixSpace_read_nil, fun s t code fSys fFine epoch hexec hdone => ?_⟩
  cases hc : acqConfig code fSys fFine epoch with
  | ok c =>
    obtain rfl := Host.Outcome.next.inj ((exec_acqStart_of_config hc s).symm.trans hexec)
    rfl
  | error e =>
    obtain rfl := Host.Outcome.next.inj ((exec_acqStart_of_error hc s).symm.trans hexec)
    cases hdone

/-- Settles O56: every operation ends, and no ending writes more than its operation may. -/
theorem onlyAcceptAndAcqStartWriteState : Obligations.OnlyAcceptAndAcqStartWriteState := by
  intro i s
  obtain ⟨t, hexec, hend⟩ := exec_ending i s
  exact ⟨t, hexec, ending_frame hend⟩

/-- Settles O46: emitted words read back as their bytes, and no other ending touches the stream. -/
theorem emittedBytesAreTheOutputStream : Obligations.EmittedBytesAreTheOutputStream := by
  refine fun i s t hexec => ⟨fun bs hi hbs => read_of_emitted hi hexec hbs, fun hquiet j => ?_⟩
  obtain hi | ⟨e, he⟩ := hquiet
  · obtain ⟨u, hu, hend⟩ := exec_ending i s
    obtain rfl : u = t := Host.Outcome.next.inj (hu.symm.trans hexec)
    rw [ending_stream hend hi]
  · rw [hardErrorsLeaveTheBlockAsItWas i s t e hexec he]

end Sys2Proof.Proofs.Invariant
end

section
/-! PROOFS. The LFSR operations with supplied parameters (41_counters.md): LFSR_STEP, the OPEN kinds iToT and PC4b
with and without their parameters, the round trip of R115, and that consecutive Gray values differ in one bit. -/

namespace Sys2Proof.Proofs.OpenKinds

open Sys2Proof.Machine Sys2Proof.Laws Sys2Proof.Proofs.Counters

/-! LFSR_STEP (R110): its three checks in order. -/

section Checks

variable {w : Nat} {width t1 t2 t3 t4 : Int}

theorem checkWidth_within (h : 1 ≤ width) (h' : width ≤ 16) : checkWidth width = .ok width.toNat := by
  rw [checkWidth, if_neg (by omega)]

theorem checkWidth_outside (h : width < 1 ∨ 16 < width) : checkWidth width = .error (.range .width (.int width)) := by
  rw [checkWidth, if_pos h]

/-- A tap is used when it is one of the first two, or the third and fourth are both non-zero (R28). -/
theorem mem_used {t : Taps} {i : Nat} :
    i ∈ t.used ↔ i = t.t1 ∨ i = t.t2 ∨ (t.t3 ≠ 0 ∧ t.t4 ≠ 0 ∧ (i = t.t3 ∨ i = t.t4)) := by
  rw [Taps.used]
  split
  next h => simp [h.1, h.2]
  next h => simp; tauto

theorem checkTaps_used {t1 t2 t3 t4 : Nat} (h1 : t1 < w) (h2 : t2 < w) (h : t3 = 0 ∨ t4 = 0 ∨ (t3 < w ∧ t4 < w)) :
    checkTaps w t1 t2 t3 t4 = .ok ⟨t1, t2, t3, t4⟩ := by
  have hbelow : ¬ ∃ i ∈ (⟨t1, t2, t3, t4⟩ : Taps).used, w ≤ i := by
    rintro ⟨i, hi, hw⟩
    have := mem_used.1 hi
    dsimp only at this
    omega
  simp only [checkTaps, Int.toNat_natCast]
  rw [if_neg (by simpa [Int.natCast_nonneg, not_lt] using hbelow)]

theorem checkTaps_outside (h : t1 < 0 ∨ t2 < 0 ∨ t3 < 0 ∨ t4 < 0 ∨ w ≤ t1 ∨ w ≤ t2 ∨
    (t3 ≠ 0 ∧ t4 ≠ 0 ∧ (w ≤ t3 ∨ w ≤ t4))) :
    checkTaps w t1 t2 t3 t4 = .error (.range .taps (.taps t1 t2 t3 t4)) := by
  rw [checkTaps]
  refine if_pos ?_
  by_cases hneg : t1 < 0 ∨ t2 < 0 ∨ t3 < 0 ∨ t4 < 0
  · tauto
  · simp only [mem_used]
    refine .inr (.inr (.inr (.inr ?_)))
    have hwide : w ≤ t1 ∨ w ≤ t2 ∨ (t3 ≠ 0 ∧ t4 ≠ 0 ∧ w ≤ t3) ∨ (t3 ≠ 0 ∧ t4 ≠ 0 ∧ w ≤ t4) := by omega
    obtain hw | hw | ⟨h3, h4, hw⟩ | ⟨h3, h4, hw⟩ := hwide
    · exact ⟨t1.toNat, .inl rfl, by omega⟩
    · exact ⟨t2.toNat, .inr (.inl rfl), by omega⟩
    · exact ⟨t3.toNat, .inr (.inr ⟨by omega, by omega, .inl rfl⟩), by omega⟩
    · exact ⟨t4.toNat, .inr (.inr ⟨by omega, by omega, .inr rfl⟩), by omega⟩

end Checks

section LfsrStep

variable (s : State) {w : Nat} (hw : 1 ≤ w) (hw' : w ≤ 16) {t1 t2 t3 t4 : Nat} (h1 : t1 < w) (h2 : t2 < w)
  (h34 : t3 = 0 ∨ t4 = 0 ∨ (t3 < w ∧ t4 < w))
include hw hw'

theorem checkWidth_natCast : checkWidth w = .ok w := by
  rw [checkWidth_within (by omega) (by omega), Int.toNat_natCast]

theorem exec_lfsrStep_bad_taps {r t1 t2 t3 t4 : Int}
    (h : t1 < 0 ∨ t2 < 0 ∨ t3 < 0 ∨ t4 < 0 ∨ w ≤ t1 ∨ w ≤ t2 ∨ (t3 ≠ 0 ∧ t4 ≠ 0 ∧ (w ≤ t3 ∨ w ≤ t4))) :
    exec (.lfsrStep r w t1 t2 t3 t4) s = .next { s with result := .error (.range .taps (.taps t1 t2 t3 t4)) } := by
  simp [exec_lfsrStep, execLfsrStep, checkWidth_natCast hw hw', checkTaps_outside h]

include h1 h2 h34

theorem exec_lfsrStep_within {r : Nat} (hr : r < 2 ^ w) : exec (.lfsrStep r w t1 t2 t3 t4) s =
    .next { s with result := .value (2 * r % 2 ^ w + feedback r ⟨t1, t2, t3, t4⟩) } := by
  rw [exec_lfsrStep_ok (checkWidth_natCast hw hw') (checkTaps_used h1 h2 h34)
    (checkMax_natCast .register (Nat.le_pred_of_lt hr)), lfsrNext_eq hw]

theorem exec_lfsrStep_bad_register {r : Int} (hr : r < 0 ∨ 2 ^ w ≤ r) :
    exec (.lfsrStep r w t1 t2 t3 t4) s = .next { s with result := .error (.range .register (.int r)) } := by
  have hmax : r < 0 ∨ ((2 ^ w - 1 : Nat) : Int) < r := by
    rw [Nat.cast_sub Nat.one_le_two_pow]
    push_cast
    omega
  simp [exec_lfsrStep, execLfsrStep, checkWidth_natCast hw hw', checkTaps_used h1 h2 h34,
    checkMax_outside .register hmax]

end LfsrStep

theorem exec_lfsrStep_bad_width {w : Int} (hw : w < 1 ∨ 16 < w) (r t1 t2 t3 t4 : Int) (s : State) :
    exec (.lfsrStep r w t1 t2 t3 t4) s = .next { s with result := .error (.range .width (.int w)) } := by
  simp [exec_lfsrStep, execLfsrStep, checkWidth_outside hw]

/-! An OPEN kind whose parameters were supplied (R126, R127, R130, R131). The lemmas are about any kind that counts
naturals through the LFSR codec of its own width; iToT and PC4b are the two. -/

/-- The kind `k` runs the LFSR codec of parameters `q`, and takes any natural count (R76, R119). -/
structure RunsLfsr (par : Params) (k : Kind) (q : LfsrSpec) : Prop where
  table : kindTable par k = .ok (.lfsr q)
  width : kindWidth k = q.width
  count : ∀ n, checkCount k n = checkNat .count n

theorem itot_runsLfsr {par : Params} {p : LfsrParams 14} (h : par.itot = some p) :
    RunsLfsr par .itot (openSpec p) := ⟨by rw [kindTable, h], rfl, fun _ => rfl⟩

theorem pc4b_runsLfsr {par : Params} {p : LfsrParams 4} (h : par.pc4b = some p) :
    RunsLfsr par .pc4b (openSpec p) := ⟨by rw [kindTable, h], rfl, fun _ => rfl⟩

/-! The codec's two functions, case by case (R112, R114). -/

section Codec

variable {q : LfsrSpec} {v n : Nat}

theorem lfsrDec_overflow (hovf : q.ovf = true) (hv : v = q.ovv) : lfsrDec q v = Decoded.found (q.seed - 1) := by
  rw [lfsrDec, if_pos ⟨hovf, hv⟩]

theorem lfsrDec_first (hovf : ¬ (q.ovf = true ∧ v = q.ovv)) (hn : n < q.seed)
    (hv : (lfsrNext q.width q.taps)^[n] q.seed = v)
    (hfirst : ∀ j < n, (lfsrNext q.width q.taps)^[j] q.seed ≠ v) : lfsrDec q v = Decoded.found n := by
  rw [lfsrDec, if_neg hovf, lfsrSearch_found 0 hfirst hv hn, Nat.zero_add]

theorem lfsrDec_unmatched (hovf : ¬ (q.ovf = true ∧ v = q.ovv))
    (hnone : ∀ j < q.seed, (lfsrNext q.width q.taps)^[j] q.seed ≠ v) : lfsrDec q v = Decoded.unmatched := by
  rw [lfsrDec, if_neg hovf, lfsrSearch_unmatched 0 hnone]

/-- Maximal-length taps (R29): the orbit of the seed first returns after `2^w - 1` steps. -/
theorem minimalPeriod_of_maximal (hq : q.maximal) (hpos : 0 < q.seed) :
    Function.minimalPeriod (lfsrNext q.width q.taps) q.seed = q.seed := by
  obtain ⟨hback, hno⟩ := hq
  refine le_antisymm (Function.IsPeriodicPt.minimalPeriod_le hpos hback) (not_lt.1 fun hlt => ?_)
  exact hno _ (Function.IsPeriodicPt.minimalPeriod_pos hpos hback) hlt (Function.isPeriodicPt_minimalPeriod _ _)

/-- On the orbit of maximal-length taps every register decodes to its own index. -/
theorem lfsrDec_iterate (hq : q.maximal) (hn : n < q.seed)
    (hovf : q.ovf = true → (lfsrNext q.width q.taps)^[q.seed - 1] q.seed = q.ovv) :
    lfsrDec q ((lfsrNext q.width q.taps)^[n] q.seed) = Decoded.found n := by
  have hperiod := minimalPeriod_of_maximal hq (by omega)
  rw [lfsrDec]
  split
  next h =>
    have hlast : n = q.seed - 1 := (Function.iterate_eq_iterate_iff_of_lt_minimalPeriod (by omega) (by omega)).1
      (h.2.trans (hovf h.1).symm)
    rw [hlast]
  next h => exact lfsrSearch_iterate (by omega) hn

theorem lfsrEnc_modulo (hq : q.maximal) (hpos : 0 < q.seed) (hovf : q.ovf = false) (n : Nat) :
    lfsrEnc q n = (lfsrNext q.width q.taps)^[n % q.seed] q.seed := by
  have hmod := Function.iterate_mod_minimalPeriod_eq (f := lfsrNext q.width q.taps) (x := q.seed) (n := n)
  rw [minimalPeriod_of_maximal hq hpos] at hmod
  rw [lfsrEnc, if_neg (by simp [hovf]), hmod]

theorem lfsrEnc_capped (hovf : q.ovf = true) (hovv : (lfsrNext q.width q.taps)^[q.seed - 1] q.seed = q.ovv)
    (n : Nat) : lfsrEnc q n = (lfsrNext q.width q.taps)^[min n (q.seed - 1)] q.seed := by
  rw [lfsrEnc]
  split
  next h => rw [min_eq_right h.2, hovv]
  next h => rw [min_eq_left (by by_contra hn; exact h ⟨hovf, by omega⟩)]

end Codec

/-! The operations of such a kind. -/

section Ops

variable {s : State} {k : Kind} {q : LfsrSpec} (hk : RunsLfsr s.par k q)
include hk

theorem encodeOp_lfsr (n : Nat) : encodeOp k n s = .next { s with result := .value (lfsrEnc q n) } :=
  encodeOp_ok (c := .lfsr q) ((hk.count n).trans (checkNat_natCast .count n)) hk.table

theorem decodeOpMarked_lfsr {v : Nat} (hv : v < 2 ^ q.width) {d : Decoded} (hd : lfsrDec q v = d) :
    decodeOpMarked k v s = .next { s with result := .counted d.count d.ambiguous } := by
  have hvalue : checkValue k v = .ok v := checkMax_natCast .value (by rw [hk.width]; omega)
  rw [← hd]
  exact decodeOpMarked_ok (c := .lfsr q) hvalue hk.table

/-- R115 without overflow: the count comes back modulo the period. -/
theorem roundTrip_modulo (hq : q.maximal) (hw : 1 ≤ q.width) (hovf : q.ovf = false) (n : Nat) :
    ∃ v : Nat, encodeOp k n s = .next { s with result := .value v } ∧
      decodeOpMarked k v s = .next { s with result := .counted (n % q.seed) false } := by
  have hpos : 0 < q.seed := Nat.sub_pos_of_lt (Nat.one_lt_two_pow (by omega))
  refine ⟨_, encodeOp_lfsr hk n, decodeOpMarked_lfsr hk (d := Decoded.found _) ?_ ?_⟩
  · rw [lfsrEnc_modulo hq hpos hovf]
    exact lfsr_iterate_lt hw _ (seed_lt q) _
  · rw [lfsrEnc_modulo hq hpos hovf]
    exact lfsrDec_iterate hq (Nat.mod_lt n hpos) fun h => absurd h (by simp [hovf])

/-- R115 with overflow: the count comes back capped at the index of the overflow value. -/
theorem roundTrip_capped (hq : q.maximal) (hw : 1 ≤ q.width) (hovf : q.ovf = true)
    (hovv : (lfsrNext q.width q.taps)^[q.seed - 1] q.seed = q.ovv) (n : Nat) :
    ∃ v : Nat, encodeOp k n s = .next { s with result := .value v } ∧
      decodeOpMarked k v s = .next { s with result := .counted (min n (q.seed - 1)) false } := by
  have hpos : 0 < q.seed := Nat.sub_pos_of_lt (Nat.one_lt_two_pow (by omega))
  refine ⟨_, encodeOp_lfsr hk n, decodeOpMarked_lfsr hk (d := Decoded.found _) ?_ ?_⟩
  · rw [lfsrEnc_capped hovf hovv]
    exact lfsr_iterate_lt hw _ (seed_lt q) _
  · rw [lfsrEnc_capped hovf hovv]
    exact lfsrDec_iterate hq (by omega) fun _ => hovv

end Ops

/-! Operands outside their domain, and missing parameters (R76, D4, D5). -/

section Refusals

variable {k : Kind} (s : State)

theorem encodeOp_neg (hk : ∀ n, checkCount k n = checkNat .count n) {n : Int} (hn : n < 0) :
    encodeOp k n s = .next { s with result := .error (.range .count (.int n)) } :=
  encodeOp_bad ((hk n).trans (checkNat_neg .count hn))

theorem decodeOpMarked_outside {v : Int} (hv : v < 0 ∨ ((2 ^ kindWidth k : Nat) : Int) ≤ v) :
    decodeOpMarked k v s = .next { s with result := .error (.range .value (.int v)) } := by
  refine decodeOpMarked_bad (checkMax_outside .value ?_)
  rw [Nat.cast_sub Nat.one_le_two_pow]
  omega

variable {s} {o : OperandName} {i : InfoValue} (hk : kindTable s.par k = .error (.range o i))
include hk

theorem encodeOp_missing (hcount : ∀ n, checkCount k n = checkNat .count n) (n : Int) :
    ∃ o v, encodeOp k n s = .next { s with result := .error (.range o v) } := by
  obtain hn | hn := lt_or_ge n 0
  · exact ⟨_, _, encodeOp_neg s hcount hn⟩
  · refine ⟨o, i, ?_⟩
    simp [encodeOp, encodeKind_missing ((hcount n).trans (checkNat_nonneg .count hn)) hk]

theorem decodeOpMarked_missing (v : Int) :
    ∃ o i, decodeOpMarked k v s = .next { s with result := .error (.range o i) } := by
  cases hv : checkValue k v with
  | ok n => exact ⟨o, i, by simp [decodeOpMarked, decodeKind_missing hv hk]⟩
  | error e =>
    obtain ⟨-, rfl⟩ := checkMax_eq_error.1 hv
    exact ⟨_, _, decodeOpMarked_bad hv⟩

end Refusals

/-! Consecutive Gray values (95_test_vectors.md L2.3). -/

/-- Counting up by one flips the trailing ones and the zero above them. -/
theorem exists_xor_succ (n : Nat) : ∃ j, n ^^^ (n + 1) = 2 ^ (j + 1) - 1 := by
  induction n using Nat.strong_induction_on with
  | _ n ih =>
    have hlow : (n ^^^ (n + 1)) % 2 = 1 := by rw [Nat.xor_mod_two_eq]; omega
    have hhigh : (n ^^^ (n + 1)) / 2 = n / 2 ^^^ (n + 1) / 2 := Nat.xor_div_two
    obtain heven | hodd := Nat.mod_two_eq_zero_or_one n
    · rw [show (n + 1) / 2 = n / 2 by omega, Nat.xor_self] at hhigh
      exact ⟨0, by omega⟩
    · obtain ⟨j, hj⟩ := ih (n / 2) (by omega)
      rw [show (n + 1) / 2 = n / 2 + 1 by omega, hj] at hhigh
      have hpos : 0 < 2 ^ (j + 1) := Nat.two_pow_pos _
      refine ⟨j + 1, ?_⟩
      rw [pow_succ 2 (j + 1)]
      omega

/-- The Gray code is linear over XOR (R116). -/
theorem bin2gray_xor (a b : Nat) : bin2gray a ^^^ bin2gray b = bin2gray (a ^^^ b) := by
  refine Nat.eq_of_testBit_eq fun i => ?_
  simp only [Nat.testBit_xor, bin2gray_testBit]
  cases a.testBit i <;> cases b.testBit i <;> simp

theorem bin2gray_allOnes (j : Nat) : bin2gray (2 ^ (j + 1) - 1) = 2 ^ j := by
  refine Nat.eq_of_testBit_eq fun i => ?_
  rw [bin2gray_testBit, Nat.testBit_two_pow_sub_one, Nat.testBit_two_pow_sub_one, Nat.testBit_two_pow]
  by_cases h : i = j
  · simp [h]
  · have : (i < j + 1) = (i + 1 < j + 1) := by simp; omega
    simp [this, Ne.symm h]

/-! The obligations. -/

/-- Settles O9: the step as arithmetic with the feedback of two or four taps, and the three refusals. -/
theorem lfsrStepShiftsInTheFeedback : Obligations.LfsrStepShiftsInTheFeedback := by
  refine ⟨fun s w r t1 t2 t3 t4 hw hw' hr h1 h2 h34 => ?_,
    fun s w r t1 t2 t3 t4 hw hw' hr h1 h2 h3 h4 hne3 hne4 => ?_,
    fun s w r t1 t2 t3 t4 hw => exec_lfsrStep_bad_width hw r t1 t2 t3 t4 s,
    fun s w r t1 t2 t3 t4 hw hw' hbad => ?_,
    fun s w t1 t2 t3 t4 r hw hw' h1 h2 h34 hr => exec_lfsrStep_bad_register s hw hw' h1 h2 h34 hr⟩
  · rw [exec_lfsrStep_within s hw hw' h1 h2 (by omega) hr, feedback_two r h34]
  · rw [exec_lfsrStep_within s hw hw' h1 h2 (by omega) hr, feedback_four r hne3 hne4]
  · obtain ⟨n, rfl⟩ := Int.eq_ofNat_of_zero_le (by omega : 0 ≤ w)
    exact exec_lfsrStep_bad_taps s (by omega) (by omega) hbad

/-- Settles O14: R112 with the supplied taps, at widths 14 and 4. -/
theorem openKindsEncodeByStepping : Obligations.OpenKindsEncodeByStepping := by
  refine ⟨fun s p hp => ⟨encodeOp_lfsr (itot_runsLfsr hp), fun n hn => encodeOp_neg s (fun _ => rfl) hn⟩,
    fun s p hp => ⟨encodeOp_lfsr (pc4b_runsLfsr hp), fun n hn => encodeOp_neg s (fun _ => rfl) hn⟩⟩

/-- Settles O15: R114 with the supplied taps: the overflow test, the first match, no match, a wide value. -/
theorem openKindsDecodeByFirstMatch : Obligations.OpenKindsDecodeByFirstMatch := by
  refine ⟨fun s p hp => ?_, fun s p hp => ?_⟩
  · have hk := itot_runsLfsr hp
    exact ⟨fun v hv hovf heq => decodeOpMarked_lfsr hk hv (lfsrDec_overflow hovf heq),
      fun v n hv hovf hn heq hfirst => decodeOpMarked_lfsr hk hv (lfsrDec_first hovf hn heq hfirst),
      fun v hv hovf hnone => decodeOpMarked_lfsr hk hv (lfsrDec_unmatched hovf hnone),
      fun v hv => decodeOpMarked_outside s hv⟩
  · have hk := pc4b_runsLfsr hp
    exact ⟨fun v hv hovf heq => decodeOpMarked_lfsr hk hv (lfsrDec_overflow hovf heq),
      fun v n hv hovf hn heq hfirst => decodeOpMarked_lfsr hk hv (lfsrDec_first hovf hn heq hfirst),
      fun v hv hovf hnone => decodeOpMarked_lfsr hk hv (lfsrDec_unmatched hovf hnone),
      fun v hv => decodeOpMarked_outside s hv⟩

/-- Settles O16: the operand's check comes first; with it passed, the missing parameters are the error. -/
theorem openKindsWithoutParametersRaiseRangeError : Obligations.OpenKindsWithoutParametersRaiseRangeError := by
  refine ⟨fun s n hp => ?_, fun s n hp => ?_,
    fun s n hn => ⟨encodeOp_neg s (fun _ => rfl) hn, encodeOp_neg s (fun _ => rfl) hn⟩,
    fun s v hv => decodeOpMarked_outside s hv, fun s v hv => decodeOpMarked_outside s hv⟩
  · have hk : kindTable s.par .itot = .error (.range .itotParams .unset) := by rw [kindTable, hp]
    exact ⟨encodeOp_missing hk (fun _ => rfl) n, decodeOpMarked_missing hk n⟩
  · have hk : kindTable s.par .pc4b = .error (.range .pc4bParams .unset) := by rw [kindTable, hp]
    exact ⟨encodeOp_missing hk (fun _ => rfl) n, decodeOpMarked_missing hk n⟩

/-- Settles O17: on a maximal orbit each register decodes to its index, which the encoding reduces or caps. -/
theorem maximalLfsrRoundTrip : Obligations.MaximalLfsrRoundTrip :=
  ⟨fun _ _ hp hq => ⟨roundTrip_modulo (itot_runsLfsr hp) hq (show 1 ≤ 14 by norm_num),
      roundTrip_capped (itot_runsLfsr hp) hq (show 1 ≤ 14 by norm_num)⟩,
    fun _ _ hp hq => ⟨roundTrip_modulo (pc4b_runsLfsr hp) hq (show 1 ≤ 4 by norm_num),
      roundTrip_capped (pc4b_runsLfsr hp) hq (show 1 ≤ 4 by norm_num)⟩⟩

/-- Settles O20: a block of trailing ones is flipped, whose Gray value is one bit. -/
theorem consecutiveToaValuesDifferInOneBit : Obligations.ConsecutiveToaValuesDifferInOneBit := by
  intro s n hn
  obtain ⟨j, hj⟩ := exists_xor_succ n
  have hbit : bin2gray n ^^^ bin2gray (n + 1) = 2 ^ j := by rw [bin2gray_xor, hj, bin2gray_allOnes]
  have hlt : 2 ^ j < 2 ^ 14 := by
    rw [← hbit]
    exact Nat.xor_lt_two_pow (bin2gray_lt (by omega)) (bin2gray_lt (by omega))
  exact ⟨_, _, j, (Nat.pow_lt_pow_iff_right (by norm_num)).1 hlt, hbit, exec_encToa_within hn.le s,
    exec_encToa_within hn s⟩

end Sys2Proof.Proofs.OpenKinds
end

section
/-! PROOFS. The acceptor's operations (43_acceptor.md): the dead-time formulas, the refusals of ACCEPT, which pixel it
writes, and ACCEPT_SEQ as ACCEPT pulse after pulse. -/

namespace Sys2Proof.Proofs.Accepting

open Sys2Proof.Machine Sys2Proof.Laws Sys2Proof.Proofs.Acceptor

/-! DEADTIME (R180). -/

theorem exec_deadtime (p : Int) (code : ModeCode) (f : Rat) (s : State) :
    exec (.deadtime p code f) s = execDeadtime p code f s := rfl

section Deadtime

variable {code : ModeCode} {m : Mode} (hm : checkMode admitsAny code = .ok m) (s : State)
include hm

theorem exec_deadtime_within (p : Nat) {f : Rat} (hf : 0 < f) :
    exec (.deadtime p code f) s = .next { s with result := .seconds (deadTime p m f) } := by
  simp [exec_deadtime, execDeadtime, hm, checkClock_ok .clock hf]

theorem exec_deadtime_neg {p : Int} (hp : p < 0) (f : Rat) :
    exec (.deadtime p code f) s = .next { s with result := .error (.range .previousTot (.int p)) } := by
  simp [exec_deadtime, execDeadtime, hm, checkNat_neg .previousTot hp]

theorem exec_deadtime_bad_clock (p : Nat) {f : Rat} (hf : f ≤ 0) :
    exec (.deadtime p code f) s = .next { s with result := .error (.range .clock (.rat f)) } := by
  simp [exec_deadtime, execDeadtime, hm, checkClock_bad .clock hf]

end Deadtime

theorem exec_deadtime_reserved (p : Int) (f : Rat) (s : State) :
    exec (.deadtime p 3#2 f) s = .next { s with result := .error (.range .mode (.code 3#2)) } := by
  simp [exec_deadtime, execDeadtime, checkMode_reserved]

/-! Refusals of a pulse and of ACCEPT, in the order of the checks (R184, R245). -/

section Refusals

variable {c : Cfg} {m : Mode} {p : PixRec} {start stop : Rat} {e : HardError}

theorem checkOrder_bad {ls : Rat} (hlast : p.lastStart = some ls) (h : start < ls) :
    checkOrder p start = .error (.range .start (.rat start)) := by
  rw [checkOrder, hlast]
  exact if_pos h

theorem presentPulse_bad_pulse (h : checkPulse c start stop = .error e) : presentPulse c m p start stop = .error e := by
  simp [presentPulse, h]

theorem presentPulse_bad_order (h : checkPulse c start stop = .ok ()) (ho : checkOrder p start = .error e) :
    presentPulse c m p start stop = .error e := by
  simp [presentPulse, h, ho]

variable {pix : PixSpace}

theorem acceptPulse_no_acquisition (hm : c.mode = none) (a : Int) (start stop : Rat) :
    acceptPulse c pix a start stop = .error (.range .mode .unset) := by
  simp [acceptPulse, acqMode, hm]

theorem acceptPulse_bad_address (hm : c.mode = some m) {a : Int} (ha : a < 0 ∨ 65535 < a) (start stop : Rat) :
    acceptPulse c pix a start stop = .error (.range .address (.int a)) := by
  simp [acceptPulse, acqMode, hm, checkMax_outside .address (hi := 65535) ha]

/-- With the acquisition and the address in order, ACCEPT presents the pulse to its pixel's record. -/
theorem acceptPulse_of_address (hm : c.mode = some m) {a : Nat} (ha : a ≤ 65535) :
    acceptPulse c pix a start stop = (presentPulse c m (pix.read a) start stop).map fun r => (a, r.1, r.2) := by
  simp only [acceptPulse, acqMode, hm, checkMax_natCast .address ha, except_ok_bind]
  cases presentPulse c m (pix.read a) start stop <;> rfl

theorem exec_accept_of_error {a : Int} {s : State} (h : acceptPulse s.cfg s.pix a start stop = .error e) :
    exec (.accept a start stop) s = .next { s with result := .error e } := by
  rw [exec_accept, execAccept, h]; rfl

theorem exec_accept_of_record {a : Int} {s : State} {n : Nat} {r : PixRec} {v : Verdict}
    (h : acceptPulse s.cfg s.pix a start stop = .ok (n, r, v)) :
    exec (.accept a start stop) s = .next (s.recordPulse n r v) := by
  rw [exec_accept, execAccept, h]

theorem exec_accept_of_pulse_error {a : Nat} {s : State} (hm : s.cfg.mode ≠ none) (ha : a ≤ 65535)
    (h : ∀ m, presentPulse s.cfg m (s.pix.read a) start stop = .error e) :
    exec (.accept a start stop) s = .next { s with result := .error e } := by
  obtain ⟨m, hm⟩ := Option.ne_none_iff_exists'.1 hm
  refine exec_accept_of_error ?_
  rw [acceptPulse_of_address hm ha, h m]; rfl

end Refusals

/-! What ACCEPT reads and writes: one pixel (R62, R184). -/

section OnePixel

variable {c : Cfg} {pix pix' : PixSpace} {start stop : Rat}

/-- ACCEPT reads no other pixel. -/
theorem acceptPulse_congr {a : Int} (h : ∀ n : Nat, a = n → pix.read n = pix'.read n) :
    acceptPulse c pix a start stop = acceptPulse c pix' a start stop := by
  have hread : ∀ n, checkMax .address 65535 a = .ok n → pix.read n = pix'.read n :=
    fun n hn => h n (checkMax_eq_ok.1 hn).1
  cases hn : checkMax .address 65535 a with
  | ok n => simp [acceptPulse, hn, hread n hn]
  | error e => simp [acceptPulse, hn]

/-- All that an ACCEPT can end in: an error, or the record of its own pixel written. -/
theorem exec_accept_cases (a : Int) (start stop : Rat) (s : State) :
    (∃ e, acceptPulse s.cfg s.pix a start stop = .error e ∧
      exec (.accept a start stop) s = .next { s with result := .error e }) ∨
    (∃ (n : Nat) (r : PixRec) (v : Verdict), a = n ∧ acceptPulse s.cfg s.pix a start stop = .ok (n, r, v) ∧
      exec (.accept a start stop) s = .next (s.recordPulse n r v)) := by
  cases h : acceptPulse s.cfg s.pix a start stop with
  | error e => exact .inl ⟨e, rfl, exec_accept_of_error h⟩
  | ok r =>
    obtain ⟨n, r, v⟩ := r
    obtain ⟨-, -, ha, -⟩ := acceptPulse_eq_ok.1 h
    exact .inr ⟨n, r, v, ha, rfl, exec_accept_of_record h⟩

end OnePixel

theorem pixSpace_write_comm {p : PixSpace} (hp : p.wf) {a b : Nat} (h : a ≠ b) (r r' : PixRec) :
    (p.write a r).write b r' = (p.write b r').write a r := by
  obtain ⟨hrising, -⟩ := hp
  exact putAt_comm hrising h.symm _ _

/-- ACCEPT on `b` after ACCEPT on another pixel answers as it would have before it. -/
theorem acceptPulse_after_write {c : Cfg} {pix : PixSpace} {n : Nat} {b : Int} (h : b ≠ n) (r : PixRec)
    (start stop : Rat) : acceptPulse c (pix.write n r) b start stop = acceptPulse c pix b start stop :=
  acceptPulse_congr fun k hk => pixSpace_read_write_other (fun hkn => h (by rw [hk, hkn])) r

/-! Folds of the acceptor (R185): when one answers, and that it answers one outcome per pulse. -/

section Fold

variable {c : Cfg} {m : Mode} {p : PixRec} {ps : List Pulse} {vs : List Verdict}

theorem acceptFold_length (h : acceptFold c m p ps = .ok vs) : vs.length = ps.length := by
  induction ps generalizing p vs with
  | nil =>
    obtain rfl : [] = vs := by simpa [acceptFold] using h
    rfl
  | cons q qs ih =>
    obtain ⟨r, ws, -, hrest, rfl⟩ := acceptFold_cons_eq_ok.1 h
    rw [List.length_cons, List.length_cons, ih hrest]

/-- What a fold asks of its pulses: the time domain, and starts in order from the record's last one. -/
structure Presentable (c : Cfg) (p : PixRec) (ps : List Pulse) : Prop where
  domain : ∀ q ∈ ps, c.epoch ≤ q.start ∧ q.start ≤ q.stop
  last : ∀ ls, p.lastStart = some ls → ∀ q ∈ ps, ls ≤ q.start
  sorted : ps.Pairwise fun q q' => q.start ≤ q'.start

theorem presentable_cons {q : Pulse} {qs : List Pulse} {r : PixRec} (hr : r.lastStart = some q.start) :
    Presentable c p (q :: qs) ↔
      (c.epoch ≤ q.start ∧ q.start ≤ q.stop ∧ ∀ ls, p.lastStart = some ls → ls ≤ q.start) ∧ Presentable c r qs := by
  constructor
  · rintro ⟨hdomain, hlast, hsorted⟩
    obtain ⟨hfirst, hrest⟩ := List.pairwise_cons.1 hsorted
    obtain ⟨hq, hqs⟩ := List.forall_mem_cons.1 hdomain
    refine ⟨⟨hq.1, hq.2, fun ls h => hlast ls h q (by simp)⟩, hqs, fun ls h => ?_, hrest⟩
    obtain rfl : q.start = ls := Option.some.inj (hr.symm.trans h)
    exact hfirst
  · rintro ⟨⟨hepoch, hpulse, hlast⟩, hdomain, hnext, hsorted⟩
    have hfirst := hnext q.start hr
    refine ⟨List.forall_mem_cons.2 ⟨⟨hepoch, hpulse⟩, hdomain⟩, fun ls h => ?_, List.pairwise_cons.2 ⟨hfirst, hsorted⟩⟩
    exact List.forall_mem_cons.2 ⟨hlast ls h, fun q' hq' => (hlast ls h).trans (hfirst q' hq')⟩

/-- A fold answers exactly on the sequences it can present whole. -/
theorem acceptFold_answers_iff : (∃ vs, acceptFold c m p ps = .ok vs) ↔ Presentable c p ps := by
  induction ps generalizing p with
  | nil => exact ⟨fun _ => ⟨by simp, by simp, .nil⟩, fun _ => ⟨[], rfl⟩⟩
  | cons q qs ih =>
    have hlast := acceptStep_lastStart c m p q.start q.stop
    rw [presentable_cons hlast, ← ih]
    constructor
    · rintro ⟨vs, h⟩
      obtain ⟨r, ws, hpresent, hrest, -⟩ := acceptFold_cons_eq_ok.1 h
      obtain ⟨hepoch, hpulse, horder, rfl⟩ := presentPulse_eq_ok.1 hpresent
      exact ⟨⟨hepoch, hpulse, horder⟩, ws, hrest⟩
    · rintro ⟨⟨hepoch, hpulse, horder⟩, ws, hrest⟩
      exact ⟨_, acceptFold_cons_eq_ok.2
        ⟨_, ws, presentPulse_eq_ok.2 ⟨hepoch, hpulse, horder, rfl⟩, hrest, rfl⟩⟩

end Fold

/-! ACCEPT_SEQ and ACCEPT (R82, R185). -/

theorem exec_acceptSeq_reserved (ps : List Pulse) (s : State) :
    exec (.acceptSeq 3#2 ps) s = .next { s with result := .error (.range .mode (.code 3#2)) } := by
  simp [exec_acceptSeq, execAcceptSeq, checkMode_reserved]

theorem exec_acceptSeq_of_error {code : ModeCode} {m : Mode} {ps : List Pulse} {e : HardError} {s : State}
    (hm : checkMode admitsAny code = .ok m) (h : acceptFold s.cfg m PixRec.init ps = .error e) :
    exec (.acceptSeq code ps) s = .next { s with result := .error e } := by
  simp [exec_acceptSeq, execAcceptSeq, hm, h]

/-- The simulation behind R185: ACCEPT after ACCEPT on one pixel runs the fold from that pixel's record. -/
theorem acceptEach_eq_acceptFold {m : Mode} {a : Nat} (ha : a ≤ 65535) (ps : List Pulse) {s : State}
    (hm : s.cfg.mode = some m) (hs : s.pix.wf) :
    acceptEach a s ps = acceptFold s.cfg m (s.pix.read a) ps := by
  induction ps generalizing s with
  | nil => rfl
  | cons q qs ih =>
    have hpulse := acceptPulse_of_address (start := q.start) (stop := q.stop) (pix := s.pix) hm ha
    rw [acceptEach, acceptFold]
    cases hpresent : presentPulse s.cfg m (s.pix.read a) q.start q.stop with
    | error e =>
      rw [hpresent] at hpulse
      rw [exec_accept_of_error hpulse]
    | ok rv =>
      obtain ⟨r, v⟩ := rv
      rw [hpresent] at hpulse
      have hrest := ih (s := s.recordPulse a r v) hm (pixSpace_write_wf hs (Nat.lt_succ_of_le ha) r)
      rw [recordPulse_cfg, recordPulse_pix, pixSpace_read_write_same hs] at hrest
      rw [exec_accept_of_record hpulse]
      dsimp only [recordPulse_result]
      rw [hrest]
      cases acceptFold s.cfg m r qs <;> rfl

/-! The obligations. -/

/-- Settles O29: R180's formula in the three modes, and its refusals in order. -/
theorem deadTimeFormulas : Obligations.DeadTimeFormulas := by
  refine ⟨fun s p f hf => ⟨exec_deadtime_within (m := .toaAndTot) rfl s p hf,
      exec_deadtime_within (m := .toaOnly) rfl s p hf, exec_deadtime_within (m := .tick3) rfl s p hf⟩,
    fun s p f => exec_deadtime_reserved p f s, fun s p code f hcode hp => ?_, fun s p code f hcode hf => ?_⟩
  · obtain ⟨m, hm⟩ := exists_checkMode_of_ne_reserved hcode
    exact exec_deadtime_neg hm s hp f
  · obtain ⟨m, hm⟩ := exists_checkMode_of_ne_reserved hcode
    exact exec_deadtime_bad_clock hm s p hf

/-- Settles O32: each refusal is that of the first check that fails. -/
theorem acceptRefusesInOrder : Obligations.AcceptRefusesInOrder := by
  refine ⟨fun s a start stop hm => ⟨_, exec_accept_of_error (acceptPulse_no_acquisition hm a start stop)⟩,
    fun s a start stop hm ha => ?_,
    fun s a start stop hm ha h => exec_accept_of_pulse_error hm ha fun _ =>
      presentPulse_bad_pulse (checkPulse_early stop h),
    fun s a start stop hm ha h h' => exec_accept_of_pulse_error hm ha fun _ =>
      presentPulse_bad_pulse (checkPulse_reversed h h'),
    fun s a start stop ls hm ha h h' hlast hls => exec_accept_of_pulse_error hm ha fun _ =>
      presentPulse_bad_order (checkPulse_ok h h') (checkOrder_bad hlast hls)⟩
  obtain ⟨m, hm⟩ := Option.ne_none_iff_exists'.1 hm
  exact exec_accept_of_error (acceptPulse_bad_address hm ha start stop)

/-- Settles O33: an ACCEPT ends in an error or in one write, whose record is the acceptor step's. -/
theorem acceptWritesItsOwnPixelOnly : Obligations.AcceptWritesItsOwnPixelOnly := by
  intro s t a start stop hexec
  obtain ⟨e, -, h⟩ | ⟨n, r, v, ha, hpulse, h⟩ := exec_accept_cases a start stop s <;>
    obtain rfl := Host.Outcome.next.inj (h.symm.trans hexec)
  · exact ⟨fun _ _ => rfl, fun v hv => by cases hv⟩
  · obtain rfl : a = n := Nat.cast_injective ha
    refine ⟨fun c hc => pixSpace_read_write_other hc r, fun w hw hwf => ?_⟩
    obtain rfl : v = w := Result.verdict.inj hw
    obtain ⟨m, -, -, -, hpresent⟩ := acceptPulse_eq_ok.1 hpulse
    rw [recordPulse_pix, pixSpace_read_write_same hwf]
    by_cases hv : v = .accept
    · subst hv
      obtain ⟨-, -, -, -, rfl⟩ := presentPulse_accepted hpresent
      exact ⟨rfl, fun _ => ⟨rfl, rfl⟩, fun hne => absurd rfl hne⟩
    · obtain rfl := presentPulse_rejected hpresent hv
      exact ⟨rfl, fun heq => absurd heq hv, fun _ => ⟨rfl, rfl, rfl⟩⟩

/-- Settles O34: neither ACCEPT reads the pixel that the other writes, and writes to two pixels commute. -/
theorem acceptsOnDistinctPixelsCommute : Obligations.AcceptsOnDistinctPixelsCommute := by
  intro s a b start stop start' stop' hab hs
  obtain ⟨e, hpa, ha⟩ | ⟨n, r, v, rfl, hpa, ha⟩ := exec_accept_cases a start stop s <;>
    obtain ⟨e', hpb, hb⟩ | ⟨n', r', v', rfl, hpb, hb⟩ := exec_accept_cases b start' stop' s
  · exact ⟨_, _, _, _, ha, exec_accept_of_error hpb, hb, exec_accept_of_error hpa, rfl, rfl, rfl⟩
  · exact ⟨_, _, _, _, ha, exec_accept_of_record hpb, hb,
      exec_accept_of_error ((acceptPulse_after_write hab _ _ _).trans hpa), rfl, rfl, rfl⟩
  · exact ⟨_, _, _, _, ha, exec_accept_of_error ((acceptPulse_after_write hab.symm _ _ _).trans hpb), hb,
      exec_accept_of_record hpa, rfl, rfl, rfl⟩
  · exact ⟨_, _, _, _, ha, exec_accept_of_record ((acceptPulse_after_write hab.symm _ _ _).trans hpb), hb,
      exec_accept_of_record ((acceptPulse_after_write hab _ _ _).trans hpa),
      pixSpace_write_comm hs (fun h => hab (congrArg _ h)) r r', rfl, rfl⟩

/-- Settles O35: both run the acceptor's fold, ACCEPT_SEQ from the initial record and ACCEPT from the pixel's. -/
theorem acceptSeqIsAcceptPulseByPulse : Obligations.AcceptSeqIsAcceptPulseByPulse := by
  refine ⟨fun s code m a ps hcode hm ha hs hinit => ?_, fun s ps => exec_acceptSeq_reserved ps s⟩
  rw [acceptEach_eq_acceptFold ha ps hm hs, hinit]
  cases hfold : acceptFold s.cfg m PixRec.init ps with
  | ok vs => exact (exec_acceptSeq_eq_verdicts (checkMode_acceptor hcode)).2 hfold
  | error e => exact exec_acceptSeq_of_error (checkMode_acceptor hcode) hfold

/-- Settles O36: a sorted sequence in the time domain can be presented whole to a fresh pixel. -/
theorem acceptSeqAnswersEverySortedSequence : Obligations.AcceptSeqAnswersEverySortedSequence := by
  intro s code ps hcode hdomain hsorted
  obtain ⟨m, hm⟩ := exists_checkMode_of_ne_reserved hcode
  have hfresh : Presentable s.cfg PixRec.init ps := ⟨hdomain, fun _ h => (by cases h), hsorted⟩
  obtain ⟨vs, hvs⟩ := acceptFold_answers_iff (m := m).2 hfresh
  exact ⟨vs, acceptFold_length hvs, (exec_acceptSeq_eq_verdicts hm).2 hvs⟩

end Sys2Proof.Proofs.Accepting
end

section
/-! PROOFS. Packets and streams (44_packet.md): PKT_DIS, the byte port's round trip, the mode mismatch of R265, the
batches that ENC_STREAM answers, and the packets it merges. -/

namespace Sys2Proof.Proofs.Encodable

open Sys2Proof.Machine Sys2Proof.Laws Sys2Proof.Proofs.Address Sys2Proof.Proofs.Counters Sys2Proof.Proofs.Time
  Sys2Proof.Proofs.Packet Sys2Proof.Proofs.Stream Sys2Proof.Proofs.Encoding Sys2Proof.Proofs.Accepting

/-! PKT_DIS (R201): its two refusals. -/

theorem disassemble_outside (h : HeaderCheck) {w : Int} (hw : w < 0 ∨ 2 ^ 48 ≤ w) :
    disassemble h w = .error (.range .word (.int w)) := by
  rw [disassemble, checkMax_outside .word (by norm_num; omega)]; rfl

theorem disassemble_bad_header {w : Nat} (hw : w < 2 ^ 48) (hh : w / 2 ^ 44 ≠ 10) :
    disassemble .strict w = .error (.range .header (.int (w / 2 ^ 44 : Nat))) := by
  have hheader : checkHeader .strict w = .error (.range .header (.int (w / 2 ^ 44 : Nat))) := by
    rw [checkHeader, slice_header_eq hw]
    exact if_pos ⟨rfl, hh⟩
  rw [disassemble, checkMax_natCast .word (by omega), except_ok_bind, hheader]; rfl

/-! ENC_STREAM raises no error but RangeError (R220): so do the checks and functions it runs. -/

/-- The only errors of `r` are of kind RangeError. -/
def RangeErrors {α : Type} (r : Except HardError α) : Prop := ∀ e, r = .error e → ∃ n v, e = .range n v

section RangeErrors

variable {α β : Type}

theorem rangeErrors_ok (a : α) : RangeErrors (.ok a) := fun _ h => by cases h

theorem rangeErrors_range (n : OperandName) (v : InfoValue) : RangeErrors (.error (.range n v) : Except HardError α) :=
  fun _ h => ⟨n, v, (Except.error.inj h).symm⟩

theorem rangeErrors_of_eq {x : Except HardError α} (hx : RangeErrors x) {e : HardError} (h : x = .error e) :
    RangeErrors (.error e : Except HardError β) := by
  obtain ⟨n, v, rfl⟩ := hx e h
  exact rangeErrors_range n v

theorem rangeErrors_bind {x : Except HardError α} {f : α → Except HardError β} (hx : RangeErrors x)
    (hf : ∀ a, RangeErrors (f a)) : RangeErrors (x >>= f) := by
  intro e he
  obtain h | ⟨a, -, h⟩ := bind_eq_error.1 he
  · exact hx e h
  · exact hf a e h

theorem rangeErrors_mapUntilError {f : α → Except HardError β} (hf : ∀ a, RangeErrors (f a)) (as : List α) :
    RangeErrors (mapUntilError f as) := by
  intro e he
  obtain ⟨_, a, _, -, -, h⟩ := mapUntilError_eq_error.1 he
  exact hf a e h

theorem checkMax_rangeErrors (n : OperandName) (hi : Nat) (x : Int) : RangeErrors (checkMax n hi x) := by
  rw [checkMax]
  split
  · exact rangeErrors_range _ _
  · exact rangeErrors_ok _

theorem checkTime_rangeErrors (c : Cfg) (n : OperandName) (t : Rat) : RangeErrors (checkTime c n t) := by
  rw [checkTime]
  split
  · exact rangeErrors_range _ _
  · exact rangeErrors_ok _

theorem checkPulse_rangeErrors (c : Cfg) (start stop : Rat) : RangeErrors (checkPulse c start stop) := by
  obtain h | h := lt_or_ge start c.epoch
  · rw [checkPulse_early stop h]; exact rangeErrors_range _ _
  · obtain h' | h' := lt_or_ge stop start
    · rw [checkPulse_reversed h h']; exact rangeErrors_range _ _
    · rw [checkPulse_ok h h']; exact rangeErrors_ok _

theorem checkOrder_rangeErrors (p : PixRec) (start : Rat) : RangeErrors (checkOrder p start) := by
  rw [checkOrder]
  split
  · exact rangeErrors_ok _
  · split
    · exact rangeErrors_range _ _
    · exact rangeErrors_ok _

theorem timeToToa_rangeErrors (c : Cfg) (n : OperandName) (t : Rat) : RangeErrors (timeToToa c n t) := by
  refine rangeErrors_bind (checkTime_rangeErrors c n t) fun _ => ?_
  dsimp only
  split
  · exact rangeErrors_range _ _
  · exact rangeErrors_ok _

theorem toAddress_rangeErrors (x y : Int) : RangeErrors (toAddress x y) :=
  rangeErrors_bind (checkMax_rangeErrors _ _ _) fun _ => rangeErrors_bind (checkMax_rangeErrors _ _ _) fun _ =>
    rangeErrors_ok _

theorem assemble_rangeErrors (a toa sec ftoa : Int) : RangeErrors (assemble a toa sec ftoa) :=
  rangeErrors_bind (checkMax_rangeErrors _ _ _) fun _ => rangeErrors_bind (checkMax_rangeErrors _ _ _) fun _ =>
    rangeErrors_bind (checkMax_rangeErrors _ _ _) fun _ => rangeErrors_bind (checkMax_rangeErrors _ _ _) fun _ =>
      rangeErrors_ok _

theorem encodeHit_rangeErrors (c : Cfg) (p : Params) (m : Mode) (a : Int) (start stop : Rat) :
    RangeErrors (encodeHit c p m a start stop) :=
  rangeErrors_bind (checkMax_rangeErrors _ _ _) fun _ => rangeErrors_bind
    (rangeErrors_bind (checkPulse_rangeErrors _ _ _) fun _ => rangeErrors_bind (timeToToa_rangeErrors _ _ _) fun _ =>
      rangeErrors_ok _)
    fun _ => assemble_rangeErrors _ _ _ _

theorem acceptFold_rangeErrors (c : Cfg) (m : Mode) (p : PixRec) (ps : List Pulse) :
    RangeErrors (acceptFold c m p ps) := by
  have hpresent (p : PixRec) (start stop : Rat) : RangeErrors (presentPulse c m p start stop) :=
    rangeErrors_bind (checkPulse_rangeErrors _ _ _) fun _ => rangeErrors_bind (checkOrder_rangeErrors _ _) fun _ =>
      rangeErrors_ok _
  induction ps generalizing p with
  | nil => exact rangeErrors_ok _
  | cons q qs ih =>
    rw [acceptFold]
    cases h : presentPulse c m p q.start q.stop with
    | error e => exact rangeErrors_of_eq (hpresent p q.start q.stop) h
    | ok r =>
      dsimp only
      cases h' : acceptFold c m r.1 qs with
      | error e => exact rangeErrors_of_eq (ih r.1) h'
      | ok vs => exact rangeErrors_ok _

theorem addressHits_rangeErrors (c : Cfg) (i : Nat) (hits : List Hit) : RangeErrors (addressHits c i hits) := by
  induction hits generalizing i with
  | nil => exact rangeErrors_ok _
  | cons h hits ih =>
    exact rangeErrors_bind (toAddress_rangeErrors _ _) fun _ => rangeErrors_bind (checkPulse_rangeErrors _ _ _)
      fun _ => rangeErrors_bind (ih (i + 1)) fun _ => rangeErrors_ok _

theorem encodePixel_rangeErrors (c : Cfg) (p : Params) (m : Mode) (hs : List AddressedHit) :
    RangeErrors (encodePixel c p m hs) :=
  rangeErrors_bind (acceptFold_rangeErrors _ _ _ _) fun _ => rangeErrors_mapUntilError (fun _ =>
    rangeErrors_bind (encodeHit_rangeErrors _ _ _ _ _ _) fun _ => rangeErrors_ok _) _

theorem encodeStream_rangeErrors (c : Cfg) (p : Params) (m : Mode) (hits : List Hit) :
    RangeErrors (encodeStream c p m hits) :=
  rangeErrors_bind (addressHits_rangeErrors _ _ _) fun _ => rangeErrors_bind
    (rangeErrors_bind (rangeErrors_mapUntilError (fun _ => encodePixel_rangeErrors _ _ _ _) _) fun _ =>
      rangeErrors_ok _)
    fun _ => rangeErrors_ok _

end RangeErrors

/-! Step 2 of R220, hit by hit: the batches it addresses, and the first hit it refuses. -/

section AddressHits

variable {c : Cfg}

theorem toAddress_within {x y : Int} (hx : 0 ≤ x) (hx' : x ≤ 255) (hy : 0 ≤ y) (hy' : y ≤ 255) :
    ∃ a, toAddress x y = .ok a := by
  obtain ⟨x, rfl⟩ := Int.eq_ofNat_of_zero_le hx
  obtain ⟨y, rfl⟩ := Int.eq_ofNat_of_zero_le hy
  exact ⟨_, toAddress_onGrid (by omega) (by omega)⟩

theorem addressHits_cons_error (i : Nat) {h : Hit} (hits : List Hit) {e : HardError}
    (ha : toAddress h.x h.y = .error e) : addressHits c i (h :: hits) = .error e := by
  simp [addressHits, ha]

theorem addressHits_cons_pulse_error (i : Nat) {h : Hit} (hits : List Hit) {a : Nat} {e : HardError}
    (ha : toAddress h.x h.y = .ok a) (hp : checkPulse c h.start h.stop = .error e) :
    addressHits c i (h :: hits) = .error e := by
  simp [addressHits, ha, hp]

/-- A hit of the domain is addressed, and the batch goes on with the next one. -/
theorem addressHits_cons_inDomain (i : Nat) {h : Hit} (hits : List Hit) (hd : inDomain c h) :
    ∃ g : AddressedHit, addressHits c i (h :: hits) = (addressHits c (i + 1) hits).map (g :: ·) := by
  obtain ⟨hx, hx', hy, hy', hepoch, hpulse⟩ := hd
  obtain ⟨a, ha⟩ := toAddress_within hx hx' hy hy'
  refine ⟨⟨i, a, h.start, h.stop⟩, ?_⟩
  simp only [addressHits, ha, checkPulse_ok hepoch hpulse, except_ok_bind]
  cases addressHits c (i + 1) hits <;> rfl

theorem addressHits_inDomain (i : Nat) {hits : List Hit} (hd : ∀ h ∈ hits, inDomain c h) :
    ∃ hs, addressHits c i hits = .ok hs := by
  induction hits generalizing i with
  | nil => exact ⟨[], rfl⟩
  | cons h hits ih =>
    obtain ⟨hfirst, hrest⟩ := List.forall_mem_cons.1 hd
    obtain ⟨g, hg⟩ := addressHits_cons_inDomain i hits hfirst
    obtain ⟨hs, hhs⟩ := ih (i + 1) hrest
    exact ⟨g :: hs, by rw [hg, hhs]; rfl⟩

/-- The hits before the first bad one do not change its error (R245). -/
theorem addressHits_first_bad {pre : List Hit} (hpre : ∀ g ∈ pre, inDomain c g) {hits : List Hit} {e : HardError}
    (h : ∀ i, addressHits c i hits = .error e) (i : Nat) : addressHits c i (pre ++ hits) = .error e := by
  induction pre generalizing i with
  | nil => exact h i
  | cons g pre ih =>
    obtain ⟨hfirst, hrest⟩ := List.forall_mem_cons.1 hpre
    obtain ⟨_, hcons⟩ := addressHits_cons_inDomain i (pre ++ hits) hfirst
    rw [List.cons_append, hcons, ih hrest]; rfl

/-- Only hits of the domain are addressed. -/
theorem inDomain_of_addressHits {i : Nat} {hits : List Hit} {hs : List AddressedHit}
    (h : addressHits c i hits = .ok hs) : ∀ g ∈ hits, inDomain c g := by
  induction hits generalizing i hs with
  | nil => simp
  | cons g hits ih =>
    simp only [addressHits, bind_eq_ok] at h
    obtain ⟨a, ha, ⟨⟩, hpulse, rest, hrest, -⟩ := h
    obtain ⟨hle, hx, hy⟩ := toAddress_eq_ok ha
    obtain ⟨hxle, hyle⟩ := coordinateOf_onGrid hle
    obtain ⟨hepoch, hstop⟩ := checkPulse_eq_ok.1 hpulse
    exact List.forall_mem_cons.2 ⟨⟨by omega, by omega, by omega, by omega, hepoch, hstop⟩, ih hrest⟩

end AddressHits

/-! Step 3 of R220 for one pixel: it answers on ordered starts whose accepted hits are in the ToA range. -/

section Pixel

variable {c : Cfg} {p : Params} {m : Mode} {hs : List AddressedHit} {vs : List Verdict}

theorem mapUntilError_answers_iff {α β : Type} {f : α → Except HardError β} {as : List α} :
    (∃ bs, mapUntilError f as = .ok bs) ↔ ∀ a ∈ as, ∃ b, f a = .ok b := by
  simp only [mapUntilError_eq_ok]
  induction as with
  | nil => simp
  | cons a as ih => simp [List.forall₂_cons_left_iff, ← ih]

theorem mem_acceptedOf_iff {g : AddressedHit} : g ∈ acceptedOf hs vs ↔ (g, Verdict.accept) ∈ hs.zip vs := by
  simp [acceptedOf]

/-- A hit has its packet when it is in the ToA range (R202). -/
theorem keyedPacket_answers_iff {g : AddressedHit} (ha : g.addr ≤ 65535) (hd : c.epoch ≤ g.start ∧ g.start ≤ g.stop) :
    (∃ k, keyedPacket c p m g = .ok k) ↔ ⌈(g.start - c.epoch) * c.fSys⌉ ≤ 16383 := by
  constructor
  · rintro ⟨k, hk⟩
    obtain ⟨w, hw, -⟩ := bind_eq_ok.1 hk
    obtain ⟨-, -, hspan, -⟩ := encodeHit_eq_ok.1 hw
    exact hspan
  · intro hspan
    exact ⟨_, bind_eq_ok.2 ⟨_, encodeHit_ok ha hd.1 hd.2 hspan, rfl⟩⟩

/-- The starts of a pixel's hits are in order, and its accepted hits are in the ToA range. -/
structure PixelEncodable (c : Cfg) (m : Mode) (hs : List AddressedHit) : Prop where
  order : hs.Pairwise fun g h => g.start ≤ h.start
  range : ∀ vs, acceptFold c m PixRec.init (hs.map pulseOf) = .ok vs →
    ∀ g, (g, Verdict.accept) ∈ hs.zip vs → ⌈(g.start - c.epoch) * c.fSys⌉ ≤ 16383

theorem encodePixel_answers_iff (haddr : ∀ g ∈ hs, g.addr ≤ 65535)
    (hdomain : ∀ g ∈ hs, c.epoch ≤ g.start ∧ g.start ≤ g.stop) :
    (∃ ks, encodePixel c p m hs = .ok ks) ↔ PixelEncodable c m hs := by
  have hpackets (vs : List Verdict) : (∃ ks, mapUntilError (keyedPacket c p m) (acceptedOf hs vs) = .ok ks) ↔
      ∀ g, (g, Verdict.accept) ∈ hs.zip vs → ⌈(g.start - c.epoch) * c.fSys⌉ ≤ 16383 := by
    rw [mapUntilError_answers_iff]
    refine forall_congr' fun g => ?_
    rw [mem_acceptedOf_iff]
    refine imp_congr_right fun hg => ?_
    have hmem : g ∈ hs := (List.of_mem_zip hg).1
    exact keyedPacket_answers_iff (haddr g hmem) (hdomain g hmem)
  constructor
  · rintro ⟨ks, hks⟩
    obtain ⟨vs, hfold, hmap⟩ := bind_eq_ok.1 hks
    obtain ⟨-, -, hsorted⟩ := acceptFold_answers_iff.1 ⟨vs, hfold⟩
    rw [List.pairwise_map] at hsorted
    refine ⟨hsorted, fun vs' hvs' => ?_⟩
    obtain rfl : vs = vs' := Except.ok.inj (hfold.symm.trans hvs')
    exact (hpackets vs).1 ⟨ks, hmap⟩
  · rintro ⟨horder, hrange⟩
    have hfresh : Presentable c PixRec.init (hs.map pulseOf) :=
      ⟨List.forall_mem_map.2 hdomain, fun _ h => (by cases h), List.pairwise_map.2 horder⟩
    obtain ⟨vs, hvs⟩ := acceptFold_answers_iff (m := m).2 hfresh
    obtain ⟨ks, hks⟩ := (hpackets vs).2 (hrange vs hvs)
    exact ⟨ks, bind_eq_ok.2 ⟨vs, hvs, hks⟩⟩

end Pixel

/-! The whole batch (R220). -/

section Batch

variable {c : Cfg} {p : Params} {m : Mode} {hs : List AddressedHit}

theorem encodePixels_answers_iff : (∃ ks, encodePixels c p m hs = .ok ks) ↔
    ∀ a ∈ pixelsOf hs, ∃ ks, encodePixel c p m (hitsOf a hs) = .ok ks := by
  rw [← mapUntilError_answers_iff]
  constructor
  · rintro ⟨ks, hks⟩
    obtain ⟨kss, hkss, -⟩ := bind_eq_ok.1 hks
    exact ⟨kss, hkss⟩
  · rintro ⟨kss, hkss⟩
    exact ⟨_, bind_eq_ok.2 ⟨kss, hkss, rfl⟩⟩

/-- Two hits of the grid are of one pixel when their coordinates agree (R102). -/
theorem hitOf_pixel_eq_iff {g h : AddressedHit} (hg : g.addr ≤ 65535) (hh : h.addr ≤ 65535) :
    ((hitOf g).x = (hitOf h).x ∧ (hitOf g).y = (hitOf h).y) ↔ g.addr = h.addr := by
  constructor
  · rintro ⟨hx, hy⟩
    have hcoord : coordinateOf g.addr = coordinateOf h.addr := Prod.ext (Nat.cast_injective hx) (Nat.cast_injective hy)
    rw [← addressOf_coordinateOf hg, ← addressOf_coordinateOf hh, hcoord]
  · intro h
    simp [hitOf, h]

theorem order_iff (haddr : ∀ g ∈ hs, g.addr ≤ 65535) :
    ((hs.map hitOf).Pairwise fun g h => g.x = h.x → g.y = h.y → g.start ≤ h.start) ↔
      ∀ a, (hitsOf a hs).Pairwise fun g h => g.start ≤ h.start := by
  have hpixel : ((hs.map hitOf).Pairwise fun g h => g.x = h.x → g.y = h.y → g.start ≤ h.start) ↔
      hs.Pairwise fun g h => g.addr = h.addr → g.start ≤ h.start := by
    rw [List.pairwise_map]
    refine List.Pairwise.iff_of_mem fun {g h} hg hh => ?_
    rw [← and_imp, hitOf_pixel_eq_iff (haddr g hg) (haddr h hh)]
    rfl
  rw [hpixel]
  simp only [hitsOf, List.pairwise_filter, decide_eq_true_eq]
  simp only [List.pairwise_iff_forall_sublist]
  constructor
  · rintro hord a g h hsub rfl heq
    exact hord hsub heq.symm
  · intro hord g h hsub heq
    exact hord h.addr hsub heq rfl

theorem range_iff (haddr : ∀ g ∈ hs, g.addr ≤ 65535) :
    (∀ a vs, acceptFold c m PixRec.init ((pixelHits a (hs.map hitOf)).map fun h => ⟨h.start, h.stop⟩) = .ok vs →
      ∀ q ∈ (pixelHits a (hs.map hitOf)).zip vs, q.2 = .accept → ⌈(q.1.start - c.epoch) * c.fSys⌉ ≤ 16383) ↔
      ∀ a vs, acceptFold c m PixRec.init ((hitsOf a hs).map pulseOf) = .ok vs →
        ∀ g, (g, Verdict.accept) ∈ (hitsOf a hs).zip vs → ⌈(g.start - c.epoch) * c.fSys⌉ ≤ 16383 := by
  refine forall_congr' fun a => forall_congr' fun vs => ?_
  rw [pixelHits_map_hitOf haddr, List.map_map, List.zip_map_left, List.forall_mem_map]
  refine imp_congr Iff.rfl ⟨fun h g hg => h (g, .accept) hg rfl, ?_⟩
  rintro h ⟨g, v⟩ hg rfl
  exact h g hg

/-- What `encodable` says of the hits of a batch that step 2 has addressed. -/
theorem encodable_map_hitOf_iff (haddr : ∀ g ∈ hs, g.addr ≤ 65535) (hdomain : ∀ h ∈ hs.map hitOf, inDomain c h) :
    encodable c m (hs.map hitOf) ↔ ∀ a, PixelEncodable c m (hitsOf a hs) := by
  constructor
  · rintro ⟨-, horder, hrange⟩ a
    exact ⟨(order_iff haddr).1 horder a, (range_iff haddr).1 hrange a⟩
  · intro h
    exact ⟨hdomain, (order_iff haddr).2 fun a => (h a).order, (range_iff haddr).2 fun a => (h a).range⟩

theorem pixelEncodable_nil : PixelEncodable c m [] :=
  ⟨.nil, fun _ _ g hg => by simp at hg⟩

/-- ENC_STREAM has words for exactly the encodable batches. -/
theorem encodeStream_answers_iff {hits : List Hit} :
    (∃ ws, encodeStream c p m hits = .ok ws) ↔ encodable c m hits := by
  have haddressed : (∃ ws, encodeStream c p m hits = .ok ws) ↔
      ∃ hs, addressHits c 0 hits = .ok hs ∧ ∃ ks, encodePixels c p m hs = .ok ks := by
    simp [encodeStream, bind_eq_ok]
  rw [haddressed]
  by_cases hdomain : ∀ h ∈ hits, inDomain c h
  · obtain ⟨hs, hhs⟩ := addressHits_inDomain 0 hdomain
    obtain ⟨rfl, haddr⟩ := addressHits_eq_ok hhs
    have htimes : ∀ g ∈ hs, c.epoch ≤ g.start ∧ g.start ≤ g.stop := by
      intro g hg
      obtain ⟨-, -, -, -, htime⟩ := hdomain (hitOf g) (List.mem_map_of_mem hg)
      exact htime
    have hpixel (a : Nat) : (∃ ks, encodePixel c p m (hitsOf a hs) = .ok ks) ↔ PixelEncodable c m (hitsOf a hs) :=
      encodePixel_answers_iff (fun g hg => haddr g (List.mem_of_mem_filter hg))
        fun g hg => htimes g (List.mem_of_mem_filter hg)
    simp only [hhs, Except.ok.injEq, exists_eq_left', encodePixels_answers_iff, hpixel]
    rw [encodable_map_hitOf_iff haddr hdomain]
    refine ⟨fun h a => ?_, fun h a _ => h a⟩
    by_cases ha : a ∈ pixelsOf hs
    · exact h a ha
    · have hnone : hitsOf a hs = [] :=
        List.filter_eq_nil_iff.2 fun g hg hga => ha (mem_pixelsOf.2 ⟨g, hg, by simpa using hga⟩)
      rw [hnone]
      exact pixelEncodable_nil
  · refine iff_of_false ?_ fun h => hdomain h.domain
    rintro ⟨hs, hhs, -⟩
    exact hdomain (inDomain_of_addressHits hhs)

end Batch

section EncStream

variable {code : ModeCode} (hm : code = 0#2 ∨ code = 1#2) {hits : List Hit} {s : State}
include hm

theorem exec_encStream_of_words {ws : List Nat} (h : encodeStream s.cfg s.par (packetMode code) hits = .ok ws) :
    exec (.encStream hits code) s = .next (s.emit ws) := by
  simp [exec_encStream, execEncStream, checkMode_packet hm, h]

theorem exec_encStream_of_error {e : HardError} (h : encodeStream s.cfg s.par (packetMode code) hits = .error e) :
    exec (.encStream hits code) s = .next { s with result := .error e } := by
  simp [exec_encStream, execEncStream, checkMode_packet hm, h]

theorem exec_encStream_first_bad {pre : List Hit} (hpre : ∀ g ∈ pre, inDomain s.cfg g) {e : HardError}
    (h : ∀ i, addressHits s.cfg i hits = .error e) :
    exec (.encStream (pre ++ hits) code) s = .next { s with result := .error e } := by
  refine exec_encStream_of_error hm ?_
  rw [encodeStream, addressHits_first_bad hpre h]; rfl

end EncStream

theorem exec_encStream_mode_refused {code : ModeCode} (h : code = 2#2 ∨ code = 3#2) (hits : List Hit) (s : State) :
    exec (.encStream hits code) s = .next { s with result := .error (.range .mode (.code code)) } := by
  simp [exec_encStream, execEncStream, checkMode_packet_refused h]

/-! The obligations. -/

/-- Settles O39: R72's slices, then the header under `strict`, then the width. -/
theorem packetDisassemblySlicesTheWord : Obligations.PacketDisassemblySlicesTheWord := by
  refine ⟨fun s w hw hh => ?_, fun s w hw hh hstrict => exec_pktDis_eq_error.2 ?_,
    fun s w hw => exec_pktDis_eq_error.2 (disassemble_outside _ hw)⟩
  · rw [exec_pktDis_of_fields (disassemble_ok hw hh), fieldsOf_eq]
  · rw [hstrict]
    exact disassemble_bad_header hw hh

/-- Settles O45: the six bytes of a word deserialise to the word. -/
theorem serialisedWordsReadBack : Obligations.SerialisedWordsReadBack := by
  intro s w hw
  have hback := deserialise_beBytes hw
  exact ⟨writeRecords [] 0 [w], _, _, _, _, _, _, exec_pktSer_within hw s, exec_pktDes_of_word hback s⟩

/-- Settles O53: the dummy secondary 0 is a ToT value that no count has. -/
theorem toaOnlyPacketReadAsToaAndTotIsAmbiguous : Obligations.ToaOnlyPacketReadAsToaAndTotIsAmbiguous := by
  intro s a start stop wt wd hdummy ha h h' hspan
  have hsec : secondaryOf s.par .toaOnly (totOf s.cfg start stop) = 0 := by simp [secondaryOf, hdummy]
  obtain ⟨htoa, -, hftoa⟩ := pulsePacket_fields (p := s.par) (m := .toaOnly) (stop := stop) hspan
  obtain ⟨hlt, hheader, hfields⟩ := packetWord_parts (sec := 0) (Nat.lt_succ_of_le ha) (Nat.lt_succ_of_le htoa)
    (by norm_num) (Nat.lt_succ_of_le hftoa)
  have hword : pulsePacket s.cfg s.par .toaOnly a start stop =
      packetWord a (bin2gray (toaTicks s.cfg start)) 0 (ftoaOf s.cfg s.par.ftoaCount start) := by
    rw [pulsePacket, hsec]
  have henc := encodeHit_ok (p := s.par) (m := .toaOnly) ha h h' hspan
  rw [hword] at henc
  refine ⟨_, _, exec_hitEnc_of_word (.inr rfl) henc, (exec_hitDec_eq_hit (.inl rfl)).2
    (decodeHit_of_fields (disassemble_ok hlt (.inl hheader)) _ _ wt wd), ?_⟩
  rw [recordOf_packetMode, hfields]
  simp [lfsrDec_totSpec_zero, Decoded.unmatched]

/-- Settles O49: ENC_STREAM's words exist exactly for the encodable batches, its errors are RangeErrors, and step 2
names the first hit outside the domain. -/
theorem encStreamAnswersExactlyTheEncodableBatches : Obligations.EncStreamAnswersExactlyTheEncodableBatches := by
  refine ⟨fun s code m hits hcode henc => ?_, fun s code m hits hcode henc => ?_,
    fun s code hits hcode => exec_encStream_mode_refused hcode hits s,
    fun s code pre h post hcode hpre => ⟨fun hx => ?_, fun hx hx' hy => ?_, fun hx hx' hy hy' hstart => ?_,
      fun hx hx' hy hy' hstart hstop => ?_⟩⟩
  · obtain ⟨hm, rfl⟩ := packetMode_of_code hcode
    obtain ⟨ws, hws⟩ := encodeStream_answers_iff.2 henc
    exact ⟨_, _, exec_encStream_of_words hm hws⟩
  · obtain ⟨hm, rfl⟩ := packetMode_of_code hcode
    cases hws : encodeStream s.cfg s.par (packetMode code) hits with
    | ok ws => exact absurd (encodeStream_answers_iff.1 ⟨ws, hws⟩) henc
    | error e =>
      obtain ⟨n, v, rfl⟩ := encodeStream_rangeErrors _ _ _ _ e hws
      exact ⟨n, v, exec_encStream_of_error hm hws⟩
  · exact exec_encStream_first_bad hcode hpre fun i => addressHits_cons_error i post (toAddress_x_outside hx h.y)
  · exact exec_encStream_first_bad hcode hpre fun i => addressHits_cons_error i post (toAddress_y_outside hx hx' hy)
  · obtain ⟨a, ha⟩ := toAddress_within hx hx' hy hy'
    exact exec_encStream_first_bad hcode hpre fun i =>
      addressHits_cons_pulse_error i post ha (checkPulse_early h.stop hstart)
  · obtain ⟨a, ha⟩ := toAddress_within hx hx' hy hy'
    exact exec_encStream_first_bad hcode hpre fun i =>
      addressHits_cons_pulse_error i post ha (checkPulse_reversed hstart hstop)

/-- Settles O50: the words behind the bytes are the merged packets of the accepted hits. -/
theorem encStreamMergesTheAcceptedPackets : Obligations.EncStreamMergesTheAcceptedPackets := by
  intro s t code m hits bytes hcode hexec hbytes
  obtain ⟨hm, rfl⟩ := packetMode_of_code hcode
  obtain ⟨ws, hws, hflat⟩ := exec_encStream_eq_bytes hm hexec hbytes
  obtain ⟨hperm, hsorted, -⟩ := encodeStream_eq_ok hws
  exact ⟨ws, hflat, hperm, hsorted⟩

end Sys2Proof.Proofs.Encodable
end

section
/-! PROOFS. What an operation asks of its operands and reads of the state (30_encoding.md section 4,
70_reset_and_hazards.md): an operand outside its domain is refused, and the operations that write no state read the
clocks, the epoch and the parameters alone. -/

namespace Sys2Proof.Proofs.Domains

open Sys2Proof.Machine Sys2Proof.Laws Sys2Proof.Proofs.Acceptor Sys2Proof.Proofs.Packet Sys2Proof.Proofs.Stream
  Sys2Proof.Proofs.OpenKinds Sys2Proof.Proofs.Accepting Sys2Proof.Proofs.Invariant Sys2Proof.Proofs.Encodable

/-! Operand domains (R76): the condition that a check's success says of its operand. -/

/-- If `x` answers, then `b` holds. -/
def Requires {α : Type} (x : Except HardError α) (b : Bool) : Prop := ∀ a, x = .ok a → b = true

section Sequencing

variable {α β : Type} {x : Except HardError α} {f : α → Except HardError β} {b b' : Bool}

theorem requires_true (x : Except HardError α) : Requires x true := fun _ _ => rfl

/-- A sequence requires what each of its parts does. -/
theorem requires_bind (hx : Requires x b) (hf : ∀ a, x = .ok a → Requires (f a) b') : Requires (x >>= f) (b && b') := by
  intro c hc
  obtain ⟨a, ha, hfa⟩ := bind_eq_ok.1 hc
  rw [hx a ha, hf a ha c hfa]; rfl

theorem requires_first (hx : Requires x b) : Requires (x >>= f) b := by
  intro c hc
  obtain ⟨a, ha, -⟩ := bind_eq_ok.1 hc
  exact hx a ha

theorem requires_rest (hf : ∀ a, x = .ok a → Requires (f a) b) : Requires (x >>= f) b := by
  intro c hc
  obtain ⟨a, ha, hfa⟩ := bind_eq_ok.1 hc
  exact hf a ha c hfa

end Sequencing

/-- An operation that requires what its operands lack ends in an error. -/
theorem complete_refused {r : Except HardError Result} {b : Bool} (hr : Requires r b) (hb : b = false) (s : State) :
    ∃ e, complete r s = .next { s with result := .error e } := by
  obtain ⟨v, hv, -⟩ | ⟨e, -, h⟩ := complete_cases r s
  · exact absurd (hr v hv) (by simp [hb])
  · exact ⟨e, h⟩

theorem completeEmit_refused {r : Except HardError (List Nat)} {b : Bool} (hr : Requires r b) (hb : b = false)
    (s : State) : ∃ e, completeEmit r s = .next { s with result := .error e } := by
  obtain ⟨v, hv, -⟩ | ⟨e, -, h⟩ := completeEmit_cases r s
  · exact absurd (hr v hv) (by simp [hb])
  · exact ⟨e, h⟩

/-! The checks of single operands. -/

theorem checkMax_requires (n : OperandName) (hi : Nat) (v : Int) : Requires (checkMax n hi v) (intUpTo hi v) := by
  intro a ha
  obtain ⟨rfl, hle⟩ := checkMax_eq_ok.1 ha
  simpa [intUpTo] using hle

theorem checkNat_requires (n : OperandName) (v : Int) : Requires (checkNat n v) (intNat v) := by
  intro a ha
  by_contra h
  rw [checkNat_neg n (by simpa [intNat] using h)] at ha
  cases ha

theorem checkPulse_requires (c : Cfg) (start stop : Rat) :
    Requires (checkPulse c start stop) (orderedPair start stop) :=
  fun _ ha => decide_eq_true (checkPulse_eq_ok.1 ha).2

theorem checkMode_any_requires (c : ModeCode) : Requires (checkMode admitsAny c) (codeOfAnyMode c) := by
  intro m hm
  by_contra h
  obtain rfl : c = 3#2 := by simpa [codeOfAnyMode] using h
  cases hm

theorem checkMode_packet_requires (c : ModeCode) : Requires (checkMode admitsPacket c) (codeOfPacketMode c) := by
  intro m hm
  by_contra h
  obtain ⟨h0, h1⟩ : c ≠ 0#2 ∧ c ≠ 1#2 := by simpa [codeOfPacketMode] using h
  obtain rfl | rfl : c = 2#2 ∨ c = 3#2 := by bv_omega
  all_goals cases hm

/-- A clock that was left out takes a positive default (R181). -/
theorem checkClock_requires (n : OperandName) (q : Option Rat) {d : Rat} :
    Requires (checkClock n (q.getD d)) (clockOk q) := by
  intro a ha
  cases q with
  | none => rfl
  | some q => exact decide_eq_true (checkClock_eq_ok.1 ha)

theorem checkFtoaOpt_requires (ftoa : Option Int) : Requires (checkFtoaOpt ftoa) (ftoa.all (intUpTo 15)) := by
  cases ftoa with
  | none => exact requires_true _
  | some f =>
    intro a ha
    cases hf : checkMax .ftoa 15 f with
    | ok v => exact checkMax_requires _ _ _ v hf
    | error e => simp [checkFtoaOpt, hf, Except.map] at ha

theorem checkTaps_requires (w : Nat) (t1 t2 t3 t4 : Int) :
    Requires (checkTaps w t1 t2 t3 t4) (tapsOk w t1 t2 t3 t4) := by
  intro t ht
  by_contra h
  have hbad : t1 < 0 ∨ t2 < 0 ∨ t3 < 0 ∨ t4 < 0 ∨ w ≤ t1 ∨ w ≤ t2 ∨ (t3 ≠ 0 ∧ t4 ≠ 0 ∧ (w ≤ t3 ∨ w ≤ t4)) := by
    simp only [tapsOk, intNat, Bool.and_eq_true, Bool.or_eq_true, decide_eq_true_eq] at h
    omega
  rw [checkTaps_outside hbad] at ht
  cases ht

theorem checkWidth_eq_ok {width : Int} {w : Nat} (h : checkWidth width = .ok w) :
    1 ≤ width ∧ width ≤ 16 ∧ width = w := by
  by_cases hw : 1 ≤ width ∧ width ≤ 16
  · rw [checkWidth_within hw.1 hw.2, Except.ok.injEq] at h
    omega
  · rw [checkWidth_outside (by omega)] at h
    cases h

/-! The operands of the shared functions. -/

theorem toAddress_requires (x y : Int) : Requires (toAddress x y) (intUpTo 255 x && intUpTo 255 y) :=
  requires_bind (checkMax_requires _ _ _) fun _ _ => requires_first (checkMax_requires _ _ _)

theorem timeToValues_requires (c : Cfg) (r : FineRounding) (m : Mode) (start stop : Rat) :
    Requires (timeToValues c r m start stop) (orderedPair start stop) := requires_first (checkPulse_requires _ _ _)

theorem assemble_requires (a toa sec ftoa : Int) : Requires (assemble a toa sec ftoa)
    (intUpTo 65535 a && (intUpTo 16383 toa && (intUpTo 1023 sec && intUpTo 15 ftoa))) :=
  requires_bind (checkMax_requires _ _ _) fun _ _ => requires_bind (checkMax_requires _ _ _) fun _ _ =>
    requires_bind (checkMax_requires _ _ _) fun _ _ => requires_first (checkMax_requires _ _ _)

theorem disassemble_requires (h : HeaderCheck) (w : Int) : Requires (disassemble h w) (intUpTo (2 ^ 48 - 1) w) :=
  requires_first (checkMax_requires _ _ _)

theorem encodeHit_requires (c : Cfg) (p : Params) (m : Mode) (a : Int) (start stop : Rat) :
    Requires (encodeHit c p m a start stop) (intUpTo 65535 a && orderedPair start stop) :=
  requires_bind (checkMax_requires _ _ _) fun _ _ => requires_first (timeToValues_requires _ _ _ _ _)

theorem acqConfig_requires (code : ModeCode) (fSys fFine epoch : Option Rat) :
    Requires (acqConfig code fSys fFine epoch) (codeOfAnyMode code && (clockOk fSys && clockOk fFine)) :=
  requires_bind (checkMode_any_requires _) fun _ _ => requires_bind (checkClock_requires _ _) fun _ _ =>
    requires_first (checkClock_requires _ _)

theorem acceptPulse_requires (c : Cfg) (pix : PixSpace) (a : Int) (start stop : Rat) :
    Requires (acceptPulse c pix a start stop) (intUpTo 65535 a && orderedPair start stop) :=
  requires_rest fun _ _ => requires_bind (checkMax_requires _ _ _) fun _ _ =>
    requires_first (requires_first (checkPulse_requires _ _ _))

theorem acceptFold_requires (c : Cfg) (m : Mode) (ps : List Pulse) :
    Requires (acceptFold c m PixRec.init ps) (ps.all fun p => orderedPair p.start p.stop) := by
  intro vs hvs
  obtain ⟨hdomain, -, -⟩ := acceptFold_answers_iff.1 ⟨vs, hvs⟩
  exact List.all_eq_true.2 fun p hp => decide_eq_true (hdomain p hp).2

theorem checkBytes_requires (j : Nat) (bs : List Int) : Requires (checkBytes j bs) (bs.all (intUpTo 255)) := by
  induction bs generalizing j with
  | nil => exact requires_true _
  | cons b bs ih =>
    intro vs hvs
    rw [checkBytes] at hvs
    cases hb : checkMax (.byte j) 255 b with
    | error e => simp [hb] at hvs
    | ok v =>
      cases hrest : checkBytes (j + 1) bs with
      | error e => simp [hb, hrest] at hvs
      | ok ws => rw [List.all_cons, checkMax_requires _ _ _ v hb, ih (j + 1) ws hrest]; rfl

theorem deserialise_requires (bs : List Int) : Requires (deserialise bs) (bs.all (intUpTo 255)) := by
  intro w hw
  cases h : checkBytes 0 bs with
  | ok vs => exact checkBytes_requires 0 bs vs h
  | error e => simp [deserialise, h, Except.map] at hw

/-- A stream that splits has whole records, and each entry is a byte of its record (R206). -/
theorem splitStream_requires (bs : List Int) :
    Requires (splitStream bs) (bs.all (intUpTo 255) && bs.length % 6 == 0) := by
  intro ws hws
  by_cases hlen : bs.length % 6 = 0
  · rw [splitStream, if_neg (not_not.2 hlen)] at hws
    have hrecord := mapUntilError_answers_iff.1 ⟨ws, hws⟩
    have hbytes : bs.all (intUpTo 255) = true := by
      refine List.all_eq_true.2 fun b hb => ?_
      obtain ⟨k, hk⟩ := List.mem_iff_getElem?.1 hb
      have hklt : k < bs.length := (List.getElem?_eq_some_iff.1 hk).1
      obtain ⟨w, hw⟩ := hrecord (k / 6) (List.mem_range.2 (by omega))
      have hmem : b ∈ memRead bs (6 * (k / 6)) 6 := by
        refine List.mem_of_getElem? (i := k % 6) ?_
        rw [memRead_getElem?, if_pos (Nat.mod_lt k (by norm_num)), Nat.div_add_mod, hk]
      exact List.all_eq_true.1 (deserialise_requires _ w hw) b hmem
    simp [hbytes, hlen]
  · rw [splitStream_malformed hlen] at hws
    cases hws

theorem encodeStream_requires (c : Cfg) (p : Params) (m : Mode) (hits : List Hit) :
    Requires (encodeStream c p m hits) (hits.all Hit.ok) := by
  intro ws hws
  have henc := encodeStream_answers_iff.1 ⟨ws, hws⟩
  refine List.all_eq_true.2 fun h hh => ?_
  obtain ⟨hx, hx', hy, hy', -, hpulse⟩ := henc.domain h hh
  simp [Hit.ok, intUpTo, orderedPair, hx, hx', hy, hy', hpulse]

/-! What the operations that write no state read (R261). -/

/-- The clocks, the epoch and the parameters of a state, in an otherwise empty one. -/
def bare (s : State) : State :=
  { cfg := { s.cfg with mode := none }, pix := [], par := s.par, stream := [], pending := [], result := .nothing }

theorem bare_eq {s t : State} (hsys : s.cfg.fSys = t.cfg.fSys) (hfine : s.cfg.fFine = t.cfg.fFine)
    (hepoch : s.cfg.epoch = t.cfg.epoch) (hpar : s.par = t.par) : bare s = bare t := by
  simp only [bare, hsys, hfine, hepoch, hpar]

section Mode

variable (c : Cfg) (p : Params) (m : Mode) (mode : Option Mode)

theorem acceptFold_withMode (r : PixRec) (ps : List Pulse) :
    acceptFold { c with mode := mode } m r ps = acceptFold c m r ps := by
  induction ps generalizing r with
  | nil => rfl
  | cons q qs ih =>
    have hpresent : presentPulse { c with mode := mode } m r q.start q.stop = presentPulse c m r q.start q.stop := rfl
    simp only [acceptFold, hpresent, ih]

theorem addressHits_withMode (i : Nat) (hits : List Hit) :
    addressHits { c with mode := mode } i hits = addressHits c i hits := by
  induction hits generalizing i with
  | nil => rfl
  | cons h hits ih =>
    have hpulse : checkPulse { c with mode := mode } h.start h.stop = checkPulse c h.start h.stop := rfl
    simp only [addressHits, hpulse, ih]

theorem encodeStream_withMode (hits : List Hit) :
    encodeStream { c with mode := mode } p m hits = encodeStream c p m hits := by
  have hpacket : keyedPacket { c with mode := mode } p m = keyedPacket c p m := rfl
  simp only [encodeStream, encodePixels, encodePixel, addressHits_withMode, acceptFold_withMode, hpacket]

end Mode

theorem complete_result {r : Except HardError Result} {s t s' t' : State} (hs : complete r s = .next s')
    (ht : complete r t = .next t') : s'.result = t'.result := by
  cases r <;> cases hs <;> cases ht <;> rfl

theorem completeEmit_result {r : Except HardError (List Nat)} {s t s' t' : State} (hs : completeEmit r s = .next s')
    (ht : completeEmit r t = .next t') : s'.result = t'.result := by
  cases r <;> cases hs <;> cases ht <;> rfl

/-- An operation that writes no state answers in any state as it does in the bare one. -/
theorem exec_result_bare {i : Instr} (hi : writesState i = false) {s s' u : State} (hs : exec i s = .next s')
    (hu : exec i (bare s) = .next u) : s'.result = u.result := by
  cases i with
  | acqStart _ _ _ _ | accept _ _ _ => cases hi
  | acceptSeq code ps =>
    simp only [exec_acceptSeq, execAcceptSeq, bare, acceptFold_withMode] at hu
    exact complete_result hs hu
  | pktSer word => exact completeEmit_result hs hu
  | pkt48 _ _ _ _ => cases hs; cases hu; rfl
  | encStream hits code =>
    simp only [exec_encStream, execEncStream, bare, encodeStream_withMode] at hu
    exact completeEmit_result hs hu
  | _ => exact complete_result hs hu

/-! The obligations. -/

/-- Settles O55: an operation that answers has passed each check of its operands, whose conditions are those of
`Instr.wf`. -/
theorem operandsOutsideTheirDomainAreRefused : Obligations.OperandsOutsideTheirDomainAreRefused := by
  intro i s hwf
  cases i with
  | t2toa _ | t2ftoa _ | pkt48 _ _ _ _ => cases hwf
  | addrEnc x y => exact complete_refused (requires_first (toAddress_requires x y)) hwf s
  | addrDec _ => exact complete_refused (requires_first (checkMax_requires _ _ _)) hwf s
  | lfsrStep r w t1 t2 t3 t4 =>
    rw [Instr.wf, Bool.and_assoc] at hwf
    refine complete_refused
      (requires_bind (b := decide (1 ≤ w) && decide (w ≤ 16)) (fun a ha => ?_) fun a ha => ?_) hwf s
    · obtain ⟨hlow, hhigh, -⟩ := checkWidth_eq_ok ha
      simp [hlow, hhigh]
    · obtain ⟨-, -, rfl⟩ := checkWidth_eq_ok ha
      exact requires_bind (checkTaps_requires _ _ _ _ _) fun _ _ => requires_first (checkMax_requires _ _ _)
  | encToa _ =>
    refine complete_refused ?_ hwf s
    exact requires_first (requires_first (checkMax_requires _ _ _))
  | encFtoa _ | encTot _ | encItot _ | encPc10 _ | encPc4 _ =>
    refine complete_refused ?_ hwf s
    exact requires_first (requires_first (checkNat_requires _ _))
  | decToa _ | decFtoa _ | decTot _ | decItot _ | decPc10 _ | decPc4 _ =>
    refine complete_refused ?_ hwf s
    exact requires_first (requires_first (checkMax_requires _ _ _))
  | toa2t _ => exact complete_refused (requires_first (checkMax_requires _ _ _)) hwf s
  | ftoa2t _ _ => exact complete_refused (requires_bind (checkMax_requires _ _ _) fun _ _ =>
      requires_first (checkMax_requires _ _ _)) hwf s
  | t2tot _ _ => exact complete_refused (requires_first (checkPulse_requires _ _ _)) hwf s
  | tot2t tot toa ftoa =>
    have hall : (Instr.tot2t tot toa ftoa).wf = (intUpTo 1023 tot && (intUpTo 16383 toa && ftoa.all (intUpTo 15))) := by
      cases ftoa <;> exact Bool.and_assoc _ _ _
    exact complete_refused (requires_bind (checkMax_requires _ _ _) fun _ _ =>
      requires_bind (checkMax_requires _ _ _) fun _ _ => requires_first (checkFtoaOpt_requires _)) (hall ▸ hwf) s
  | t2val _ _ _ => exact complete_refused (requires_bind (checkMode_packet_requires _) fun _ _ =>
      requires_first (timeToValues_requires _ _ _ _ _)) hwf s
  | deadtime p code f =>
    rw [Instr.wf, Bool.and_assoc] at hwf
    exact complete_refused (requires_bind (checkMode_any_requires _) fun _ _ =>
      requires_bind (checkNat_requires _ _) fun _ _ => requires_first (checkClock_requires _ (some f) (d := 0))) hwf s
  | acqStart code fSys fFine epoch =>
    rw [Instr.wf, Bool.and_assoc] at hwf
    cases hc : acqConfig code fSys fFine epoch with
    | ok c => exact absurd (acqConfig_requires _ _ _ _ c hc) (by simp [hwf])
    | error e => exact ⟨e, exec_acqStart_of_error hc s⟩
  | accept a start stop =>
    obtain ⟨e, -, h⟩ | ⟨n, r, v, -, hp, -⟩ := exec_accept_cases a start stop s
    · exact ⟨e, h⟩
    · exact absurd ((acceptPulse_requires _ _ _ _ _ _ hp).symm.trans hwf) (by simp)
  | acceptSeq _ _ => exact complete_refused (requires_bind (checkMode_any_requires _) fun _ _ =>
      requires_first (acceptFold_requires _ _ _)) hwf s
  | pktAsm a toa sec ftoa =>
    rw [Instr.wf, Bool.and_assoc, Bool.and_assoc] at hwf
    exact complete_refused (requires_first (assemble_requires _ _ _ _)) hwf s
  | pktDis _ => exact complete_refused (requires_first (disassemble_requires _ _)) hwf s
  | hitEnc a start stop code =>
    rw [Instr.wf, Bool.and_assoc] at hwf
    exact complete_refused (requires_bind (checkMode_packet_requires _) fun _ _ =>
      requires_first (encodeHit_requires _ _ _ _ _ _)) hwf s
  | hitDec _ _ _ _ => exact complete_refused (requires_bind (checkMode_packet_requires _) fun _ _ =>
      requires_first (requires_first (disassemble_requires _ _))) hwf s
  | pktSer _ => exact completeEmit_refused (requires_first (checkMax_requires _ _ _)) hwf s
  | pktDes _ _ _ _ _ _ => exact complete_refused (requires_first (deserialise_requires _)) hwf s
  | streamSplit _ => exact complete_refused (requires_first (splitStream_requires _)) hwf s
  | encStream _ _ => exact completeEmit_refused (requires_bind (checkMode_packet_requires _) fun _ _ =>
      encodeStream_requires _ _ _ _) hwf s
  | decStream bs code _ _ =>
    rw [Instr.wf, Bool.and_assoc] at hwf
    exact complete_refused (requires_bind (checkMode_packet_requires _) fun _ _ =>
      requires_first (splitStream_requires _)) hwf s

/-- Settles O57: both states have the same clocks, epoch and parameters, so the same bare state. -/
theorem pureOperationsReadOnlyClocksAndParameters : Obligations.PureOperationsReadOnlyClocksAndParameters := by
  intro i s t s' t' hi hsys hfine hepoch hpar hs ht
  obtain ⟨u, hu, -⟩ := Exceptions.exec_ending i (bare s)
  rw [exec_result_bare hi hs hu, exec_result_bare hi ht (bare_eq hsys hfine hepoch hpar ▸ hu)]

end Sys2Proof.Proofs.Domains
end
